-- ==== Sys2Proof/Word.lean ====
section
/-! DEFINITION. The word types of the BAYER-PIPE core (00_scope.md R6: every host register is 32 bits,
every unpacked sample 16 bits unsigned, every output byte 8 bits). -/

namespace Sys2Proof

/-- A byte of a stream, of bus memory or of an output row. -/
abbrev Byte := BitVec 8

/-- An unpacked sample (u16). -/
abbrev Sample := BitVec 16

/-- A host register, a bus address or a u32 counter. -/
abbrev Word := BitVec 32

end Sys2Proof
end

