-- ==== Sys2Proof/Syntax.lean ====
section
/-! DEFINITION. The instructions of spec/opcode_table.json, one constructor per mnemonic, the operand
types they carry, and the forms in which an instruction is presented to the core (30_encoding.md,
opening: a host write to CTRL, a host access, the latched FORMAT word with a datapath unit, a pixel
class, a STATUS word). -/

namespace Sys2Proof

/-- A mosaic colour (42_demosaic.md R130). -/
inductive Color where
  | red | green | blue
  deriving DecidableEq, Repr, Inhabited

/-- A demosaiced pixel before white balance (42_demosaic.md R134-R137). -/
structure Rgb16 where
  r : Sample
  g : Sample
  b : Sample
  deriving DecidableEq, Repr, Inhabited

/-- A pixel of the 8-bit colour image (42_demosaic.md R142, R143). -/
structure Rgb8 where
  r : Byte
  g : Byte
  b : Byte
  deriving DecidableEq, Repr, Inhabited

/-- Pre-tone luma and chroma of one pixel (43_color_convert.md R151, R160). -/
structure Ycc where
  y : Byte
  cb : Byte
  cr : Byte
  deriving DecidableEq, Repr, Inhabited

/-- The chroma of one horizontal pixel pair (43_color_convert.md R155, R160). -/
structure Chroma where
  cb : Byte
  cr : Byte
  deriving DecidableEq, Repr, Inhabited

/-- The instructions. An operation of the datapath carries the operands its rule lists and reads
`cfg`, the window and the output strip from the state. -/
inductive Instr where
  -- commands (format CMD, 30_encoding.md R70)
  | nop
  | encodeStream
  | encodeBuffer
  | estimate
  | cmdReserved (code : BitVec 4)
  -- host accesses (format BUS, 30_encoding.md R71)
  | hostRead (offset : BitVec 8)
  | hostWrite (offset : BitVec 8) (data : Word)
  -- datapath operations (format FMTSEL, 30_encoding.md R72-R75, R79)
  | unpackRaw8 (b : List Byte)
  | unpackRaw10p (b : List Byte)
  | unpackRaw12p (b : List Byte)
  | unpackRaw10 (b : List Byte)
  | unpackRaw12 (b : List Byte)
  | unpackRaw16 (b : List Byte)
  | pixfmtReserved (code : BitVec 3)
  | blcBypass (u : List Sample)
  | blcSub (u : List Sample)
  | blcSub2 (u : List Sample)
  | cfaColor (x y : Nat)
  | wbNorm (p : Rgb16)
  | cscPixel (p : Rgb8)
  | pairChroma (p0 p1 : Rgb8)
  | ref (x y : Nat)
  | csc444 (y : Nat)
  | csc422 (y : Nat)
  | csc420Even (y : Nat)
  | csc420Odd (y : Nat)
  | subsampReserved
  | toneLut (l : Byte)
  -- demosaic operations (format CLASS, 30_encoding.md R78)
  | dmR (x y : Nat)
  | dmB (x y : Nat)
  | dmGRrow (x y : Nat)
  | dmGBrow (x y : Nat)
  -- orchestrator steps (format STATE, 30_encoding.md R80)
  | stepPreflight
  | stepSkip
  | stepBegin
  | stepAwait
  | stepRead
  | stepUnpack
  | stepDemosaic
  | stepEmit
  | stepFinish
  | wait (code : BitVec 4)
  deriving DecidableEq, Repr

/-- A host access as the bus carries it: the tuple (kind, offset, width, data) of 30_encoding.md R71. -/
structure HostAccess where
  write : Bool
  offset : Nat
  width : Nat
  data : Word
  deriving DecidableEq, Repr

/-- The datapath units whose operation the latched FORMAT word selects (30_encoding.md R79), each with
the operands the selected operation takes. -/
inductive DpUnit where
  /-- the pixel unpacker on one raw row (selector PIXFMT) -/
  | unpacker (b : List Byte)
  /-- the black-level corrector on one sample row (selector BL_EN and BL); `twoLane` says which of the
  two equal forms the core uses (41_black_level.md R122) -/
  | blackLevel (twoLane : Bool) (u : List Sample)
  /-- the colour-at-position table (selector PATTERN) -/
  | cfaTable (x y : Nat)
  /-- white balance and normalisation of one pixel (FAST_EN = 1) -/
  | whiteBalance (p : Rgb16)
  /-- colour conversion of one pixel (FAST_EN = 1) -/
  | pixelCsc (p : Rgb8)
  /-- chroma of one pixel pair (FAST_EN = 1, SUBSAMP 1 or 2) -/
  | pairCsc (p0 p1 : Rgb8)
  /-- the reference datapath at one pixel (FAST_EN = 0) -/
  | reference (x y : Nat)
  /-- the row converter on one image row (selector SUBSAMP) -/
  | rowConverter (y : Nat)
  /-- the tone table on one luma byte (always selected) -/
  | toneTable (l : Byte)
  deriving DecidableEq, Repr

/-- What is presented to the decoder: the word or words of one instruction in one of the five formats,
with the operands a datapath operation is applied to. -/
inductive Presented where
  /-- format CMD: the data of a 32-bit host write to CTRL -/
  | cmd (data : Word)
  /-- format BUS -/
  | bus (a : HostAccess)
  /-- format FMTSEL: a unit, the latched FORMAT word and the latched BL field -/
  | fmtsel (u : DpUnit) (format : Word) (bl : BitVec 16)
  /-- format CLASS: the class of pixel (x, y) -/
  | cls (code : BitVec 3) (x y : Nat)
  /-- format STATE: the STATUS word -/
  | state (status : Word)
  deriving DecidableEq, Repr

/-- Why the decoder rejects what it is presented. -/
inductive Reject where
  /-- a host access that is not 32 bits wide, not aligned, or outside 0x000..0x0FF (20_memory.md R55) -/
  | malformedHostAccess
  /-- a STATE code 12..15, which is never held (10_state.md R25) -/
  | stateCodeNeverHeld
  /-- a pixel class with colour code 3, which never occurs (30_encoding.md R78) -/
  | classNeverOccurs
  /-- a unit that the FORMAT word does not select (30_encoding.md R79) -/
  | unitNotSelected
  deriving DecidableEq, Repr

end Sys2Proof
end

