-- ==== Sys2Proof/Config.lean ====
section
/-! DEFINITION. The OPEN parameters of 00_scope.md R6 and the free values, as constants without a body:
nothing in Lean can prove a value of one. The DECIDED parameters stand where they are used
(P_CSC in Machine/ColorConvert.lean, P_UNPACK_LAYOUT in Machine/Unpack.lean, P_MCU in
Machine/Operands.lean); P_TOL stands here. -/

namespace Sys2Proof

/-- The 3×3 samples around a pixel, a neighbour outside the image ABSENT (43_color_convert.md R160;
42_demosaic.md R132): compass names, `n` the row above, `w` the column to the left. -/
structure Nbhd where
  nw : Option Sample
  n : Option Sample
  ne : Option Sample
  w : Option Sample
  c : Sample
  e : Option Sample
  sw : Option Sample
  s : Option Sample
  se : Option Sample
  deriving DecidableEq, Repr, Inhabited

/-- The three Q8 gains (42_demosaic.md R140). -/
structure Gains where
  r : BitVec 16
  g : BitVec 16
  b : BitVec 16
  deriving DecidableEq, Repr, Inhabited

/-- The context of a pixel that the datapaths read (43_color_convert.md R160, `Ctx(x, y)`). -/
structure PixelCtx where
  pattern : BitVec 2
  xOdd : Bool
  yOdd : Bool
  depth : Nat
  gains : Gains
  nb : Nbhd
  deriving DecidableEq, Repr, Inhabited

/-- Block geometry of a subsampling mode (10_state.md R32): block width and height in pixels, bytes per
pixel and the LAYOUT code given to `EngineBegin`. -/
structure Geometry where
  mw : Nat
  bh : Nat
  bpp : Nat
  layout : Nat
  deriving DecidableEq, Repr, Inhabited

namespace Config

/-- P_BASE without its two low bits, which are 0 because P_BASE is word aligned (20_memory.md R51). -/
opaque baseWord : BitVec 30

/-- P_WB_DEF_R, P_WB_DEF_G, P_WB_DEF_B (42_demosaic.md R140). -/
opaque wbDefault : Gains

/-- P_TONE_LUT (43_color_convert.md R150). -/
opaque toneLut : Byte → Byte

/-- P_QTIER (44_orchestrator.md R180): the tier the engine is given for a quality. -/
opaque qTier : BitVec 8 → Nat

/-- P_CAP_RAW (44_orchestrator.md R176). -/
opaque capRaw : Word

/-- P_CAP_UNPACK (44_orchestrator.md R176). -/
opaque capUnpack : Word

/-- P_CAP_OUT (44_orchestrator.md R176). -/
opaque capOut : Word

/-- P_CAP_CARRY (44_orchestrator.md R176). -/
opaque capCarry : Word

/-- P_CAP_LOOK (44_orchestrator.md R176). -/
opaque capLook : Word

/-- P_TOL, DECIDED (00_scope.md R6; 43_color_convert.md R161). -/
def tolerance : Nat := 2

/-- What the reference datapath would give for one pixel before the tolerance law is imposed on it
(43_color_convert.md R160, R161; Machine/ColorConvert.lean imposes the law). -/
opaque refPix : PixelCtx → Ycc

/-- The same for one pixel pair. -/
opaque refPair : PixelCtx → PixelCtx → Chroma

/-- FREE VALUE: byte `i` of the raw row `r` that nothing has written (10_state.md R31, R36), or that an
UNPACK run alone was not handed; the first argument is `State.stale`. -/
opaque staleRaw : Nat → Nat → Nat → Byte

/-- FREE VALUE: sample `x` of the window row `r` that nothing has written (10_state.md R31, R36). -/
opaque staleWin : Nat → Nat → Nat → Sample

/-- FREE VALUE: byte `i` of the strip row `r` that nothing has written (10_state.md R31, R36). -/
opaque staleStrip : Nat → Nat → Nat → Byte

/-- FREE VALUE: the byte of bus memory at an address that nothing has written. The first argument is 0 for
the contents at power-on (20_memory.md R52 gives none), and another number for each reset that has left the
address unspecified (70_reset_and_hazards.md R250). -/
opaque memByte : Nat → Nat → Byte

/-- FREE VALUE: the row stride of PIXFMT 6, 7, which 40_unpack.md R100 does not give. -/
opaque reservedStride : Word → BitVec 3 → Nat

/-- FREE VALUE: the bit depth of PIXFMT 6, 7, which 40_unpack.md R101 does not give. -/
opaque reservedDepth : BitVec 3 → Nat

/-- FREE VALUE: sample `i` of a raw row in PIXFMT 6, 7, for which there is no UNPACK operation. -/
opaque reservedSample : BitVec 3 → List Byte → Nat → Sample

/-- FREE VALUE: the block geometry and LAYOUT code of SUBSAMP 3, which 10_state.md R32 does not give. -/
opaque reservedGeometry : Geometry

/-- FREE VALUE: output byte `i` of image row `y` in SUBSAMP 3, for which there is no row operation. -/
opaque reservedOut : Nat → Nat → Byte

end Config

end Sys2Proof
end

