-- ==== Sys2Proof/WellFormed.lean ====
section
/-! DEFINITION. Which instructions are well formed: those that some presented word stands for. -/

namespace Sys2Proof

/-- The operand checks that the encodings of 30_encoding.md impose. -/
def Instr.wellFormed : Instr → Bool
  | .nop | .encodeStream | .encodeBuffer | .estimate => true
  -- CMD 4..15 (R70)
  | .cmdReserved code => decide (4 ≤ code.toNat)
  -- offset a multiple of 4 (R71)
  | .hostRead offset => decide (offset.toNat % 4 = 0)
  | .hostWrite offset _ => decide (offset.toNat % 4 = 0)
  | .unpackRaw8 _ | .unpackRaw10p _ | .unpackRaw12p _ => true
  | .unpackRaw10 _ | .unpackRaw12 _ | .unpackRaw16 _ => true
  -- PIXFMT 6, 7 (R72)
  | .pixfmtReserved code => decide (6 ≤ code.toNat)
  | .blcBypass _ | .blcSub _ | .blcSub2 _ => true
  | .cfaColor _ _ | .wbNorm _ | .cscPixel _ | .pairChroma _ _ | .ref _ _ => true
  | .csc444 _ | .csc422 _ => true
  -- image row parity (R79)
  | .csc420Even y => decide (y % 2 = 0)
  | .csc420Odd y => decide (y % 2 = 1)
  | .subsampReserved | .toneLut _ => true
  | .dmR _ _ | .dmB _ _ | .dmGRrow _ _ | .dmGBrow _ _ => true
  | .stepPreflight | .stepSkip | .stepBegin | .stepAwait | .stepRead => true
  | .stepUnpack | .stepDemosaic | .stepEmit | .stepFinish => true
  -- STATE 0, 10, 11 (R80)
  | .wait code => decide (code.toNat = 0 ∨ code.toNat = 10 ∨ code.toNat = 11)

end Sys2Proof
end

