-- ==== Sys2Proof/Decode.lean ====
section
/-! DEFINITION. The decoder of the five formats (30_encoding.md), total and rejecting by name, the
encoder written from the same tables, and the reading of an opcode-table word. -/

namespace Sys2Proof

/-- CTRL[3:0] (30_encoding.md R70, R82: a decoder reads CTRL[3:0] alone). -/
def cmdField (data : Word) : BitVec 4 := data.extractLsb' 0 4

/-- FORMAT[2:0] (R72). -/
def pixfmtField (format : Word) : BitVec 3 := format.extractLsb' 0 3

/-- FORMAT[5:4] (R73). -/
def patternField (format : Word) : BitVec 2 := format.extractLsb' 4 2

/-- FORMAT[9:8] (R74). -/
def subsampField (format : Word) : BitVec 2 := format.extractLsb' 8 2

/-- FORMAT[16] (R75). -/
def fastField (format : Word) : Bool := format.getLsbD 16

/-- FORMAT[17] (R75). -/
def wbEnField (format : Word) : Bool := format.getLsbD 17

/-- FORMAT[18] (R75). -/
def blEnField (format : Word) : Bool := format.getLsbD 18

/-- STATUS[11:8] (R80). -/
def stateField (status : Word) : BitVec 4 := status.extractLsb' 8 4

/-- Format CMD (30_encoding.md R70). -/
def decodeCmd (data : Word) : Instr :=
  match cmdField data with
  | 0#4 => .nop
  | 1#4 => .encodeStream
  | 2#4 => .encodeBuffer
  | 3#4 => .estimate
  | code => .cmdReserved code

/-- Format BUS (30_encoding.md R71; 20_memory.md R55). -/
def decodeBus (a : HostAccess) : Except Reject Instr :=
  if a.width = 32 ∧ a.offset % 4 = 0 ∧ a.offset < 256 then
    if a.write then .ok (.hostWrite (BitVec.ofNat 8 a.offset) a.data)
    else .ok (.hostRead (BitVec.ofNat 8 a.offset))
  else .error .malformedHostAccess

/-- The UNPACK operation of a PIXFMT code (30_encoding.md R72). -/
def decodeUnpack (format : Word) (b : List Byte) : Instr :=
  match pixfmtField format with
  | 0#3 => .unpackRaw8 b
  | 1#3 => .unpackRaw10p b
  | 2#3 => .unpackRaw12p b
  | 3#3 => .unpackRaw10 b
  | 4#3 => .unpackRaw12 b
  | 5#3 => .unpackRaw16 b
  | code => .pixfmtReserved code

/-- The black-level operation (30_encoding.md R79; 41_black_level.md R120-R122). -/
def decodeBlackLevel (format : Word) (bl : BitVec 16) (twoLane : Bool) (u : List Sample) : Instr :=
  if blEnField format = false ∨ bl = 0#16 then .blcBypass u
  else if twoLane then .blcSub2 u
  else .blcSub u

/-- The row operation of a SUBSAMP code (30_encoding.md R74, R79). -/
def decodeRow (format : Word) (y : Nat) : Instr :=
  match subsampField format with
  | 0#2 => .csc444 y
  | 1#2 => .csc422 y
  | 2#2 => if y % 2 = 0 then .csc420Even y else .csc420Odd y
  | _ => .subsampReserved

/-- Format FMTSEL (30_encoding.md R79). -/
def decodeFmt (format : Word) (bl : BitVec 16) : DpUnit → Except Reject Instr
  | .unpacker b => .ok (decodeUnpack format b)
  | .blackLevel twoLane u => .ok (decodeBlackLevel format bl twoLane u)
  | .cfaTable x y => .ok (.cfaColor x y)
  | .whiteBalance p => if fastField format then .ok (.wbNorm p) else .error .unitNotSelected
  | .pixelCsc p => if fastField format then .ok (.cscPixel p) else .error .unitNotSelected
  | .pairCsc p0 p1 =>
    if fastField format = true ∧ (subsampField format = 1#2 ∨ subsampField format = 2#2) then
      .ok (.pairChroma p0 p1)
    else .error .unitNotSelected
  | .reference x y => if fastField format then .error .unitNotSelected else .ok (.ref x y)
  | .rowConverter y => .ok (decodeRow format y)
  | .toneTable l => .ok (.toneLut l)

/-- Format CLASS (30_encoding.md R78): bits [1:0] the colour, bit 2 the red-row flag, which only a green
pixel's operation reads. -/
def decodeClass (code : BitVec 3) (x y : Nat) : Except Reject Instr :=
  match code.extractLsb' 0 2 with
  | 0#2 => .ok (.dmR x y)
  | 2#2 => .ok (.dmB x y)
  | 1#2 => if code.getLsbD 2 then .ok (.dmGRrow x y) else .ok (.dmGBrow x y)
  | _ => .error .classNeverOccurs

/-- Format STATE (30_encoding.md R80). -/
def decodeState (status : Word) : Except Reject Instr :=
  match stateField status with
  | 0#4 => .ok (.wait 0#4)
  | 1#4 => .ok .stepPreflight
  | 2#4 => .ok .stepSkip
  | 3#4 => .ok .stepBegin
  | 4#4 => .ok .stepAwait
  | 5#4 => .ok .stepRead
  | 6#4 => .ok .stepUnpack
  | 7#4 => .ok .stepDemosaic
  | 8#4 => .ok .stepEmit
  | 9#4 => .ok .stepFinish
  | 10#4 => .ok (.wait 10#4)
  | 11#4 => .ok (.wait 11#4)
  | _ => .error .stateCodeNeverHeld

/-- The decoder. -/
def decode : Presented → Except Reject Instr
  | .cmd data => .ok (decodeCmd data)
  | .bus a => decodeBus a
  | .fmtsel u format bl => decodeFmt format bl u
  | .cls code x y => decodeClass code x y
  | .state status => decodeState status

/-! The encoder: the words of a well-formed instruction, written from the same tables (30_encoding.md
R70-R80), every bit the row leaves open 0. -/

/-- The FORMAT word with a PIXFMT code and nothing else. -/
def formatOfPixfmt (code : BitVec 3) : Word := code.zeroExtend 32

/-- The FORMAT word with FAST_EN set and nothing else. -/
def formatFast : Word := 0x00010000#32

/-- The FORMAT word with BL_EN set and nothing else. -/
def formatBlEn : Word := 0x00040000#32

/-- The FORMAT word with a SUBSAMP code and nothing else. -/
def formatOfSubsamp (code : BitVec 2) : Word := code.zeroExtend 32 <<< 8

/-- The STATUS word of a STATE code, the other bits 0. -/
def statusOfState (code : BitVec 4) : Word := code.zeroExtend 32 <<< 8

/-- The words of an instruction. -/
def encode : Instr → Presented
  | .nop => .cmd 0#32
  | .encodeStream => .cmd 1#32
  | .encodeBuffer => .cmd 2#32
  | .estimate => .cmd 3#32
  | .cmdReserved code => .cmd (code.zeroExtend 32)
  | .hostRead offset => .bus ⟨false, offset.toNat, 32, 0#32⟩
  | .hostWrite offset data => .bus ⟨true, offset.toNat, 32, data⟩
  | .unpackRaw8 b => .fmtsel (.unpacker b) (formatOfPixfmt 0#3) 0#16
  | .unpackRaw10p b => .fmtsel (.unpacker b) (formatOfPixfmt 1#3) 0#16
  | .unpackRaw12p b => .fmtsel (.unpacker b) (formatOfPixfmt 2#3) 0#16
  | .unpackRaw10 b => .fmtsel (.unpacker b) (formatOfPixfmt 3#3) 0#16
  | .unpackRaw12 b => .fmtsel (.unpacker b) (formatOfPixfmt 4#3) 0#16
  | .unpackRaw16 b => .fmtsel (.unpacker b) (formatOfPixfmt 5#3) 0#16
  | .pixfmtReserved code => .fmtsel (.unpacker []) (formatOfPixfmt code) 0#16
  | .blcBypass u => .fmtsel (.blackLevel false u) 0#32 0#16
  | .blcSub u => .fmtsel (.blackLevel false u) formatBlEn 1#16
  | .blcSub2 u => .fmtsel (.blackLevel true u) formatBlEn 1#16
  | .cfaColor x y => .fmtsel (.cfaTable x y) 0#32 0#16
  | .wbNorm p => .fmtsel (.whiteBalance p) formatFast 0#16
  | .cscPixel p => .fmtsel (.pixelCsc p) formatFast 0#16
  | .pairChroma p0 p1 => .fmtsel (.pairCsc p0 p1) (formatFast ||| formatOfSubsamp 1#2) 0#16
  | .ref x y => .fmtsel (.reference x y) 0#32 0#16
  | .csc444 y => .fmtsel (.rowConverter y) (formatOfSubsamp 0#2) 0#16
  | .csc422 y => .fmtsel (.rowConverter y) (formatOfSubsamp 1#2) 0#16
  | .csc420Even y => .fmtsel (.rowConverter y) (formatOfSubsamp 2#2) 0#16
  | .csc420Odd y => .fmtsel (.rowConverter y) (formatOfSubsamp 2#2) 0#16
  | .subsampReserved => .fmtsel (.rowConverter 0) (formatOfSubsamp 3#2) 0#16
  | .toneLut l => .fmtsel (.toneTable l) 0#32 0#16
  | .dmR x y => .cls 0b100#3 x y
  | .dmB x y => .cls 0b010#3 x y
  | .dmGRrow x y => .cls 0b101#3 x y
  | .dmGBrow x y => .cls 0b001#3 x y
  | .stepPreflight => .state (statusOfState 1#4)
  | .stepSkip => .state (statusOfState 2#4)
  | .stepBegin => .state (statusOfState 3#4)
  | .stepAwait => .state (statusOfState 4#4)
  | .stepRead => .state (statusOfState 5#4)
  | .stepUnpack => .state (statusOfState 6#4)
  | .stepDemosaic => .state (statusOfState 7#4)
  | .stepEmit => .state (statusOfState 8#4)
  | .stepFinish => .state (statusOfState 9#4)
  | .wait code => .state (statusOfState code)

/-! Words of spec/opcode_table.json. The table numbers the bits of five different words in one way, so
which word is meant is read from its width (notes/assumptions/17.md). -/

/-- A pixel of an RGGB mosaic whose class has the operation of this class code (42_demosaic.md R130;
95_test_vectors.md §2.4). -/
def classSite (code : BitVec 3) : Nat × Nat :=
  match code.extractLsb' 0 2 with
  | 0#2 => (0, 0)
  | 2#2 => (1, 1)
  | _ => if code.getLsbD 2 then (1, 0) else (0, 1)

/-- The unit that a FORMAT word of three bytes is read for: the unit of its highest selector that is
set, the black-level corrector where none is. -/
def tableUnit (w : Word) : DpUnit :=
  if blEnField w then .blackLevel false []
  else if fastField w then .whiteBalance ⟨0#16, 0#16, 0#16⟩
  else if subsampField w ≠ 0#2 then .rowConverter 0
  else .blackLevel false []

/-- The BLACK_LEVEL operand of a table row: nonzero where the row needs it (rows BLC_SUB, BLC_SUB2). -/
def tableBl (w : Word) : BitVec 16 := if blEnField w then 1#16 else 0#16

/-- The presented form of a table word of `nbits` bits. -/
def tableItem (nbits w : Nat) : Presented :=
  if 24 < nbits then .cmd (BitVec.ofNat 32 w)
  else if 16 < nbits then
    .fmtsel (tableUnit (BitVec.ofNat 32 w)) (BitVec.ofNat 32 w) (tableBl (BitVec.ofNat 32 w))
  else if 8 < nbits then .state (BitVec.ofNat 32 w)
  else if w = 0 ∨ w = 1 ∨ w = 2 ∨ w = 5 then
    .cls (BitVec.ofNat 3 w) (classSite (BitVec.ofNat 3 w)).1 (classSite (BitVec.ofNat 3 w)).2
  else .fmtsel (.unpacker []) (BitVec.ofNat 32 w) 0#16

/-- The instruction the decoder reads from a word of spec/opcode_table.json. -/
def decodeTableWord (nbits w : Nat) : Option Instr :=
  match decode (tableItem nbits w) with
  | .ok i => some i
  | .error _ => none

end Sys2Proof
end

