-- ==== Sys2Proof/Machine/State.lean ====
section
/-! DEFINITION. The state of the BAYER-PIPE core and of what it sees of the other agents, as plain data
(10_state.md), the reasons a step can stop, and the state right after reset (10_state.md R36). -/

namespace Sys2Proof.Machine

/-- The orchestrator states 0..11 (10_state.md R25). Codes 12..15 are never held. -/
inductive Fsm where
  | idle | preflight | skip | begin | await | reading | unpacking | demosaic | emitting | finish
  | done | error
  deriving DecidableEq, Repr

/-- Which entry point started the encode (10_state.md R27). -/
inductive Mode where
  | stream | buffer
  deriving DecidableEq, Repr

/-- The values 0, 1, 2 of `op` and of ERR_INFO.OP (10_state.md R23, R27). -/
inductive EncOp where
  | none | encodeStream | encodeBuffer
  deriving DecidableEq, Repr

/-- The error codes 0..16 in their order (60_exceptions.md R220). -/
inductive ErrCode where
  | none
  | invalidArguments      -- 1
  | invalidDimensions     -- 2
  | invalidStride         -- 3
  | memoryCeiling         -- 4
  | skipEndOfInput        -- 5
  | engineInit            -- 6
  | allocRaw              -- 7
  | allocUnpack           -- 8
  | allocOut              -- 9
  | allocCarry            -- 10
  | allocLook             -- 11
  | outputOverflow        -- 12
  | nullOutSize           -- 13
  | nullInput             -- 14
  | nullOutput            -- 15
  | zeroCapacity          -- 16
  deriving DecidableEq, Repr

/-- The fifteen configuration words: the host's registers, and their latched copy `cfg`
(10_state.md R23, R24). -/
structure CfgRegs where
  width : Word
  height : Word
  format : Word
  quality : Word
  skipLines : Word
  blackLevel : Word
  wbR : Word
  wbG : Word
  wbB : Word
  memLimit : Word
  inAddr : Word
  inLen : Word
  outAddr : Word
  outCap : Word
  outSizeAddr : Word
  deriving DecidableEq, Repr

/-- One answer of the compression engine to one call: whether `EngineBegin` succeeded (the other two
calls have no failure answer, 60_exceptions.md R236) and the `OutWrite` requests made during the call
(44_orchestrator.md R192). -/
structure EngineAnswer where
  ok : Bool
  writes : List (List Byte)
  deriving DecidableEq, Repr

/-- One event of the run (00_scope.md R10). -/
inductive Event where
  /-- `StreamRead(n)` and its answer, in either mode -/
  | streamRead (n : Nat) (bytes : List Byte)
  /-- `MemRead(addr, n)` and what was read -/
  | memRead (addr : Nat) (bytes : List Byte)
  /-- `MemWrite(addr, n, v)`, the bytes in address order -/
  | memWrite (addr : Nat) (bytes : List Byte)
  /-- `OutWrite(bytes)` and the count accepted, in either mode -/
  | outWrite (bytes : List Byte) (accepted : Nat)
  | engineBegin (w h layout sub tier : Nat) (ok : Bool)
  /-- the block as its rows, and the pitch -/
  | engineAddBlock (block : List (List Byte)) (pitch : Nat)
  | engineEnd
  /-- `raise Err(code)` -/
  | raised (code : ErrCode)
  deriving DecidableEq, Repr

/-- Whose turn it is next and what it presents (notes/assumptions/5.md). -/
inductive Turn where
  /-- the core takes the step that STATUS.STATE selects -/
  | core
  /-- a host register access -/
  | host (a : HostAccess)
  /-- a host write to CTRL, seen as a command word -/
  | command (data : Word)
  /-- a datapath unit runs on its own, selected by the latched FORMAT word -/
  | datapath (u : DpUnit)
  /-- the demosaic unit runs on its own on pixel (x, y), selected by the pixel's class -/
  | pixel (x y : Nat)
  /-- the platform asserts reset -/
  | reset
  /-- the host or another bus agent reads one byte of bus memory -/
  | busRead (addr : Nat)
  /-- the host or another bus agent writes one byte of bus memory -/
  | busWrite (addr : Nat) (v : Byte)
  deriving DecidableEq, Repr

/-- The results of the datapath operation run last on its own (notes/assumptions/6.md): the names are
the rules' (`u`, `u'`, the mosaic colour, (R, G, B), RGB8, (Y, Cb, Cr), pair chroma, Y', OUT(y)). -/
structure Datapath where
  u : List Sample
  u' : List Sample
  color : Color
  rgb : Rgb16
  rgb8 : Rgb8
  ycc : Ycc
  chroma : Chroma
  luma : Byte
  row : List Byte
  deriving DecidableEq, Repr

/-- Data by number in one canonical form: numbers strictly rising. -/
abbrev Table (α : Type) := List (Nat × α)

/-- Bus memory: the bytes that something has written, by address, addresses strictly rising, none equal to
what an unlisted address holds (`State.unlistedByte`; notes/assumptions/7.md). -/
abbrev Memory := List Host.Cell

/-- A range of bus addresses that the platform does not map to plain memory: which accesses it answers
(20_memory.md R68; 70_reset_and_hazards.md R253, duty H2). -/
structure MemRegion where
  base : Nat
  size : Nat
  readable : Bool
  writable : Bool
  deriving DecidableEq, Repr

/-- A range of bus addresses whose contents a reset has left unspecified (70_reset_and_hazards.md R250), and
which unspecified contents they are. -/
structure Renewal where
  base : Nat
  size : Nat
  gen : Nat
  deriving DecidableEq, Repr

/-- The machine's state. -/
structure State where
  /-- the configuration registers -/
  regs : CfgRegs
  /-- EST_BYTES -/
  estBytes : Word
  /-- OUT_SIZE -/
  outSize : Word
  /-- PROGRESS -/
  progress : Word
  /-- ERR_CODE.CODE -/
  errCode : ErrCode
  /-- ERR_INFO.OP -/
  errOp : EncOp
  /-- ERR_INFO.STATE -/
  errState : Fsm
  /-- STATUS.STATE -/
  fsm : Fsm
  /-- STATUS.DONE -/
  done : Bool
  /-- STATUS.ERR -/
  err : Bool
  /-- STATUS.REJ -/
  rej : Bool
  /-- the latched configuration -/
  cfg : CfgRegs
  mode : Mode
  op : EncOp
  skipLeft : Word
  n : Nat
  c : Nat
  rlist : List Nat
  ri : Nat
  /-- the raw chunk buffer, by image row -/
  raw : Table (List Byte)
  /-- the unpacked strip buffer (window), by image row -/
  win : Table (List Sample)
  /-- the output strip buffer, row 0 first -/
  strip : List (List Byte)
  carry : Option (List Sample)
  look : Option (List Sample)
  inPos : Word
  outPos : Word
  ovf : Bool
  /-- whether `EngineBegin` has returned ok in the current encode (10_state.md R35) -/
  engineOpen : Bool
  /-- bus memory -/
  mem : Memory
  /-- the address ranges where the platform maps no memory, or memory that answers only reads or only
  writes -/
  regions : List MemRegion
  /-- the address ranges that resets have left unspecified, newest first -/
  renewed : List Renewal
  /-- the input source's answers to come, oldest first -/
  source : List (List Byte)
  /-- the output sink's counts to come, oldest first -/
  sink : List Nat
  /-- the engine's answers to come, oldest first -/
  engine : List EngineAnswer
  /-- the event history, oldest first -/
  events : List Event
  /-- the turns to come, next first -/
  turns : List Turn
  /-- the word the last host read returned -/
  hostData : Word
  dp : Datapath
  /-- which unspecified contents the unwritten buffer elements have -/
  stale : Nat
  deriving DecidableEq, Repr

/-- Why the machine gives no further step: a duty of another agent is broken (70_reset_and_hazards.md
R253: a model gives such a launch no step). All are safe: the model claims nothing about the rest. -/
inductive Fault where
  /-- raised by a bus access to an address where no memory answers it: at or above 2^32, or in a region
  that the platform does not map for it. For the core's access duty H2 and 20_memory.md R68 say so; for
  another bus agent's own it is the model's choice (notes/assumptions/34.md). Safe. -/
  | busNoAnswer (addr : Nat)
  /-- raised by STEP_PREFLIGHT for three ranges that are not disjoint (duty H2). Safe. -/
  | rangesOverlap
  /-- raised by STEP_PREFLIGHT for a range that is not wholly mapped to readable (input) or writable
  (output, OUT_SIZE word) memory (duty H2; 20_memory.md R68). Safe. -/
  | rangeNotMapped
  /-- raised by a bus agent that touches a range in use (duty H1; 20_memory.md R63). Safe. -/
  | rangeInUse (addr : Nat)
  /-- raised by an input request answered with more bytes than asked (duty H3). Safe. -/
  | sourceOverrun
  /-- raised by an output write answered with a count above its length (duty H4). Safe. -/
  | sinkOverrun
  /-- raised by STEP_BEGIN when a failed `EngineBegin` emitted output (duty H5). Safe. -/
  | engineEarlyOutput
  deriving DecidableEq, Repr

/-- Why the machine does not run what it is presented. -/
inductive Refusal where
  /-- raised by `exec` for an instruction that has no meaning yet. Safe. -/
  | notModelled (mnemonic : String)
  /-- raised by HOST_READ and HOST_WRITE at an offset that is no multiple of 4 (20_memory.md R55).
  Safe. -/
  | malformedHostAccess
  /-- raised by `step` for what the decoder rejects. Safe. -/
  | rejected (r : Reject)
  deriving DecidableEq, Repr

/-- The outcome of a step of this machine. -/
abbrev Result := Host.Outcome State Fault Refusal

/-- The registers' reset values (10_state.md R23). -/
def CfgRegs.reset : CfgRegs where
  width := 0#32
  height := 0#32
  format := 0#32
  quality := 0#32
  skipLines := 0#32
  blackLevel := 0#32
  wbR := 0x00000100#32
  wbG := 0x00000100#32
  wbB := 0x00000100#32
  memLimit := 0xFFFFFFFF#32
  inAddr := 0#32
  inLen := 0#32
  outAddr := 0#32
  outCap := 0#32
  outSizeAddr := 0#32

/-- The datapath results before any operation has run (notes/assumptions/18.md). -/
def Datapath.reset : Datapath where
  u := []
  u' := []
  color := .red
  rgb := ⟨0#16, 0#16, 0#16⟩
  rgb8 := ⟨0#8, 0#8, 0#8⟩
  ycc := ⟨0#8, 0#8, 0#8⟩
  chroma := ⟨0#8, 0#8⟩
  luma := 0#8
  row := []

/-- The machine right after reset (10_state.md R36; 70_reset_and_hazards.md R250). No agent has
anything pending and nothing has written bus memory. -/
def State.reset : State where
  regs := CfgRegs.reset
  estBytes := 0#32
  outSize := 0#32
  progress := 0#32
  errCode := .none
  errOp := .none
  errState := .idle
  fsm := .idle
  done := false
  err := false
  rej := false
  cfg := CfgRegs.reset
  mode := .stream
  op := .none
  skipLeft := 0#32
  n := 0
  c := 0
  rlist := []
  ri := 0
  raw := []
  win := []
  strip := []
  carry := none
  look := none
  inPos := 0#32
  outPos := 0#32
  ovf := false
  engineOpen := false
  mem := []
  regions := []
  renewed := []
  source := []
  sink := []
  engine := []
  events := []
  turns := []
  hostData := 0#32
  dp := Datapath.reset
  stale := 0

end Sys2Proof.Machine
end

