-- ==== Sys2Proof/Machine/Flags.lean ====
section
/-! DEFINITION. The status flags and the words they are read in: STATUS, ERR_CODE and ERR_INFO
(10_state.md R23, R25, R26; 60_exceptions.md R220). -/

namespace Sys2Proof.Machine

/-- The state codes of 10_state.md R25. -/
def Fsm.code : Fsm → BitVec 4
  | .idle => 0#4
  | .preflight => 1#4
  | .skip => 2#4
  | .begin => 3#4
  | .await => 4#4
  | .reading => 5#4
  | .unpacking => 6#4
  | .demosaic => 7#4
  | .emitting => 8#4
  | .finish => 9#4
  | .done => 10#4
  | .error => 11#4

/-- The state of a code, none for 12..15 (10_state.md R25). -/
def Fsm.ofCode (code : BitVec 4) : Option Fsm :=
  match code with
  | 0#4 => some .idle
  | 1#4 => some .preflight
  | 2#4 => some .skip
  | 3#4 => some .begin
  | 4#4 => some .await
  | 5#4 => some .reading
  | 6#4 => some .unpacking
  | 7#4 => some .demosaic
  | 8#4 => some .emitting
  | 9#4 => some .finish
  | 10#4 => some .done
  | 11#4 => some .error
  | _ => none

/-- The last column of 10_state.md R25. -/
def Fsm.busy : Fsm → Bool
  | .idle | .done | .error => false
  | .preflight | .skip | .begin | .await | .reading | .unpacking | .demosaic | .emitting | .finish =>
    true

/-- STATUS.BUSY, a function of STATE (10_state.md R25, R26). -/
def State.busy (s : State) : Bool := s.fsm.busy

/-- The codes of `op` (10_state.md R27; 30_encoding.md R83). -/
def EncOp.code : EncOp → BitVec 4
  | .none => 0#4
  | .encodeStream => 1#4
  | .encodeBuffer => 2#4

/-- The error numbers of 60_exceptions.md R220. -/
def ErrCode.code : ErrCode → BitVec 8
  | .none => 0#8
  | .invalidArguments => 1#8
  | .invalidDimensions => 2#8
  | .invalidStride => 3#8
  | .memoryCeiling => 4#8
  | .skipEndOfInput => 5#8
  | .engineInit => 6#8
  | .allocRaw => 7#8
  | .allocUnpack => 8#8
  | .allocOut => 9#8
  | .allocCarry => 10#8
  | .allocLook => 11#8
  | .outputOverflow => 12#8
  | .nullOutSize => 13#8
  | .nullInput => 14#8
  | .nullOutput => 15#8
  | .zeroCapacity => 16#8

/-- A flag at a bit position of a 32-bit word. -/
def flagBit (b : Bool) (pos : Nat) : Word := if b then 1#32 <<< pos else 0#32

/-- STATUS: [0] BUSY, [1] DONE, [2] ERR, [3] REJ, [11:8] STATE (10_state.md R23). -/
def State.statusWord (s : State) : Word :=
  flagBit s.busy 0 ||| flagBit s.done 1 ||| flagBit s.err 2 ||| flagBit s.rej 3
    ||| (s.fsm.code.zeroExtend 32 <<< 8)

/-- ERR_CODE: [7:0] CODE (10_state.md R23). -/
def State.errCodeWord (s : State) : Word := s.errCode.code.zeroExtend 32

/-- ERR_INFO: [3:0] OP, [11:8] STATE (10_state.md R23). -/
def State.errInfoWord (s : State) : Word :=
  s.errOp.code.zeroExtend 32 ||| (s.errState.code.zeroExtend 32 <<< 8)

/-- The flags when a command is accepted: DONE, ERR and REJ cleared (10_state.md R26). -/
def State.clearFlags (s : State) : State := { s with done := false, err := false, rej := false }

/-- A rejected CTRL write sets REJ and changes nothing else (44_orchestrator.md R171). -/
def State.reject (s : State) : State := { s with rej := true }

/-- A command completes without error: DONE set, state DONE (10_state.md R26). -/
def State.complete (s : State) : State := { s with done := true, fsm := .done }

end Sys2Proof.Machine
end

