-- ==== Sys2Proof/Machine/Operands.lean ====
section
/-! DEFINITION. What the rules read as operands: numbers (00_scope.md R7, R8), the fields of a
configuration (10_state.md R23; 30_encoding.md R77), the quantities derived from it (10_state.md R32,
R33; 40_unpack.md R100, R101; 42_demosaic.md R140, R141), and the workspace rows (10_state.md R27,
R31). -/

namespace Sys2Proof.Machine

/-! ## Numbers -/

/-- `ceil_div(a, b)` for b > 0 (00_scope.md R7); 0 for b = 0 (notes/assumptions/12.md). -/
def ceilDiv (a b : Nat) : Nat := (a + b - 1) / b

/-- `clamp8(v)` (00_scope.md R7). -/
def clamp8 (v : Int) : Byte := BitVec.ofNat 8 (max 0 (min 255 v)).toNat

/-- `LE(b0, b1)` (00_scope.md R8; 20_memory.md R54). -/
def le16 (b0 b1 : Byte) : Sample := b0.zeroExtend 16 ||| (b1.zeroExtend 16 <<< 8)

/-- The four bytes of a word, least significant first (20_memory.md R54). -/
def leBytes (v : Word) : List Byte :=
  [v.extractLsb' 0 8, v.extractLsb' 8 8, v.extractLsb' 16 8, v.extractLsb' 24 8]

/-! ## Data by number -/

/-- The entry at a number. -/
def Table.get {α : Type} (k : Nat) : Table α → Option α
  | [] => none
  | (a, v) :: rest => if a = k then some v else Table.get k rest

/-- The data with the entry at a number set, numbers kept rising. -/
def Table.put {α : Type} (k : Nat) (v : α) : Table α → Table α
  | [] => [(k, v)]
  | (a, w) :: rest =>
    if k < a then (k, v) :: (a, w) :: rest
    else if k = a then (k, v) :: rest
    else (a, w) :: Table.put k v rest

/-- The canonical form: numbers strictly rising. -/
def Table.sorted {α : Type} : Table α → Bool
  | [] => true
  | [_] => true
  | (a, _) :: (b, w) :: rest => decide (a < b) && Table.sorted ((b, w) :: rest)

/-! ## Configuration fields (10_state.md R23; 30_encoding.md R72-R77) -/

/-- WIDTH.W (R23). -/
def CfgRegs.w (cfg : CfgRegs) : Nat := cfg.width.toNat
/-- HEIGHT.H (R23). -/
def CfgRegs.h (cfg : CfgRegs) : Nat := cfg.height.toNat
/-- FORMAT.PIXFMT (30_encoding.md R72). -/
def CfgRegs.pixfmt (cfg : CfgRegs) : BitVec 3 := pixfmtField cfg.format
/-- FORMAT.PATTERN (30_encoding.md R73). -/
def CfgRegs.pattern (cfg : CfgRegs) : BitVec 2 := patternField cfg.format
/-- FORMAT.SUBSAMP (30_encoding.md R74). -/
def CfgRegs.subsamp (cfg : CfgRegs) : BitVec 2 := subsampField cfg.format
/-- FORMAT.FAST_EN, WB_EN, BL_EN (30_encoding.md R75). -/
def CfgRegs.fastEn (cfg : CfgRegs) : Bool := fastField cfg.format
def CfgRegs.wbEn (cfg : CfgRegs) : Bool := wbEnField cfg.format
def CfgRegs.blEn (cfg : CfgRegs) : Bool := blEnField cfg.format
/-- QUALITY.Q (R23). -/
def CfgRegs.q (cfg : CfgRegs) : BitVec 8 := cfg.quality.extractLsb' 0 8
/-- BLACK_LEVEL.BL (R23). -/
def CfgRegs.bl (cfg : CfgRegs) : BitVec 16 := cfg.blackLevel.extractLsb' 0 16

/-- GAIN, bits [15:0] of a gain register (30_encoding.md R76). -/
def gainField (reg : Word) : BitVec 16 := reg.extractLsb' 0 16

/-- OVR, bit 31 of a gain register (30_encoding.md R76). -/
def ovrField (reg : Word) : Bool := reg.getLsbD 31

/-! ## Derived quantities -/

/-- The parameter P_MCU (10_state.md R32) [from general knowledge, not in source: the spec's decision
D28]. -/
def geometryOf (sub : BitVec 2) : Geometry :=
  match sub with
  | 0#2 => ⟨8, 8, 3, 0⟩
  | 1#2 => ⟨16, 8, 2, 1⟩
  | 2#2 => ⟨16, 16, 2, 2⟩
  | _ => Config.reservedGeometry

/-- The row stride (40_unpack.md R100). -/
def strideOf (pixfmt : BitVec 3) (width : Word) : Nat :=
  match pixfmt with
  | 0#3 => width.toNat
  | 1#3 => 5 * ceilDiv width.toNat 4
  | 2#3 => 3 * ceilDiv width.toNat 2
  | 3#3 | 4#3 | 5#3 => 2 * width.toNat
  | code => Config.reservedStride width code

/-- The bit depth N (40_unpack.md R101). -/
def depthOf (pixfmt : BitVec 3) : Nat :=
  match pixfmt with
  | 0#3 => 8
  | 1#3 => 10
  | 2#3 => 12
  | 3#3 => 10
  | 4#3 => 12
  | 5#3 => 16
  | code => Config.reservedDepth code

/-- The block geometry of SUBSAMP (10_state.md R32). -/
def CfgRegs.geometry (cfg : CfgRegs) : Geometry := geometryOf cfg.subsamp
/-- MW, BH, BPP (10_state.md R32). -/
def CfgRegs.mw (cfg : CfgRegs) : Nat := cfg.geometry.mw
def CfgRegs.bh (cfg : CfgRegs) : Nat := cfg.geometry.bh
def CfgRegs.bpp (cfg : CfgRegs) : Nat := cfg.geometry.bpp
/-- The LAYOUT code given to `EngineBegin` (10_state.md R32; 30_encoding.md R83), a free value for SUBSAMP 3
(notes/assumptions/12.md). -/
def CfgRegs.layout (cfg : CfgRegs) : Nat := cfg.geometry.layout
/-- N and stride (10_state.md R33). -/
def CfgRegs.depth (cfg : CfgRegs) : Nat := depthOf cfg.pixfmt
def CfgRegs.stride (cfg : CfgRegs) : Nat := strideOf cfg.pixfmt cfg.width
/-- Wpad, NBC, NBR, pitch, y0(n), y1(n) (10_state.md R33). -/
def CfgRegs.wpad (cfg : CfgRegs) : Nat := ceilDiv cfg.w cfg.mw * cfg.mw
def CfgRegs.nbc (cfg : CfgRegs) : Nat := cfg.wpad / cfg.mw
def CfgRegs.nbr (cfg : CfgRegs) : Nat := ceilDiv cfg.h cfg.bh
def CfgRegs.pitch (cfg : CfgRegs) : Nat := cfg.wpad * cfg.bpp
def CfgRegs.y0 (cfg : CfgRegs) (n : Nat) : Nat := n * cfg.bh
def CfgRegs.y1 (cfg : CfgRegs) (n : Nat) : Nat := min (cfg.y0 n + cfg.bh) cfg.h

/-- The three gains (42_demosaic.md R140). -/
def CfgRegs.gains (cfg : CfgRegs) : Gains :=
  if cfg.wbEn then
    ⟨if ovrField cfg.wbR then gainField cfg.wbR else Config.wbDefault.r,
     if ovrField cfg.wbG then gainField cfg.wbG else Config.wbDefault.g,
     if ovrField cfg.wbB then gainField cfg.wbB else Config.wbDefault.b⟩
  else ⟨256#16, 256#16, 256#16⟩

/-! Required buffer sizes (44_orchestrator.md R174). -/

def CfgRegs.rawSize (cfg : CfgRegs) : Nat := (cfg.bh + 1) * cfg.stride
def CfgRegs.unpackSize (cfg : CfgRegs) : Nat := (cfg.bh + 2) * cfg.w * 2
def CfgRegs.outBufSize (cfg : CfgRegs) : Nat := cfg.bh * cfg.wpad * cfg.bpp
def CfgRegs.carrySize (cfg : CfgRegs) : Nat := cfg.w * 2
def CfgRegs.lookSize (cfg : CfgRegs) : Nat := cfg.w * 2

/-- `EST(cfg)` (44_orchestrator.md R175). -/
def CfgRegs.est (cfg : CfgRegs) : Nat :=
  min (2 ^ 32 - 1) (cfg.rawSize + cfg.unpackSize + cfg.outBufSize + cfg.carrySize + cfg.lookSize)

/-- The stride is valid (40_unpack.md R100). -/
def CfgRegs.strideValid (cfg : CfgRegs) : Bool := decide (1 ≤ cfg.stride ∧ cfg.stride ≤ 2 ^ 31 - 1)

/-- The fields of PIXFMT, SUBSAMP and QUALITY are in range (44_orchestrator.md R172, R173). -/
def CfgRegs.codesValid (cfg : CfgRegs) : Bool :=
  decide (cfg.pixfmt.toNat ≤ 5 ∧ cfg.subsamp.toNat ≤ 2 ∧ cfg.q.toNat ≤ 100)

/-- `valid` of 44_orchestrator.md R172. -/
def CfgRegs.estimable (cfg : CfgRegs) : Bool :=
  cfg.codesValid && decide (1 ≤ cfg.w) && decide (1 ≤ cfg.h) && cfg.strideValid

/-- `ranges_ok(cfg)` (44_orchestrator.md R177). -/
def CfgRegs.rangesOk (cfg : CfgRegs) : Bool :=
  decide (cfg.inAddr.toNat + cfg.inLen.toNat ≤ 2 ^ 32 ∧ cfg.outAddr.toNat + cfg.outCap.toNat ≤ 2 ^ 32
    ∧ cfg.outSizeAddr.toNat + 4 ≤ 2 ^ 32)

/-- The address is in the input range (20_memory.md R51). -/
def CfgRegs.inInput (cfg : CfgRegs) (a : Nat) : Bool :=
  decide (cfg.inAddr.toNat ≤ a ∧ a < cfg.inAddr.toNat + cfg.inLen.toNat)

/-- The address is in the output range (20_memory.md R51). -/
def CfgRegs.inOutput (cfg : CfgRegs) (a : Nat) : Bool :=
  decide (cfg.outAddr.toNat ≤ a ∧ a < cfg.outAddr.toNat + cfg.outCap.toNat)

/-- The address is in the OUT_SIZE word (20_memory.md R51). -/
def CfgRegs.inOutSize (cfg : CfgRegs) (a : Nat) : Bool :=
  decide (cfg.outSizeAddr.toNat ≤ a ∧ a < cfg.outSizeAddr.toNat + 4)

/-- Two ranges of addresses, base and size, have no address in common. -/
def disjoint (a m b k : Nat) : Bool := decide (m = 0 ∨ k = 0 ∨ a + m ≤ b ∨ b + k ≤ a)

/-- The three buffer-mode ranges are disjoint (70_reset_and_hazards.md R253, duty H2). -/
def CfgRegs.rangesDisjoint (cfg : CfgRegs) : Bool :=
  disjoint cfg.inAddr.toNat cfg.inLen.toNat cfg.outAddr.toNat cfg.outCap.toNat
    && disjoint cfg.inAddr.toNat cfg.inLen.toNat cfg.outSizeAddr.toNat 4
    && disjoint cfg.outAddr.toNat cfg.outCap.toNat cfg.outSizeAddr.toNat 4

/-! ## Workspace rows. What nothing has written is a free value (10_state.md R31). -/

/-- The raw row `raw[r]`. -/
def State.rawRow (s : State) (r : Nat) : List Byte :=
  match Table.get r s.raw with
  | some row => row
  | none => (List.range s.cfg.stride).map (Config.staleRaw s.stale r)

/-- Byte `i` of a raw row handed to an UNPACK operation; a byte the row does not have is free. -/
def rowByte (stale : Nat) (b : List Byte) (i : Nat) : Byte :=
  match b[i]? with
  | some v => v
  | none => Config.staleRaw stale b.length i

/-- The sample `win[r][x]`. An operation run alone before the current encode's first AWAIT finds the rows
that an earlier encode left, as they stand (DESIGN CHOICE, notes/assumptions/33.md); no core step reads one
(10_state.md R31). -/
def State.winSample (s : State) (r x : Nat) : Sample :=
  match Table.get r s.win with
  | some row =>
    match row[x]? with
    | some v => v
    | none => Config.staleWin s.stale r x
  | none => Config.staleWin s.stale r x

/-- The window row `win[r]`, W samples. -/
def State.winRow (s : State) (r : Nat) : List Sample := (List.range s.cfg.w).map (s.winSample r)

/-- The strip row `strip[i]`. -/
def State.stripRow (s : State) (i : Nat) : List Byte :=
  match s.strip[i]? with
  | some row => row
  | none => (List.range s.cfg.pitch).map (Config.staleStrip s.stale i)

end Sys2Proof.Machine
end

