-- ==== Sys2Proof/Machine/Ops.lean ====
section
/-! DEFINITION. The operations that several instructions share: bus memory (20_memory.md R52-R56), the
ports and their adapters (R57-R61), the error entry (60_exceptions.md R222), the acceptance of an
encode (44_orchestrator.md R170), the host register file (10_state.md R23), and reset
(70_reset_and_hazards.md R250). -/

namespace Sys2Proof.Machine

/-! ## Waiting

A request to another agent is answered, is not answered yet, or is answered against a duty. -/

/-- What comes of an interaction with another agent. -/
inductive Io (α : Type) where
  /-- the agent has answered -/
  | done (a : α)
  /-- the agent has not answered: the core stays in its state (60_exceptions.md R231) -/
  | wait
  /-- a duty is broken (70_reset_and_hazards.md R253) -/
  | fault (f : Fault)
  deriving Repr

/-- Continues with an answer. -/
def Io.bind {α β : Type} (x : Io α) (k : α → Io β) : Io β :=
  match x with
  | .done a => k a
  | .wait => .wait
  | .fault f => .fault f

/-- The outcome of a step whose interactions came to `x`: while one is unanswered, nothing changes
(70_reset_and_hazards.md R256). -/
def Io.outcome (s : State) (x : Io State) : Result :=
  match x with
  | .done s' => .next s'
  | .wait => .next s
  | .fault f => .fault f

/-! ## Bus memory

The register window at P_BASE is not carved out of it: the spec does not say what a bus access to an
address of the window reaches, and here it reaches plain memory (DESIGN CHOICE, notes/assumptions/32.md). -/

/-- The address lies in the region. -/
def MemRegion.covers (r : MemRegion) (a : Nat) : Bool := decide (r.base ≤ a ∧ a < r.base + r.size)

/-- The platform maps memory at the address for the accesses that `ok` names: below 2^32 and in no region
without them (20_memory.md R52, R68; an address of the register window is as any other,
notes/assumptions/32.md). -/
def answersAt (ok : MemRegion → Bool) (regions : List MemRegion) (a : Nat) : Bool :=
  decide (a < 2 ^ 32) && regions.all fun r => ok r || !r.covers a

/-- A range of addresses meets no region without the accesses that `ok` names. -/
def rangeAnswers (ok : MemRegion → Bool) (regions : List MemRegion) (base size : Nat) : Bool :=
  regions.all fun r => ok r || disjoint base size r.base r.size

/-- A read of the address is answered. -/
def State.readable (s : State) (a : Nat) : Bool := answersAt MemRegion.readable s.regions a

/-- A write to the address is answered. -/
def State.writable (s : State) (a : Nat) : Bool := answersAt MemRegion.writable s.regions a

/-- The input range is mapped to readable memory, the output range and the OUT_SIZE word to writable memory
(70_reset_and_hazards.md R253, duty H2; 20_memory.md R68). -/
def State.rangesMapped (s : State) : Bool :=
  rangeAnswers MemRegion.readable s.regions s.cfg.inAddr.toNat s.cfg.inLen.toNat
    && rangeAnswers MemRegion.writable s.regions s.cfg.outAddr.toNat s.cfg.outCap.toNat
    && rangeAnswers MemRegion.writable s.regions s.cfg.outSizeAddr.toNat 4

/-- Which unspecified contents an address that nothing has written since holds: those of the newest range
that covers it, 0 for power-on. -/
def generationAt : List Renewal → Nat → Nat
  | [], _ => 0
  | r :: rest, a => if r.base ≤ a ∧ a < r.base + r.size then r.gen else generationAt rest a

/-- What an unlisted address holds: a free value (20_memory.md R52; 70_reset_and_hazards.md R250). -/
def State.unlistedByte (s : State) (a : Nat) : Byte := Config.memByte (generationAt s.renewed a) a

/-- What a memory holds at an address: the byte listed there, else what the address holds unlisted. -/
def Memory.byteAt (unlisted : Nat → Byte) (m : Memory) (a : Nat) : Byte :=
  match Table.get a m with
  | some v => v
  | none => unlisted a

/-- What bus memory holds at an address, whoever may access it. -/
def State.byteAt (s : State) (a : Nat) : Byte := Memory.byteAt s.unlistedByte s.mem a

/-- What a read of one byte of bus memory gives, none where no memory answers it. -/
def State.readByte (s : State) (a : Nat) : Option Byte :=
  if s.readable a then some (s.byteAt a) else none

/-- The bytes `a .. a + n - 1` in address order, or the first address that does not answer
(20_memory.md R56: any alignment, byte by byte). -/
def State.readBytes (s : State) (a : Nat) : Nat → Except Nat (List Byte)
  | 0 => .ok []
  | n + 1 =>
    match s.readByte a with
    | none => .error a
    | some v =>
      match State.readBytes s (a + 1) n with
      | .error e => .error e
      | .ok vs => .ok (v :: vs)

/-- The memory with one byte stored, its canonical form kept: what an unlisted address holds anyway is not
listed. -/
def Memory.store (unlisted : Nat → Byte) (a : Nat) (v : Byte) (m : Memory) : Memory :=
  if v = unlisted a then m.filter fun c => decide (c.1 ≠ a) else Table.put a v m

/-- The memory with bytes stored from an address on, or the first address that does not answer. -/
def storeBytes (writable : Nat → Bool) (unlisted : Nat → Byte) (a : Nat) (m : Memory) :
    List Byte → Except Nat Memory
  | [] => .ok m
  | v :: vs =>
    if writable a then storeBytes writable unlisted (a + 1) (Memory.store unlisted a v m) vs else .error a

/-- The canonical form of bus memory: addresses strictly rising, no entry equal to what its address holds
unlisted. -/
def Memory.wf (unlisted : Nat → Byte) (m : Memory) : Bool :=
  Table.sorted m && m.all fun c => decide (c.2 ≠ unlisted c.1)

/-! ## Ports -/

/-- The event is recorded (00_scope.md R10). -/
def State.log (e : Event) (s : State) : State := { s with events := s.events ++ [e] }

/-- `MemWrite(addr, n, v)` of at least one byte (20_memory.md R56). -/
def State.memWrite (a : Nat) (bytes : List Byte) (s : State) : Io State :=
  match storeBytes s.writable s.unlistedByte a s.mem bytes with
  | .error e => .fault (.busNoAnswer e)
  | .ok m => .done (State.log (.memWrite a bytes) { s with mem := m })

/-- `StreamRead(n)` in stream mode: one request, answered by the source with at most n bytes
(20_memory.md R57). -/
def State.streamReadPort (n : Nat) (s : State) : Io (List Byte × State) :=
  match s.source with
  | [] => .wait
  | b :: rest =>
    if b.length ≤ n then .done (b, State.log (.streamRead n b) { s with source := rest })
    else .fault .sourceOverrun

/-- The input adapter of buffer mode (20_memory.md R58): the request, then its access. -/
def State.streamReadBuffer (n : Nat) (s : State) : Io (List Byte × State) :=
  let k := min n (s.cfg.inLen.toNat - s.inPos.toNat)
  if k = 0 then .done ([], s.log (.streamRead n []))
  else
    match s.readBytes (s.cfg.inAddr.toNat + s.inPos.toNat) k with
    | .error e => .fault (.busNoAnswer e)
    | .ok bytes =>
      .done (bytes, State.log (.memRead (s.cfg.inAddr.toNat + s.inPos.toNat) bytes)
        (State.log (.streamRead n bytes) { s with inPos := BitVec.ofNat 32 (s.inPos.toNat + k) }))

/-- `StreamRead(n)` (00_scope.md R10). -/
def State.streamRead (n : Nat) (s : State) : Io (List Byte × State) :=
  match s.mode with
  | .stream => s.streamReadPort n
  | .buffer => s.streamReadBuffer n

/-- `OutWrite(b)` in stream mode: forwarded to the sink, whose count goes back to the engine
(20_memory.md R60). -/
def State.outWritePort (b : List Byte) (s : State) : Io State :=
  match s.sink with
  | [] => .wait
  | k :: rest =>
    if k ≤ b.length then .done (State.log (.outWrite b k) { s with sink := rest })
    else .fault .sinkOverrun

/-- The output adapter of buffer mode (20_memory.md R59): the request with the count, then its access. -/
def State.outWriteBuffer (b : List Byte) (s : State) : Io State :=
  let k := min b.length (s.cfg.outCap.toNat - s.outPos.toNat)
  let s1 := State.log (.outWrite b k)
    { s with outPos := BitVec.ofNat 32 (s.outPos.toNat + k), ovf := s.ovf || decide (k < b.length) }
  if k = 0 then .done s1
  else s1.memWrite (s.cfg.outAddr.toNat + s.outPos.toNat) (b.take k)

/-- `OutWrite(b)` (00_scope.md R10; 44_orchestrator.md R192). -/
def State.outWrite (b : List Byte) (s : State) : Io State :=
  match s.mode with
  | .stream => s.outWritePort b
  | .buffer => s.outWriteBuffer b

/-- The output writes of one engine call, answered in order (44_orchestrator.md R192). -/
def State.outWrites : List (List Byte) → State → Io State
  | [], s => .done s
  | b :: bs, s => (s.outWrite b).bind (State.outWrites bs)

/-- One engine call: the engine's answer, the event, and the output it emits before it returns
(20_memory.md R61; 44_orchestrator.md R192). The call's event, with its answer, stands in the history before
the events of its output (DESIGN CHOICE, notes/assumptions/4.md). -/
def State.engineCall (event : Bool → Event) (s : State) : Io (Bool × State) :=
  match s.engine with
  | [] => .wait
  | a :: rest =>
    (State.outWrites a.writes (State.log (event a.ok) { s with engine := rest })).bind fun s' =>
      .done (a.ok, s')

/-! ## The error entry -/

/-- `raise Err(code)` (60_exceptions.md R222), recorded as an event (00_scope.md R10). -/
def State.raiseErr (code : ErrCode) (s : State) : State :=
  State.log (.raised code)
    { s with errCode := code, errOp := s.op, errState := s.fsm, err := true, fsm := .error }

/-! ## Acceptance of a command -/

/-- The acceptance of an encode (44_orchestrator.md R170); no `EngineBegin` has returned in it yet
(10_state.md R35). -/
def State.acceptEncode (m : Mode) (o : EncOp) (s : State) : State :=
  { s.clearFlags with
    cfg := s.regs, mode := m, op := o, carry := none, look := none, n := 0, c := 0,
    inPos := 0#32, outPos := 0#32, ovf := false, progress := 0#32, engineOpen := false,
    fsm := .preflight }

/-! ## The host register file (10_state.md R23) -/

/-- The byte address of the register at an offset (20_memory.md R50, R51). -/
def regAddress (offset : BitVec 8) : Word := (Config.baseWord.zeroExtend 32 <<< 2) + offset.zeroExtend 32

/-- What a host read of the register at an offset returns. -/
def State.readReg (s : State) (offset : BitVec 8) : Word :=
  match offset with
  | 0x04#8 => s.statusWord
  | 0x08#8 => s.errCodeWord
  | 0x0C#8 => s.errInfoWord
  | 0x10#8 => s.regs.width
  | 0x14#8 => s.regs.height
  | 0x18#8 => s.regs.format
  | 0x1C#8 => s.regs.quality
  | 0x20#8 => s.regs.skipLines
  | 0x24#8 => s.regs.blackLevel
  | 0x28#8 => s.regs.wbR
  | 0x2C#8 => s.regs.wbG
  | 0x30#8 => s.regs.wbB
  | 0x34#8 => s.regs.memLimit
  | 0x38#8 => s.estBytes
  | 0x3C#8 => s.regs.inAddr
  | 0x40#8 => s.regs.inLen
  | 0x44#8 => s.regs.outAddr
  | 0x48#8 => s.regs.outCap
  | 0x4C#8 => s.regs.outSizeAddr
  | 0x50#8 => s.outSize
  | 0x54#8 => s.progress
  | _ => 0#32

/-- Byte `i` of a register seen as four bytes at P_BASE + offset (20_memory.md R54). -/
def State.regByte (s : State) (offset : BitVec 8) (i : Nat) : Byte :=
  (s.readReg offset).extractLsb' (8 * i) 8

/-- The bits of FORMAT that are fields (10_state.md R23). -/
def formatMask : Word := 0x00070337#32

/-- The bits of QUALITY that are fields. -/
def qualityMask : Word := 0x000000FF#32

/-- The bits of BLACK_LEVEL that are fields. -/
def blackLevelMask : Word := 0x0000FFFF#32

/-- The bits of WB_R, WB_G and WB_B that are fields. -/
def gainMask : Word := 0x8000FFFF#32

/-- The configuration registers after a host write: a writable register takes the written bits of its
fields, any other offset is ignored (10_state.md R23; 30_encoding.md R77). -/
def CfgRegs.write (r : CfgRegs) (offset : BitVec 8) (v : Word) : CfgRegs :=
  match offset with
  | 0x10#8 => { r with width := v }
  | 0x14#8 => { r with height := v }
  | 0x18#8 => { r with format := v &&& formatMask }
  | 0x1C#8 => { r with quality := v &&& qualityMask }
  | 0x20#8 => { r with skipLines := v }
  | 0x24#8 => { r with blackLevel := v &&& blackLevelMask }
  | 0x28#8 => { r with wbR := v &&& gainMask }
  | 0x2C#8 => { r with wbG := v &&& gainMask }
  | 0x30#8 => { r with wbB := v &&& gainMask }
  | 0x34#8 => { r with memLimit := v }
  | 0x3C#8 => { r with inAddr := v }
  | 0x40#8 => { r with inLen := v }
  | 0x44#8 => { r with outAddr := v }
  | 0x48#8 => { r with outCap := v }
  | 0x4C#8 => { r with outSizeAddr := v }
  | _ => r

/-- The reserved bits of a register block are 0 (10_state.md R23). -/
def CfgRegs.reservedZero (r : CfgRegs) : Bool :=
  decide (r.format &&& formatMask = r.format) && decide (r.quality &&& qualityMask = r.quality)
    && decide (r.blackLevel &&& blackLevelMask = r.blackLevel)
    && decide (r.wbR &&& gainMask = r.wbR) && decide (r.wbG &&& gainMask = r.wbG)
    && decide (r.wbB &&& gainMask = r.wbB)

/-! ## Other agents -/

/-- The address is in a range that a buffer-mode encode is using (20_memory.md R51, R63). -/
def State.inUse (s : State) (a : Nat) (write : Bool) : Bool :=
  s.busy && decide (s.mode = .buffer) &&
    (s.cfg.inOutput a || s.cfg.inOutSize a || (write && s.cfg.inInput a))

/-- The host or another bus agent reads a byte of bus memory (20_memory.md R63; at an address of the register
window too, notes/assumptions/32.md). That its access where no memory answers stops the machine, in a
buffer-mode range or not, is a DESIGN CHOICE (notes/assumptions/34.md). -/
def State.busAgentRead (a : Nat) (s : State) : Result :=
  if s.inUse a false then .fault (.rangeInUse a)
  else
    match s.readByte a with
    | none => .fault (.busNoAnswer a)
    | some v => .next { s with hostData := v.zeroExtend 32 }

/-- The host or another bus agent writes a byte of bus memory (20_memory.md R63; at an address of the
register window too, notes/assumptions/32.md). That its access where no memory answers stops the machine, in
a buffer-mode range or not, is a DESIGN CHOICE (notes/assumptions/34.md). -/
def State.busAgentWrite (a : Nat) (v : Byte) (s : State) : Result :=
  if s.inUse a true then .fault (.rangeInUse a)
  else if s.writable a then .next { s with mem := Memory.store s.unlistedByte a v s.mem }
  else .fault (.busNoAnswer a)

/-- A reset now abandons a buffer-mode encode. -/
def State.abandonsBuffer (s : State) : Bool := s.busy && decide (s.mode = .buffer)

/-- The written bytes after reset: what the output range of an abandoned buffer-mode encode holds is
unspecified (70_reset_and_hazards.md R250), so none of its bytes is listed any more. -/
def State.memAfterReset (s : State) : Memory :=
  if s.abandonsBuffer then s.mem.filter fun c => !s.cfg.inOutput c.1 else s.mem

/-- The ranges left unspecified after reset: an abandoned encode's output range joins them. -/
def State.renewedAfterReset (s : State) : List Renewal :=
  if s.abandonsBuffer then ⟨s.cfg.outAddr.toNat, s.cfg.outCap.toNat, s.stale + 1⟩ :: s.renewed
  else s.renewed

/-- Reset asserted by the platform (70_reset_and_hazards.md R250; 10_state.md R36): the core's state
takes its reset values, the other agents, bus memory and the event history go on. -/
def State.assertReset (s : State) : State :=
  { State.reset with
    mem := s.memAfterReset, regions := s.regions, renewed := s.renewedAfterReset, source := s.source,
    sink := s.sink,
    engine := s.engine, events := s.events, turns := s.turns, hostData := s.hostData,
    stale := s.stale + 1 }

end Sys2Proof.Machine
end

