-- ==== Sys2Proof/Machine/Commands.lean ====
section
/-! DEFINITION. The commands: what a host write to CTRL does (44_orchestrator.md R170-R172). -/

namespace Sys2Proof.Machine

/-- NOP: no effect on any state (44_orchestrator.md R171). -/
def execNop (s : State) : Result := .next s

/-- An encode command: accepted while BUSY = 0, otherwise rejected (44_orchestrator.md R170, R171). -/
def startEncode (m : Mode) (o : EncOp) (s : State) : State :=
  if s.busy then s.reject else s.acceptEncode m o

/-- ENCODE_STREAM (44_orchestrator.md R170, R171). -/
def execEncodeStream (s : State) : Result := .next (startEncode .stream .encodeStream s)

/-- ENCODE_BUFFER (44_orchestrator.md R170, R171). -/
def execEncodeBuffer (s : State) : Result := .next (startEncode .buffer .encodeBuffer s)

/-- What ESTIMATE writes to EST_BYTES: EST of the latched configuration, 0 where it is not valid
(44_orchestrator.md R172). -/
def estimateWord (cfg : CfgRegs) : Word := if cfg.estimable then BitVec.ofNat 32 cfg.est else 0#32

/-- ESTIMATE while BUSY = 0 (44_orchestrator.md R172). -/
def State.acceptEstimate (s : State) : State :=
  State.complete { s.clearFlags with cfg := s.regs, estBytes := estimateWord s.regs }

/-- ESTIMATE (44_orchestrator.md R171, R172). -/
def execEstimate (s : State) : Result := .next (if s.busy then s.reject else s.acceptEstimate)

/-- CMD 4..15: rejected, in every state (44_orchestrator.md R171). -/
def execCmdReserved (_code : BitVec 4) (s : State) : Result := .next s.reject

/-- The command that a word written to CTRL presents (30_encoding.md R70; 20_memory.md R50). -/
def presentCommand (data : Word) (s : State) : Result :=
  match cmdField data with
  | 0#4 => execNop s
  | 1#4 => execEncodeStream s
  | 2#4 => execEncodeBuffer s
  | 3#4 => execEstimate s
  | code => execCmdReserved code s

end Sys2Proof.Machine
end

