-- ==== Sys2Proof/Machine/HostBus.lean ====
section
/-! DEFINITION. Host register accesses (20_memory.md R50, R55; 10_state.md R23). -/

namespace Sys2Proof.Machine

/-- An offset the host may access: a multiple of 4 (20_memory.md R50, R55). -/
def aligned (offset : BitVec 8) : Bool := decide (offset.toNat % 4 = 0)

/-- HOST_READ: the host gets the register's word; no register changes (20_memory.md R50). -/
def execHostRead (offset : BitVec 8) (s : State) : Result :=
  if aligned offset then .next { s with hostData := s.readReg offset }
  else .refused .malformedHostAccess

/-- HOST_WRITE: only the register written changes; a write to CTRL presents a command
(20_memory.md R50). -/
def execHostWrite (offset : BitVec 8) (data : Word) (s : State) : Result :=
  if aligned offset then
    if offset = 0x00#8 then presentCommand data s
    else .next { s with regs := s.regs.write offset data }
  else .refused .malformedHostAccess

end Sys2Proof.Machine
end

