-- ==== Sys2Proof/Machine/Unpack.lean ====
section
/-! DEFINITION. The pixel unpacker (40_unpack.md). The packed layouts are the parameter
P_UNPACK_LAYOUT, DECIDED by the spec [from general knowledge, not in source]: D14. -/

namespace Sys2Proof.Machine

/-- UNPACK_RAW8: sample i (40_unpack.md R103); `byte i` is b[i]. -/
def raw8Sample (byte : Nat → Byte) (i : Nat) : Sample := (byte i).zeroExtend 16

/-- UNPACK_RAW10P: sample i (40_unpack.md R104). -/
def raw10pSample (byte : Nat → Byte) (i : Nat) : Sample :=
  let g := i / 4
  let k := i % 4
  ((byte (5 * g + k)).zeroExtend 16 <<< 2) ||| ((byte (5 * g + 4) >>> (2 * k)) &&& 0b11#8).zeroExtend 16

/-- UNPACK_RAW12P: sample i (40_unpack.md R105). -/
def raw12pSample (byte : Nat → Byte) (i : Nat) : Sample :=
  let g := i / 2
  let k := i % 2
  ((byte (3 * g + k)).zeroExtend 16 <<< 4) ||| ((byte (3 * g + 2) >>> (4 * k)) &&& 0xF#8).zeroExtend 16

/-- The little-endian 16-bit word i of a row (20_memory.md R54). -/
def wordSample (byte : Nat → Byte) (i : Nat) : Sample := le16 (byte (2 * i)) (byte (2 * i + 1))

/-- UNPACK_RAW10: sample i (40_unpack.md R106). -/
def raw10Sample (byte : Nat → Byte) (i : Nat) : Sample := wordSample byte i &&& 0x03FF#16

/-- UNPACK_RAW12: sample i (40_unpack.md R107). -/
def raw12Sample (byte : Nat → Byte) (i : Nat) : Sample := wordSample byte i &&& 0x0FFF#16

/-- UNPACK_RAW16: sample i (40_unpack.md R108). -/
def raw16Sample (byte : Nat → Byte) (i : Nat) : Sample := wordSample byte i

/-- A row of W samples, each computed from the raw row (40_unpack.md R102). -/
def unpackWith (sample : (Nat → Byte) → Nat → Sample) (stale w : Nat) (b : List Byte) : List Sample :=
  (List.range w).map (sample (rowByte stale b))

/-- The UNPACK operation selected by PIXFMT (30_encoding.md R79). -/
def unpackRow (cfg : CfgRegs) (stale : Nat) (b : List Byte) : List Sample :=
  match cfg.pixfmt with
  | 0#3 => unpackWith raw8Sample stale cfg.w b
  | 1#3 => unpackWith raw10pSample stale cfg.w b
  | 2#3 => unpackWith raw12pSample stale cfg.w b
  | 3#3 => unpackWith raw10Sample stale cfg.w b
  | 4#3 => unpackWith raw12Sample stale cfg.w b
  | 5#3 => unpackWith raw16Sample stale cfg.w b
  | code => (List.range cfg.w).map (Config.reservedSample code b)

/-- The unpacker run alone holds its samples in `dp.u`. -/
def State.setUnpacked (u : List Sample) (s : State) : State := { s with dp := { s.dp with u := u } }

/-- UNPACK_RAW8 (40_unpack.md R103). -/
def execUnpackRaw8 (b : List Byte) (s : State) : Result :=
  .next (s.setUnpacked (unpackWith raw8Sample s.stale s.cfg.w b))

/-- UNPACK_RAW10P (40_unpack.md R104). -/
def execUnpackRaw10p (b : List Byte) (s : State) : Result :=
  .next (s.setUnpacked (unpackWith raw10pSample s.stale s.cfg.w b))

/-- UNPACK_RAW12P (40_unpack.md R105). -/
def execUnpackRaw12p (b : List Byte) (s : State) : Result :=
  .next (s.setUnpacked (unpackWith raw12pSample s.stale s.cfg.w b))

/-- UNPACK_RAW10 (40_unpack.md R106). -/
def execUnpackRaw10 (b : List Byte) (s : State) : Result :=
  .next (s.setUnpacked (unpackWith raw10Sample s.stale s.cfg.w b))

/-- UNPACK_RAW12 (40_unpack.md R107). -/
def execUnpackRaw12 (b : List Byte) (s : State) : Result :=
  .next (s.setUnpacked (unpackWith raw12Sample s.stale s.cfg.w b))

/-- UNPACK_RAW16 (40_unpack.md R108). -/
def execUnpackRaw16 (b : List Byte) (s : State) : Result :=
  .next (s.setUnpacked (unpackWith raw16Sample s.stale s.cfg.w b))

end Sys2Proof.Machine
end

