-- ==== Sys2Proof/Machine/BlackLevel.lean ====
section
/-! DEFINITION. The black-level corrector (41_black_level.md). -/

namespace Sys2Proof.Machine

/-- `sat_sub16(a, b)` (41_black_level.md R122). -/
def satSub (a b : Sample) : Sample := if b < a then a - b else 0#16

/-- BLC_SUB on a row (41_black_level.md R121). -/
def blcScalar (bl : Sample) (u : List Sample) : List Sample := u.map fun v => satSub v bl

/-- BLC_SUB2 on a row: lane pairs, the odd last sample by the scalar form (41_black_level.md R122). -/
def blcPairs (bl : Sample) : List Sample → List Sample
  | a :: b :: rest => satSub a bl :: satSub b bl :: blcPairs bl rest
  | [a] => [satSub a bl]
  | [] => []

/-- The black-level operation that `cfg` selects (30_encoding.md R79; 41_black_level.md R120-R122). -/
def blcRow (cfg : CfgRegs) (u : List Sample) : List Sample :=
  if cfg.blEn = false ∨ cfg.bl = 0#16 then u else blcScalar cfg.bl u

/-- The corrected row of a raw row (41_black_level.md R123). -/
def correctedRow (cfg : CfgRegs) (stale : Nat) (b : List Byte) : List Sample :=
  blcRow cfg (unpackRow cfg stale b)

/-- The corrector run alone holds its samples in `dp.u'`. -/
def State.setCorrected (u : List Sample) (s : State) : State := { s with dp := { s.dp with u' := u } }

/-- BLC_BYPASS (41_black_level.md R120). Run alone it takes a row of any length, as the other two forms do
(DESIGN CHOICE, notes/assumptions/22.md). -/
def execBlcBypass (u : List Sample) (s : State) : Result := .next (s.setCorrected u)

/-- BLC_SUB (41_black_level.md R121), every sample of the row given, whatever W is (DESIGN CHOICE,
notes/assumptions/22.md). -/
def execBlcSub (u : List Sample) (s : State) : Result := .next (s.setCorrected (blcScalar s.cfg.bl u))

/-- BLC_SUB2 (41_black_level.md R122), every sample of the row given, whatever W is (DESIGN CHOICE,
notes/assumptions/22.md). -/
def execBlcSub2 (u : List Sample) (s : State) : Result := .next (s.setCorrected (blcPairs s.cfg.bl u))

end Sys2Proof.Machine
end

