-- ==== Sys2Proof/Machine/Demosaic.lean ====
section
/-! DEFINITION. The colour at a position, neighbour averaging, white balance and normalisation
(42_demosaic.md). -/

namespace Sys2Proof.Machine

/-! ## Colour at a position -/

/-- The table of 42_demosaic.md R130, by pattern, row phase and column phase [from general knowledge, not
in source: the spec's decision D8]. -/
def cfaTable (pattern : BitVec 2) (yOdd xOdd : Bool) : Color :=
  match pattern, yOdd, xOdd with
  | 0#2, false, false => .red
  | 0#2, false, true => .green
  | 0#2, true, false => .green
  | 0#2, true, true => .blue
  | 1#2, false, false => .blue
  | 1#2, false, true => .green
  | 1#2, true, false => .green
  | 1#2, true, true => .red
  | 2#2, false, false => .green
  | 2#2, false, true => .red
  | 2#2, true, false => .blue
  | 2#2, true, true => .green
  | _, false, false => .green
  | _, false, true => .blue
  | _, true, false => .red
  | _, true, true => .green

/-- The parity of a coordinate. -/
def odd (i : Nat) : Bool := decide (i % 2 = 1)

/-- `CFA(p, y, x)` (42_demosaic.md R130). -/
def cfa (pattern : BitVec 2) (y x : Nat) : Color := cfaTable pattern (odd y) (odd x)

/-- The row phase is that of a red row (42_demosaic.md R131). -/
def redRowPhase (pattern : BitVec 2) (yOdd : Bool) : Bool :=
  decide (cfaTable pattern yOdd false = .red ∨ cfaTable pattern yOdd true = .red)

/-- Image row y is a red row (42_demosaic.md R131). -/
def redRow (pattern : BitVec 2) (y : Nat) : Bool := redRowPhase pattern (odd y)

/-- The colour codes of the pixel class (30_encoding.md R78). -/
def colorCode : Color → BitVec 3
  | .red => 0#3
  | .green => 1#3
  | .blue => 2#3

/-- The class of a pixel (30_encoding.md R78). -/
def pixelClass (pattern : BitVec 2) (y x : Nat) : BitVec 3 :=
  colorCode (cfa pattern y x) ||| (if redRow pattern y then 0b100#3 else 0#3)

/-! ## Neighbours -/

/-- `S[y'][x']` where it is inside the image, ABSENT elsewhere (42_demosaic.md R132). -/
def State.sampleAt (s : State) (y x : Int) : Option Sample :=
  if 0 ≤ x ∧ x < s.cfg.w ∧ 0 ≤ y ∧ y < s.cfg.h then some (s.winSample y.toNat x.toNat) else none

/-- The 3×3 samples around pixel (x, y) (42_demosaic.md R132; 43_color_convert.md R160). -/
def State.nbhd (s : State) (x y : Nat) : Nbhd where
  nw := s.sampleAt (y - 1) (x - 1)
  n := s.sampleAt (y - 1) x
  ne := s.sampleAt (y - 1) (x + 1)
  w := s.sampleAt y (x - 1)
  c := s.winSample y x
  e := s.sampleAt y (x + 1)
  sw := s.sampleAt (y + 1) (x - 1)
  s := s.sampleAt (y + 1) x
  se := s.sampleAt (y + 1) (x + 1)

/-- The present samples of a list. -/
def present (l : List (Option Sample)) : List Sample := l.filterMap id

/-- `Hn` (42_demosaic.md R132). -/
def horizontal (b : Nbhd) : List Sample := present [b.w, b.e]

/-- `Vn` (42_demosaic.md R132). -/
def vertical (b : Nbhd) : List Sample := present [b.n, b.s]

/-- `Dn` (42_demosaic.md R132). -/
def diagonal (b : Nbhd) : List Sample := present [b.nw, b.sw, b.ne, b.se]

/-- The sum of samples, exact. -/
def sampleSum (l : List Sample) : Nat := (l.map BitVec.toNat).sum

/-- `mean(L)` (42_demosaic.md R133): floor division by the actual count, 0 for the empty list. -/
def mean (l : List Sample) : Sample :=
  if l.length = 0 then 0#16 else BitVec.ofNat 16 (sampleSum l / l.length)

/-! ## Reconstruction -/

/-- DM_R (42_demosaic.md R134). -/
def dmRed (b : Nbhd) : Rgb16 := ⟨b.c, mean (horizontal b ++ vertical b), mean (diagonal b)⟩

/-- DM_B (42_demosaic.md R135). -/
def dmBlue (b : Nbhd) : Rgb16 := ⟨mean (diagonal b), mean (horizontal b ++ vertical b), b.c⟩

/-- DM_G_RROW (42_demosaic.md R136). -/
def dmGreenRedRow (b : Nbhd) : Rgb16 := ⟨mean (horizontal b), b.c, mean (vertical b)⟩

/-- DM_G_BROW (42_demosaic.md R137). -/
def dmGreenBlueRow (b : Nbhd) : Rgb16 := ⟨mean (vertical b), b.c, mean (horizontal b)⟩

/-- The demosaic operation of the pixel's class (30_encoding.md R78, R79). -/
def ctxRgb (c : PixelCtx) : Rgb16 :=
  match cfaTable c.pattern c.yOdd c.xOdd with
  | .red => dmRed c.nb
  | .blue => dmBlue c.nb
  | .green => if redRowPhase c.pattern c.yOdd then dmGreenRedRow c.nb else dmGreenBlueRow c.nb

/-! ## White balance, normalisation and clamp -/

/-- One channel of WB_NORM (42_demosaic.md R142): `min(255, (v * gain) >> (8 + s))`. With `s = N - 8`
(R141) on unbounded integers (00_scope.md R7) the shift `8 + s` is N itself, for the free N of PIXFMT 6, 7
too, which is taken to be a natural number (DESIGN CHOICE, notes/assumptions/12.md). -/
def toByte (depth : Nat) (gain : BitVec 16) (v : Sample) : Byte :=
  BitVec.ofNat 8 (min 255 ((v.toNat * gain.toNat) / 2 ^ depth))

/-- WB_NORM (42_demosaic.md R142). -/
def wbNorm (depth : Nat) (g : Gains) (p : Rgb16) : Rgb8 :=
  ⟨toByte depth g.r p.r, toByte depth g.g p.g, toByte depth g.b p.b⟩

/-- The 8-bit colour of a pixel from its context (42_demosaic.md R143; `F(c)` of
43_color_convert.md R161). -/
def ctxRgb8 (c : PixelCtx) : Rgb8 := wbNorm c.depth c.gains (ctxRgb c)

/-- `Ctx(x, y)`, a padded column taken as column W - 1 (43_color_convert.md R160;
42_demosaic.md R143). For an operation run alone any column past the padding is taken so too, and column 0
where W is 0 (DESIGN CHOICE, notes/assumptions/22.md). -/
def State.pixelCtx (s : State) (x y : Nat) : PixelCtx :=
  let x' := min x (s.cfg.w - 1)
  { pattern := s.cfg.pattern, xOdd := odd x', yOdd := odd y, depth := s.cfg.depth,
    gains := s.cfg.gains, nb := s.nbhd x' y }

/-- `RGB8(x, y)` (42_demosaic.md R143). -/
def State.rgb8At (s : State) (x y : Nat) : Rgb8 := ctxRgb8 (s.pixelCtx x y)

/-! ## The operations run alone

exec of a demosaic operation applies its formula at whatever pixel it is given, one of another class too,
which `step` never presents (DESIGN CHOICE, notes/assumptions/36.md). -/

/-- The demosaic unit's result. -/
def State.setRgb (p : Rgb16) (s : State) : State := { s with dp := { s.dp with rgb := p } }

/-- The colour-at-position table's result. -/
def State.setColor (k : Color) (s : State) : State := { s with dp := { s.dp with color := k } }

/-- The white-balance unit's result. -/
def State.setRgb8 (p : Rgb8) (s : State) : State := { s with dp := { s.dp with rgb8 := p } }

/-- CFA_COLOR (42_demosaic.md R130). -/
def execCfaColor (x y : Nat) (s : State) : Result := .next (s.setColor (cfa s.cfg.pattern y x))

/-- DM_R (42_demosaic.md R134); at a pixel of another class, notes/assumptions/36.md. -/
def execDmR (x y : Nat) (s : State) : Result := .next (s.setRgb (dmRed (s.nbhd x y)))

/-- DM_B (42_demosaic.md R135); at a pixel of another class, notes/assumptions/36.md. -/
def execDmB (x y : Nat) (s : State) : Result := .next (s.setRgb (dmBlue (s.nbhd x y)))

/-- DM_G_RROW (42_demosaic.md R136); at a pixel of another class, notes/assumptions/36.md. -/
def execDmGRrow (x y : Nat) (s : State) : Result := .next (s.setRgb (dmGreenRedRow (s.nbhd x y)))

/-- DM_G_BROW (42_demosaic.md R137); at a pixel of another class, notes/assumptions/36.md. -/
def execDmGBrow (x y : Nat) (s : State) : Result := .next (s.setRgb (dmGreenBlueRow (s.nbhd x y)))

/-- WB_NORM (42_demosaic.md R140-R142). -/
def execWbNorm (p : Rgb16) (s : State) : Result :=
  .next (s.setRgb8 (wbNorm s.cfg.depth s.cfg.gains p))

end Sys2Proof.Machine
end

