-- ==== Sys2Proof/Machine/ColorConvert.lean ====
section
/-! DEFINITION. Colour conversion, the tone table, the row operations and the reference datapath
(43_color_convert.md). The coefficients are the parameter P_CSC, DECIDED by the spec [from general
knowledge, not in source]: D23. -/

namespace Sys2Proof.Machine

/-! ## One pixel and one pair -/

/-- A channel as a mathematical integer. -/
def chan (b : Byte) : Int := b.toNat

/-- CSC_PIXEL (43_color_convert.md R151). `v / 256` on integers rounds toward minus infinity, as the
arithmetic shift by 8 of 00_scope.md R7 does. -/
def cscPixel (p : Rgb8) : Ycc where
  y := clamp8 ((77 * chan p.r + 150 * chan p.g + 29 * chan p.b + 128) / 256)
  cb := clamp8 ((-43 * chan p.r - 85 * chan p.g + 128 * chan p.b + 128) / 256 + 128)
  cr := clamp8 ((128 * chan p.r - 107 * chan p.g - 21 * chan p.b + 128) / 256 + 128)

/-- PAIR_CHROMA (43_color_convert.md R155). -/
def pairChroma (p0 p1 : Rgb8) : Chroma where
  cb := clamp8 ((-43 * (chan p0.r + chan p1.r) - 85 * (chan p0.g + chan p1.g)
    + 128 * (chan p0.b + chan p1.b) + 256) / 512 + 128)
  cr := clamp8 ((128 * (chan p0.r + chan p1.r) - 107 * (chan p0.g + chan p1.g)
    - 21 * (chan p0.b + chan p1.b) + 256) / 512 + 128)

/-! ## The reference datapath -/

/-- A value brought within P_TOL of a FAST value, unchanged where it already is (43_color_convert.md
R161). -/
def withinTol (fast value : Byte) : Byte :=
  BitVec.ofNat 8
    (max (fast.toNat - Config.tolerance) (min (fast.toNat + Config.tolerance) value.toNat))

/-- `P_REF.pix` (43_color_convert.md R160), held to the law of R161. -/
def refPix (c : PixelCtx) : Ycc :=
  let fast := cscPixel (ctxRgb8 c)
  let value := Config.refPix c
  ⟨withinTol fast.y value.y, withinTol fast.cb value.cb, withinTol fast.cr value.cr⟩

/-- `P_REF.pair` (43_color_convert.md R160), held to the law of R161. -/
def refPair (c0 c1 : PixelCtx) : Chroma :=
  let fast := pairChroma (ctxRgb8 c0) (ctxRgb8 c1)
  let value := Config.refPair c0 c1
  ⟨withinTol fast.cb value.cb, withinTol fast.cr value.cr⟩

/-! ## The values the row operations use (43_color_convert.md R158, R160) -/

/-- Pre-tone luma and chroma of pixel (x, y) in the selected datapath. -/
def State.yccAt (s : State) (x y : Nat) : Ycc :=
  if s.cfg.fastEn then cscPixel (s.rgb8At x y) else refPix (s.pixelCtx x y)

/-- Pre-tone chroma of pixel pair k of row y in the selected datapath. -/
def State.chromaAt (s : State) (k y : Nat) : Chroma :=
  if s.cfg.fastEn then pairChroma (s.rgb8At (2 * k) y) (s.rgb8At (2 * k + 1) y)
  else refPair (s.pixelCtx (2 * k) y) (s.pixelCtx (2 * k + 1) y)

/-- The output luma byte of pixel (x, y): the tone table on the luma (43_color_convert.md R150). -/
def State.lumaAt (s : State) (x y : Nat) : Byte := Config.toneLut (s.yccAt x y).y

/-! ## Row operations -/

/-- The Y, Cb, Cr triplet of pixel x (43_color_convert.md R153). -/
def State.triplet (s : State) (y x : Nat) : List Byte :=
  [s.lumaAt x y, (s.yccAt x y).cb, (s.yccAt x y).cr]

/-- CSC444 (43_color_convert.md R153). -/
def State.row444 (s : State) (y : Nat) : List Byte := (List.range s.cfg.wpad).flatMap (s.triplet y)

/-- The group Y0, Cb, Y1, Cr of pair k with its own chroma (43_color_convert.md R154). -/
def State.group422 (s : State) (y k : Nat) : List Byte :=
  [s.lumaAt (2 * k) y, (s.chromaAt k y).cb, s.lumaAt (2 * k + 1) y, (s.chromaAt k y).cr]

/-- CSC422 (43_color_convert.md R154). -/
def State.row422 (s : State) (y : Nat) : List Byte :=
  (List.range (s.cfg.wpad / 2)).flatMap (s.group422 y)

/-- Byte i of a strip row, a byte the row does not have being free. -/
def stripByte (stale : Nat) (row : List Byte) (i : Nat) : Byte :=
  match row[i]? with
  | some v => v
  | none => Config.staleStrip stale row.length i

/-- The group of pair k of an odd 4:2:0 row: its own luma, the chroma of the row above
(43_color_convert.md R157). -/
def State.group420Odd (s : State) (y : Nat) (above : List Byte) (k : Nat) : List Byte :=
  [s.lumaAt (2 * k) y, stripByte s.stale above (4 * k + 1), s.lumaAt (2 * k + 1) y,
   stripByte s.stale above (4 * k + 3)]

/-- CSC420_ODD, given OUT(y - 1) (43_color_convert.md R157). -/
def State.row420Odd (s : State) (y : Nat) (above : List Byte) : List Byte :=
  (List.range (s.cfg.wpad / 2)).flatMap (s.group420Odd y above)

/-- `OUT(y)`, given OUT(y - 1) (43_color_convert.md R158). -/
def State.outRow (s : State) (y : Nat) (above : List Byte) : List Byte :=
  match s.cfg.subsamp with
  | 0#2 => s.row444 y
  | 1#2 => s.row422 y
  | 2#2 => if y % 2 = 0 then s.row422 y else s.row420Odd y above
  | _ => (List.range s.cfg.pitch).map (Config.reservedOut y)

/-! ## The operations run alone -/

/-- The colour converter's result for a pixel. -/
def State.setYcc (v : Ycc) (s : State) : State := { s with dp := { s.dp with ycc := v } }

/-- The colour converter's result for a pair. -/
def State.setChroma (v : Chroma) (s : State) : State := { s with dp := { s.dp with chroma := v } }

/-- The tone table's result. -/
def State.setLuma (v : Byte) (s : State) : State := { s with dp := { s.dp with luma := v } }

/-- The row converter's result. -/
def State.setRow (v : List Byte) (s : State) : State := { s with dp := { s.dp with row := v } }

/-- TONE_LUT (43_color_convert.md R150). -/
def execToneLut (l : Byte) (s : State) : Result := .next (s.setLuma (Config.toneLut l))

/-- CSC_PIXEL (43_color_convert.md R151). -/
def execCscPixel (p : Rgb8) (s : State) : Result := .next (s.setYcc (cscPixel p))

/-- PAIR_CHROMA (43_color_convert.md R155). -/
def execPairChroma (p0 p1 : Rgb8) (s : State) : Result := .next (s.setChroma (pairChroma p0 p1))

/-- REF: the reference values of pixel (x, y) and of the pair it belongs to (43_color_convert.md
R160). -/
def execRef (x y : Nat) (s : State) : Result :=
  .next ((s.setYcc (refPix (s.pixelCtx x y))).setChroma
    (refPair (s.pixelCtx (2 * (x / 2)) y) (s.pixelCtx (2 * (x / 2) + 1) y)))

/-- CSC444 (43_color_convert.md R153). -/
def execCsc444 (y : Nat) (s : State) : Result := .next (s.setRow (s.row444 y))

/-- CSC422 (43_color_convert.md R154). -/
def execCsc422 (y : Nat) (s : State) : Result := .next (s.setRow (s.row422 y))

/-- CSC420_EVEN: exactly the row of R154 (43_color_convert.md R156). -/
def execCsc420Even (y : Nat) (s : State) : Result := .next (s.setRow (s.row422 y))

/-- The row above of an operation run alone: the strip row that holds OUT(y - 1) in the current block row
(44_orchestrator.md R184). Where y - 1 lies above the block row, which no row of a run does, the strip has
no such row and its bytes are free values (DESIGN CHOICE, notes/assumptions/31.md). -/
def State.rowAbove (s : State) (y : Nat) : List Byte :=
  if s.cfg.y0 s.n < y then s.stripRow (y - 1 - s.cfg.y0 s.n)
  else (List.range s.cfg.pitch).map (Config.staleStrip s.stale (s.cfg.bh + y))

/-- CSC420_ODD, OUT(y - 1) taken from the output strip (43_color_convert.md R157). -/
def execCsc420Odd (y : Nat) (s : State) : Result := .next (s.setRow (s.row420Odd y (s.rowAbove y)))

end Sys2Proof.Machine
end

