-- ==== Sys2Proof/Machine/Orchestrator.lean ====
section
/-! DEFINITION. The orchestrator's steps (44_orchestrator.md R173-R192). -/

namespace Sys2Proof.Machine

/-! ## Pre-flight -/

/-- The checks of 44_orchestrator.md R173 on the buffer-mode arguments. -/
def bufferArgError (m : Mode) (cfg : CfgRegs) : Option ErrCode :=
  if m = .stream then none
  else if cfg.outSizeAddr = 0#32 then some .nullOutSize
  else if cfg.inAddr = 0#32 then some .nullInput
  else if cfg.outAddr = 0#32 then some .nullOutput
  else if cfg.outCap = 0#32 then some .zeroCapacity
  else none

/-- The checks of 44_orchestrator.md R173 up to the stride, in order: the first that fails. -/
def configError (m : Mode) (cfg : CfgRegs) : Option ErrCode :=
  match bufferArgError m cfg with
  | some e => some e
  | none =>
    if cfg.codesValid = false then some .invalidArguments
    else if m = .buffer ∧ cfg.rangesOk = false then some .invalidArguments
    else if cfg.w = 0 ∨ cfg.h = 0 then some .invalidDimensions
    else if cfg.strideValid = false then some .invalidStride
    else none

/-- The checks of 44_orchestrator.md R173 after EST_BYTES is written, in order: the memory ceiling, then
the capacities of R176. -/
def resourceError (cfg : CfgRegs) : Option ErrCode :=
  if cfg.memLimit.toNat < cfg.est then some .memoryCeiling
  else if Config.capRaw.toNat < cfg.rawSize then some .allocRaw
  else if Config.capUnpack.toNat < cfg.unpackSize then some .allocUnpack
  else if Config.capOut.toNat < cfg.outBufSize then some .allocOut
  else if Config.capCarry.toNat < cfg.carrySize then some .allocCarry
  else if Config.capLook.toNat < cfg.lookSize then some .allocLook
  else none

/-- EST_BYTES takes EST(cfg) (44_orchestrator.md R173, R175). -/
def State.writeEst (s : State) : State := { s with estBytes := BitVec.ofNat 32 s.cfg.est }

/-- STEP_PREFLIGHT (44_orchestrator.md R173). A buffer-mode encode that passes and whose ranges are not
disjoint, or not wholly mapped to memory that answers, breaks duty H2 and gets no step
(70_reset_and_hazards.md R253; 20_memory.md R68; when it counts is notes/assumptions/8.md). -/
def execStepPreflight (s : State) : Result :=
  match configError s.mode s.cfg with
  | some e => .next (s.raiseErr e)
  | none =>
    match resourceError s.cfg with
    | some e => .next (s.writeEst.raiseErr e)
    | none =>
      if s.mode = .buffer ∧ s.cfg.rangesDisjoint = false then .fault .rangesOverlap
      else if s.mode = .buffer ∧ s.rangesMapped = false then .fault .rangeNotMapped
      else .next { s.writeEst with skipLeft := s.cfg.skipLines, fsm := .skip }

/-- What a reserved PIXFMT or SUBSAMP code does in pre-flight: error 1, after the buffer-mode argument
checks; in any other state nothing reads it (30_encoding.md R81; 44_orchestrator.md R173). -/
def reservedCode (s : State) : State :=
  if s.fsm = .preflight then
    match bufferArgError s.mode s.cfg with
    | some e => s.raiseErr e
    | none => s.raiseErr .invalidArguments
  else s

/-- PIXFMT_RESERVED (30_encoding.md R72, R81; 44_orchestrator.md R173). -/
def execPixfmtReserved (_code : BitVec 3) (s : State) : Result := .next (reservedCode s)

/-- SUBSAMP_RESERVED (30_encoding.md R74, R81; 44_orchestrator.md R173). -/
def execSubsampReserved (s : State) : Result := .next (reservedCode s)

/-! ## Leading lines and the engine session -/

/-- STEP_SKIP (44_orchestrator.md R178). -/
def execStepSkip (s : State) : Result :=
  if s.skipLeft = 0#32 then .next { s with fsm := .begin }
  else
    Io.outcome s ((s.streamRead s.cfg.stride).bind fun r =>
      if r.1.length < s.cfg.stride then .done (r.2.raiseErr .skipEndOfInput)
      else .done { r.2 with skipLeft := r.2.skipLeft - 1#32 })

/-- The `EngineBegin` event of the latched configuration (44_orchestrator.md R180; 30_encoding.md
R83). -/
def beginEvent (cfg : CfgRegs) (ok : Bool) : Event :=
  .engineBegin cfg.w cfg.h cfg.layout cfg.subsamp.toNat (Config.qTier cfg.q) ok

/-- The engine's next answer is a failure that comes with output, against duty H5
(70_reset_and_hazards.md R253). An `OutWrite` of zero bytes counts as output here (DESIGN CHOICE,
notes/assumptions/35.md). -/
def State.outputWithFailure (s : State) : Bool :=
  match s.engine with
  | [] => false
  | a :: _ => !a.ok && !a.writes.isEmpty

/-- STEP_BEGIN (44_orchestrator.md R180; 10_state.md R35). -/
def execStepBegin (s : State) : Result :=
  if s.outputWithFailure then .fault .engineEarlyOutput
  else
    Io.outcome s ((s.engineCall (beginEvent s.cfg)).bind fun r =>
      if r.1 then .done { r.2 with n := 0, engineOpen := true, fsm := .await }
      else .done (r.2.raiseErr .engineInit))

/-! ## The block-row state machine -/

/-- The first row that block row n has to read (44_orchestrator.md R181). -/
def State.firstRow (s : State) : Nat :=
  match s.look with
  | some _ => s.cfg.y0 s.n + 1
  | none => s.cfg.y0 s.n

/-- The rows `a .. b - 1`. -/
def rowsFrom (a b : Nat) : List Nat := (List.range (b - a)).map (a + ·)

/-- `rlist` of block row n (44_orchestrator.md R181). -/
def State.readList (s : State) : List Nat :=
  rowsFrom s.firstRow (s.cfg.y1 s.n)
    ++ (if s.cfg.y1 s.n < s.cfg.h then [s.cfg.y1 s.n] else [])

/-- The window at the start of block row n: the restored rows, every other row not yet written
(44_orchestrator.md R181; 10_state.md R28). -/
def State.restoredWindow (s : State) : Table (List Sample) :=
  let w0 : Table (List Sample) :=
    match s.carry with
    | some row => Table.put (s.cfg.y0 s.n - 1) row []
    | none => []
  match s.look with
  | some row => Table.put (s.cfg.y0 s.n) row w0
  | none => w0

/-- STEP_AWAIT (44_orchestrator.md R181). -/
def execStepAwait (s : State) : Result :=
  if s.n = s.cfg.nbr then .next { s with fsm := .finish }
  else
    .next { s with
      win := s.restoredWindow, raw := [], rlist := s.readList, ri := 0, stale := s.stale + 1,
      fsm := if s.readList = [] then .unpacking else .reading }

/-- A request's bytes, the rest of the request zero (44_orchestrator.md R182). -/
def zeroFill (stride : Nat) (b : List Byte) : List Byte := b ++ List.replicate (stride - b.length) 0#8

/-- The row that STEP_READ reads, `rlist[ri]`. -/
def State.currentRow (s : State) : Option Nat := s.rlist[s.ri]?

/-- The raw row is stored and the next one is due (44_orchestrator.md R182). -/
def State.storeRow (r : Nat) (b : List Byte) (s : State) : State :=
  { s with
    raw := Table.put r (zeroFill s.cfg.stride b) s.raw, ri := s.ri + 1,
    fsm := if s.ri + 1 = s.rlist.length then .unpacking else s.fsm }

/-- STEP_READ (44_orchestrator.md R182). With no row left to read (no run reaches that) the core goes on
to UNPACKING. -/
def execStepRead (s : State) : Result :=
  match s.currentRow with
  | none => .next { s with fsm := .unpacking }
  | some r =>
    Io.outcome s ((s.streamRead s.cfg.stride).bind fun x => .done (x.2.storeRow r x.1))

/-- One row of STEP_UNPACK: `win[r] <- BLC(UNPACK(raw[r]))` (44_orchestrator.md R183). -/
def State.unpackInto (s : State) (win : Table (List Sample)) (r : Nat) : Table (List Sample) :=
  Table.put r (correctedRow s.cfg s.stale (s.rawRow r)) win

/-- STEP_UNPACK (44_orchestrator.md R183). -/
def execStepUnpack (s : State) : Result :=
  .next { s with win := s.rlist.foldl s.unpackInto s.win, fsm := .demosaic }

/-- The first `k` rows of the strip, OUT(y0), OUT(y0 + 1), …, each row given the one above it
(44_orchestrator.md R184). -/
def State.outRows (s : State) : Nat → List (List Byte)
  | 0 => []
  | k + 1 =>
    let rows := State.outRows s k
    let above :=
      match rows.getLast? with
      | some row => row
      | none => s.stripRow 0
    rows ++ [s.outRow (s.cfg.y0 s.n + k) above]

/-- The output strip of block row n: the real rows, then the last of them repeated up to BH rows
(44_orchestrator.md R184). -/
def State.newStrip (s : State) : List (List Byte) :=
  let rows := s.outRows (s.cfg.y1 s.n - s.cfg.y0 s.n)
  let last :=
    match rows.getLast? with
    | some row => row
    | none => s.stripRow 0
  rows ++ List.replicate (s.cfg.bh - rows.length) last

/-- STEP_DEMOSAIC (44_orchestrator.md R184, R185). -/
def execStepDemosaic (s : State) : Result :=
  .next { s with
    strip := s.newStrip,
    carry := some (s.winRow (s.cfg.y1 s.n - 1)),
    look := if s.cfg.y1 s.n < s.cfg.h then some (s.winRow (s.cfg.y1 s.n)) else none,
    c := 0, fsm := .emitting }

/-- Row i of `BLOCK(c)` (44_orchestrator.md R187). -/
def State.blockRow (s : State) (i : Nat) : List Byte :=
  ((s.stripRow i).drop (s.c * (s.cfg.mw * s.cfg.bpp))).take (s.cfg.mw * s.cfg.bpp)

/-- `BLOCK(c)`: BH rows (44_orchestrator.md R187). -/
def State.block (s : State) : List (List Byte) := (List.range s.cfg.bh).map s.blockRow

/-- What follows one `EngineAddBlock` (44_orchestrator.md R186). -/
def State.blockSent (s : State) : State :=
  if s.c + 1 = s.cfg.nbc then
    { s with c := s.c + 1, progress := s.progress + 1#32, n := s.n + 1, fsm := .await }
  else { s with c := s.c + 1 }

/-- STEP_EMIT (44_orchestrator.md R186). -/
def execStepEmit (s : State) : Result :=
  Io.outcome s ((s.engineCall fun _ => .engineAddBlock s.block s.cfg.pitch).bind fun r =>
    .done r.2.blockSent)

/-! ## End of an encode -/

/-- The buffer-mode result (44_orchestrator.md R191). -/
def State.bufferResult (s : State) : Io State :=
  if s.ovf then .done (s.raiseErr .outputOverflow)
  else
    (State.memWrite s.cfg.outSizeAddr.toNat (leBytes s.outPos) { s with outSize := s.outPos }).bind
      fun s' => .done s'.complete

/-- STEP_FINISH (44_orchestrator.md R190, R191). -/
def execStepFinish (s : State) : Result :=
  Io.outcome s ((s.engineCall fun _ => .engineEnd).bind fun r =>
    match r.2.mode with
    | .stream => .done r.2.complete
    | .buffer => r.2.bufferResult)

/-- WAIT: in IDLE, DONE and ERROR the core takes no step of its own (30_encoding.md R80). -/
def execWait (_code : BitVec 4) (s : State) : Result := .next s

end Sys2Proof.Machine
end

