-- ==== Sys2Proof/Machine/Dispatch.lean ====
section
/-! DEFINITION. The meaning of every instruction, one arm per constructor. -/

namespace Sys2Proof.Machine

def exec (i : Instr) (s : State) : Host.Outcome State Fault Refusal :=
  match i with
  | .nop => Sys2Proof.Machine.execNop s
  | .encodeStream => Sys2Proof.Machine.execEncodeStream s
  | .encodeBuffer => Sys2Proof.Machine.execEncodeBuffer s
  | .estimate => Sys2Proof.Machine.execEstimate s
  | .cmdReserved code => Sys2Proof.Machine.execCmdReserved code s
  | .hostRead offset => Sys2Proof.Machine.execHostRead offset s
  | .hostWrite offset data => Sys2Proof.Machine.execHostWrite offset data s
  | .unpackRaw8 b => Sys2Proof.Machine.execUnpackRaw8 b s
  | .unpackRaw10p b => Sys2Proof.Machine.execUnpackRaw10p b s
  | .unpackRaw12p b => Sys2Proof.Machine.execUnpackRaw12p b s
  | .unpackRaw10 b => Sys2Proof.Machine.execUnpackRaw10 b s
  | .unpackRaw12 b => Sys2Proof.Machine.execUnpackRaw12 b s
  | .unpackRaw16 b => Sys2Proof.Machine.execUnpackRaw16 b s
  | .pixfmtReserved code => Sys2Proof.Machine.execPixfmtReserved code s
  | .blcBypass u => Sys2Proof.Machine.execBlcBypass u s
  | .blcSub u => Sys2Proof.Machine.execBlcSub u s
  | .blcSub2 u => Sys2Proof.Machine.execBlcSub2 u s
  | .cfaColor x y => Sys2Proof.Machine.execCfaColor x y s
  | .wbNorm p => Sys2Proof.Machine.execWbNorm p s
  | .cscPixel p => Sys2Proof.Machine.execCscPixel p s
  | .pairChroma p0 p1 => Sys2Proof.Machine.execPairChroma p0 p1 s
  | .ref x y => Sys2Proof.Machine.execRef x y s
  | .csc444 y => Sys2Proof.Machine.execCsc444 y s
  | .csc422 y => Sys2Proof.Machine.execCsc422 y s
  | .csc420Even y => Sys2Proof.Machine.execCsc420Even y s
  | .csc420Odd y => Sys2Proof.Machine.execCsc420Odd y s
  | .subsampReserved => Sys2Proof.Machine.execSubsampReserved s
  | .toneLut l => Sys2Proof.Machine.execToneLut l s
  | .dmR x y => Sys2Proof.Machine.execDmR x y s
  | .dmB x y => Sys2Proof.Machine.execDmB x y s
  | .dmGRrow x y => Sys2Proof.Machine.execDmGRrow x y s
  | .dmGBrow x y => Sys2Proof.Machine.execDmGBrow x y s
  | .stepPreflight => Sys2Proof.Machine.execStepPreflight s
  | .stepSkip => Sys2Proof.Machine.execStepSkip s
  | .stepBegin => Sys2Proof.Machine.execStepBegin s
  | .stepAwait => Sys2Proof.Machine.execStepAwait s
  | .stepRead => Sys2Proof.Machine.execStepRead s
  | .stepUnpack => Sys2Proof.Machine.execStepUnpack s
  | .stepDemosaic => Sys2Proof.Machine.execStepDemosaic s
  | .stepEmit => Sys2Proof.Machine.execStepEmit s
  | .stepFinish => Sys2Proof.Machine.execStepFinish s
  | .wait code => Sys2Proof.Machine.execWait code s

end Sys2Proof.Machine
end

