-- ==== Sys2Proof/Machine/Fetch.lean ====
section
/-! DEFINITION. What a turn presents to the decoder, and placing a word of spec/opcode_table.json where
the next turn presents it (30_encoding.md, opening; 00_scope.md R9; notes/assumptions/5.md, 17.md). -/

namespace Sys2Proof.Machine

/-- The turn that comes next: the first that is listed, the core's own where none is. -/
def State.nextTurn (s : State) : Turn :=
  match s.turns with
  | [] => .core
  | t :: _ => t

/-- The state with its next turn taken off the list. -/
def State.popTurn (s : State) : State := { s with turns := s.turns.tail }

/-- What a turn presents to the decoder, none for a turn that runs no instruction. -/
def presentedBy (t : Turn) (s : State) : Option Presented :=
  match t with
  | .core => some (.state s.statusWord)
  | .host a => some (.bus a)
  | .command data => some (.cmd data)
  | .datapath u => some (.fmtsel u s.cfg.format s.cfg.bl)
  | .pixel x y => some (.cls (pixelClass s.cfg.pattern y x) x y)
  | .reset => none
  | .busRead _ => none
  | .busWrite _ _ => none

/-- The outcome of a turn that runs no instruction. -/
def environmentTurn (t : Turn) (s : State) : Result :=
  match t with
  | .reset => .next s.assertReset
  | .busRead a => s.busAgentRead a
  | .busWrite a v => s.busAgentWrite a v
  | .core => .next s
  | .host _ => .next s
  | .command _ => .next s
  | .datapath _ => .next s
  | .pixel _ _ => .next s

/-- The state with a turn placed before all others. -/
def State.placeTurn (t : Turn) (s : State) : State := { s with turns := t :: s.turns }

/-- The state with a latched FORMAT word. -/
def State.latchFormat (format : Word) (s : State) : State :=
  { s with cfg := { s.cfg with format := format } }

/-- The state with a latched BL field. -/
def State.latchBl (bl : BitVec 16) (s : State) : State :=
  { s with cfg := { s.cfg with blackLevel := bl.zeroExtend 32 } }

/-- The FORMAT word with its PATTERN field RGGB, the pattern that `classSite` is for. -/
def rggb (format : Word) : Word := format &&& 0xFFFFFFCF#32

/-- What is presented is placed where the next step finds it: a turn, and the words it reads from the
state. -/
def State.placePresented (p : Presented) (s : State) : State :=
  match p with
  | .cmd data => s.placeTurn (.command data)
  | .bus a => s.placeTurn (.host a)
  | .fmtsel u format bl => ((s.latchFormat format).latchBl bl).placeTurn (.datapath u)
  | .cls _ x y => (s.latchFormat (rggb s.cfg.format)).placeTurn (.pixel x y)
  | .state status =>
    match Fsm.ofCode (stateField status) with
    | some f => { s with fsm := f, turns := .core :: s.turns }
    | none => s.placeTurn .core

end Sys2Proof.Machine
end

