-- ==== Sys2Proof/Machine/Step.lean ====
section
/-! DEFINITION. One step of the machine: the next turn is taken, what it presents is decoded, and the
instruction is run (30_encoding.md R80; 20_memory.md R62; 10_state.md R20). -/

namespace Sys2Proof.Machine

/-- Decodes what is presented and runs it. -/
def runPresented (p : Presented) (s : State) : Host.Outcome State Fault Refusal :=
  match decode p with
  | .ok i => exec i s
  | .error r => .refused (.rejected r)

/-- One step. -/
def step (s : State) : Host.Outcome State Fault Refusal :=
  match presentedBy s.nextTurn s with
  | some p => runPresented p s.popTurn
  | none => environmentTurn s.nextTurn s.popTurn

/-- The state whose next step runs the instruction of a word of spec/opcode_table.json. -/
def State.withFetchWord (s : State) (nbits w : Nat) : State := s.placePresented (tableItem nbits w)

end Sys2Proof.Machine
end

