-- ==== Sys2Proof/Safety.lean ====
section
/-! DEFINITION. What the claims call a good state: the invariants of the machine, each from the rule it
names, and the measure of the work an encode has left. -/

namespace Sys2Proof.Machine

/-- The outcome is a next state. -/
def completes (r : Result) : Prop := ∃ t, r = .next t

/-- Bus memory has its canonical form (the model's representation: notes/assumptions/7.md). -/
def memoryCanonical (s : State) : Prop := Memory.wf s.unlistedByte s.mem = true

/-- DONE is 1 exactly in state DONE and ERR exactly in state ERROR (10_state.md R26, read with the
rules that write them). -/
def flagsFollowState (s : State) : Prop :=
  (s.done = true ↔ s.fsm = .done) ∧ (s.err = true ↔ s.fsm = .error)

/-- The reserved bits of the registers and of the latched configuration are 0 (10_state.md R23). -/
def reservedBitsZero (s : State) : Prop :=
  s.regs.reservedZero = true ∧ s.cfg.reservedZero = true

/-- A buffer-mode encode stays within its input and output ranges (20_memory.md R51, R58, R59). -/
def bufferPositionsInRange (s : State) : Prop :=
  s.busy = true → s.mode = .buffer →
    s.inPos.toNat ≤ s.cfg.inLen.toNat ∧ s.outPos.toNat ≤ s.cfg.outCap.toNat

/-- A buffer-mode encode past pre-flight has its three ranges within the 2^32 bytes of bus memory, disjoint,
and mapped to memory that answers (44_orchestrator.md R177; 70_reset_and_hazards.md R253, duty H2;
20_memory.md R68). -/
def rangesAnswer (s : State) : Prop :=
  s.busy = true → s.mode = .buffer → s.fsm ≠ .preflight →
    s.cfg.rangesOk = true ∧ s.cfg.rangesDisjoint = true ∧ s.rangesMapped = true

/-- The states in which `EngineBegin` has returned ok (10_state.md R35). -/
def Fsm.afterBegin : Fsm → Bool
  | .await | .reading | .unpacking | .demosaic | .emitting | .finish => true
  | .idle | .preflight | .skip | .begin | .done | .error => false

/-- The engine session is open from BEGIN to FINISH (10_state.md R35). -/
def sessionOpen (s : State) : Prop := s.fsm.afterBegin = true → s.engineOpen = true

/-- `op` is the running command's (10_state.md R27). -/
def opMatchesMode (s : State) : Prop :=
  s.busy = true →
    (s.mode = .stream → s.op = .encodeStream) ∧ (s.mode = .buffer → s.op = .encodeBuffer)

/-- The error record holds an error exactly as 60_exceptions.md R220 tabulates it: the code with the state it
is detected in, codes 12 to 16 with ENCODE_BUFFER only. -/
def errorRecordTabulated (s : State) : Prop :=
  s.err = true →
    ((s.errState = .preflight ∧ s.errCode ≠ .none ∧ s.errCode ≠ .skipEndOfInput
        ∧ s.errCode ≠ .engineInit ∧ s.errCode ≠ .outputOverflow)
      ∨ (s.errState = .skip ∧ s.errCode = .skipEndOfInput)
      ∨ (s.errState = .begin ∧ s.errCode = .engineInit)
      ∨ (s.errState = .finish ∧ s.errCode = .outputOverflow))
    ∧ (s.errOp = .encodeStream ∨ s.errOp = .encodeBuffer)
    ∧ (12 ≤ s.errCode.code.toNat → s.errOp = .encodeBuffer)

/-- The configuration has passed the checks of pre-flight on its codes and dimensions
(44_orchestrator.md R173). -/
def cfgReady (cfg : CfgRegs) : Prop := cfg.codesValid = true ∧ 1 ≤ cfg.w ∧ 1 ≤ cfg.h

/-- The counters n and c where they may lie in the current state: 0..NBR and 0..NBC (10_state.md R27), with
the bounds that the step rules keep in each state. DONE says nothing of them: an ESTIMATE may have latched
another configuration there (44_orchestrator.md R172), and n and c are set to 0 before they are used again
(R170). -/
def blockCountersInRange (s : State) : Prop :=
  match s.fsm with
  | .done => True
  | .idle | .preflight => s.n = 0 ∧ s.c = 0
  | .error => s.n ≤ s.cfg.nbr ∧ s.c ≤ s.cfg.nbc
  | .skip | .begin => cfgReady s.cfg ∧ s.n = 0 ∧ s.c = 0
  | .await => cfgReady s.cfg ∧ s.n ≤ s.cfg.nbr ∧ s.c ≤ s.cfg.nbc
  | .finish => cfgReady s.cfg ∧ s.n = s.cfg.nbr ∧ s.c ≤ s.cfg.nbc
  | .reading =>
    cfgReady s.cfg ∧ s.n < s.cfg.nbr ∧ s.c ≤ s.cfg.nbc ∧ s.ri < s.rlist.length
      ∧ s.rlist.length ≤ s.cfg.bh + 1
  | .unpacking | .demosaic => cfgReady s.cfg ∧ s.n < s.cfg.nbr ∧ s.c ≤ s.cfg.nbc
  | .emitting => cfgReady s.cfg ∧ s.n < s.cfg.nbr ∧ s.c < s.cfg.nbc

/-- The counters lie where 10_state.md R27 says: ri in every state, n and c in every state but DONE. -/
def countersInRange (s : State) : Prop := s.ri ≤ s.rlist.length ∧ blockCountersInRange s

/-- A window row that has been written in this block row: W samples. -/
def rowWritten (s : State) (r : Nat) : Prop :=
  ∃ row, Table.get r s.win = some row ∧ row.length = s.cfg.w

/-- The carry-over and lookahead rows that block row n restores are there (44_orchestrator.md R181,
R185). -/
def historyKept (s : State) (n : Nat) : Prop :=
  (n = 0 → s.carry = none ∧ s.look = none)
  ∧ (0 < n → ∃ row, s.carry = some row ∧ row.length = s.cfg.w)
  ∧ (0 < n → n < s.cfg.nbr → ∃ row, s.look = some row ∧ row.length = s.cfg.w)

/-- The restored rows are in the window and the read list is block row n's (44_orchestrator.md R181). -/
def blockRowOpened (s : State) : Prop :=
  s.rlist = s.readList
  ∧ (s.n = 0 → s.look = none)
  ∧ (0 < s.n → s.look ≠ none ∧ rowWritten s (s.cfg.y0 s.n - 1) ∧ rowWritten s (s.cfg.y0 s.n))

/-- Every element that a later step of the block row reads has been written in the current encode, or is
still to be written before it is read (10_state.md R31; 44_orchestrator.md R189). -/
def windowWritten (s : State) : Prop :=
  match s.fsm with
  | .idle | .done | .error | .finish => True
  | .preflight | .skip | .begin => s.carry = none ∧ s.look = none
  | .await => historyKept s s.n
  | .reading =>
    blockRowOpened s ∧ ∀ j, j < s.ri → ∀ r, s.rlist[j]? = some r → ∃ b, Table.get r s.raw = some b
  | .unpacking => blockRowOpened s ∧ ∀ r ∈ s.rlist, ∃ b, Table.get r s.raw = some b
  | .demosaic =>
    ∀ r, s.cfg.y0 s.n ≤ r + 1 → r ≤ s.cfg.y1 s.n → r < s.cfg.h → rowWritten s r
  | .emitting =>
    historyKept s (s.n + 1) ∧ s.strip.length = s.cfg.bh ∧ ∀ row ∈ s.strip, row.length = s.cfg.pitch

/-! ## Work left -/

/-- The core steps of one block row, at most: AWAIT, BH + 1 reads, UNPACK, DEMOSAIC, one EMIT per block
column. -/
def rowSteps (cfg : CfgRegs) : Nat := 1 + (cfg.bh + 1) + 1 + 1 + cfg.nbc

/-- The core steps from AWAIT of block row n to the end, at most. -/
def stepsFromAwait (cfg : CfgRegs) (n : Nat) : Nat := 2 + (cfg.nbr - n) * rowSteps cfg

/-- The core steps from the acceptance of an encode to its end, at most: a function of cfg alone
(44_orchestrator.md R196; 70_reset_and_hazards.md R256). -/
def stepBound (cfg : CfgRegs) : Nat := cfg.skipLines.toNat + 3 + stepsFromAwait cfg 0

/-- The core steps that the running command still takes, at most. -/
def stepsLeft (s : State) : Nat :=
  match s.fsm with
  | .idle | .done | .error => 0
  | .preflight => stepBound s.cfg
  | .skip => s.skipLeft.toNat + 2 + stepsFromAwait s.cfg 0
  | .begin => 1 + stepsFromAwait s.cfg 0
  | .await => stepsFromAwait s.cfg s.n
  | .reading => (s.rlist.length - s.ri) + 2 + s.cfg.nbc + stepsFromAwait s.cfg (s.n + 1)
  | .unpacking => 2 + s.cfg.nbc + stepsFromAwait s.cfg (s.n + 1)
  | .demosaic => 1 + s.cfg.nbc + stepsFromAwait s.cfg (s.n + 1)
  | .emitting => (s.cfg.nbc - s.c) + stepsFromAwait s.cfg (s.n + 1)
  | .finish => 1

end Sys2Proof.Machine
end

