-- ==== Sys2Proof/Certificates/Slice0/Obligations.lean ====
section
/-! DEFINITION. The statements for the provers, from the numbered rules of spec/. -/

section
open Sys2Proof Sys2Proof.Machine

/-! ## Decoding and stepping -/

/-- The encoder and the decoder agree on every well-formed instruction, every operand at every value; and
whatever the decoder accepts is a well-formed instruction (30_encoding.md R70-R80). -/
def Obligations.DecodeOfEncode : Prop :=
  (∀ i : Instr, i.wellFormed = true → decode (encode i) = .ok i)
  ∧ ∀ (p : Presented) (i : Instr), decode p = .ok i → i.wellFormed = true

/-- A few words written out from 30_encoding.md R70-R80. -/
def Obligations.SampleWordsDecode : Prop :=
  decode (.cmd 0xFFFFFFF1#32) = .ok .encodeStream
  ∧ decode (.cmd 0x0000000F#32) = .ok (.cmdReserved 15#4)
  ∧ decode (.bus ⟨true, 0x18, 32, 0x10201#32⟩) = .ok (.hostWrite 0x18#8 0x10201#32)
  ∧ decode (.fmtsel (.unpacker [0x12#8]) 0x00010201#32 0#16) = .ok (.unpackRaw10p [0x12#8])
  ∧ decode (.fmtsel (.blackLevel true [7#16]) 0x00040000#32 64#16) = .ok (.blcSub2 [7#16])
  ∧ decode (.fmtsel (.rowConverter 3) 0x00010201#32 0#16) = .ok (.csc420Odd 3)
  ∧ decode (.cls 0b101#3 1 0) = .ok (.dmGRrow 1 0)
  ∧ decode (.state 0x00000501#32) = .ok .stepRead

/-- Which operation each latched FORMAT word selects for each datapath unit (30_encoding.md R72, R74,
R75, R79): PIXFMT is bits 2..0, SUBSAMP bits 9..8, FAST_EN bit 16, BL_EN bit 18. A unit the word does not
select is refused (notes/assumptions/30.md). -/
def Obligations.FormatWordSelects : Prop :=
  ∀ (f : Word) (bl : BitVec 16) (b : List Byte) (u : List Sample) (x y : Nat) (p : Rgb16) (q q' : Rgb8)
    (l : Byte),
    (f.toNat % 8 = 0 → decode (.fmtsel (.unpacker b) f bl) = .ok (.unpackRaw8 b))
    ∧ (f.toNat % 8 = 1 → decode (.fmtsel (.unpacker b) f bl) = .ok (.unpackRaw10p b))
    ∧ (f.toNat % 8 = 2 → decode (.fmtsel (.unpacker b) f bl) = .ok (.unpackRaw12p b))
    ∧ (f.toNat % 8 = 3 → decode (.fmtsel (.unpacker b) f bl) = .ok (.unpackRaw10 b))
    ∧ (f.toNat % 8 = 4 → decode (.fmtsel (.unpacker b) f bl) = .ok (.unpackRaw12 b))
    ∧ (f.toNat % 8 = 5 → decode (.fmtsel (.unpacker b) f bl) = .ok (.unpackRaw16 b))
    ∧ (6 ≤ f.toNat % 8 → decode (.fmtsel (.unpacker b) f bl)
        = .ok (.pixfmtReserved (BitVec.ofNat 3 (f.toNat % 8))))
    ∧ (f.toNat / 2 ^ 18 % 2 = 0 ∨ bl = 0#16 → ∀ two,
        decode (.fmtsel (.blackLevel two u) f bl) = .ok (.blcBypass u))
    ∧ (f.toNat / 2 ^ 18 % 2 = 1 → bl ≠ 0#16 →
        decode (.fmtsel (.blackLevel false u) f bl) = .ok (.blcSub u)
        ∧ decode (.fmtsel (.blackLevel true u) f bl) = .ok (.blcSub2 u))
    ∧ decode (.fmtsel (.cfaTable x y) f bl) = .ok (.cfaColor x y)
    ∧ (f.toNat / 2 ^ 16 % 2 = 1 →
        decode (.fmtsel (.whiteBalance p) f bl) = .ok (.wbNorm p)
        ∧ decode (.fmtsel (.pixelCsc q) f bl) = .ok (.cscPixel q)
        ∧ decode (.fmtsel (.reference x y) f bl) = .error .unitNotSelected)
    ∧ (f.toNat / 2 ^ 16 % 2 = 0 →
        decode (.fmtsel (.whiteBalance p) f bl) = .error .unitNotSelected
        ∧ decode (.fmtsel (.pixelCsc q) f bl) = .error .unitNotSelected
        ∧ decode (.fmtsel (.pairCsc q q') f bl) = .error .unitNotSelected
        ∧ decode (.fmtsel (.reference x y) f bl) = .ok (.ref x y))
    ∧ (f.toNat / 2 ^ 16 % 2 = 1 → f.toNat / 2 ^ 8 % 4 = 1 ∨ f.toNat / 2 ^ 8 % 4 = 2 →
        decode (.fmtsel (.pairCsc q q') f bl) = .ok (.pairChroma q q'))
    ∧ (f.toNat / 2 ^ 16 % 2 = 1 → f.toNat / 2 ^ 8 % 4 = 0 ∨ f.toNat / 2 ^ 8 % 4 = 3 →
        decode (.fmtsel (.pairCsc q q') f bl) = .error .unitNotSelected)
    ∧ (f.toNat / 2 ^ 8 % 4 = 0 → decode (.fmtsel (.rowConverter y) f bl) = .ok (.csc444 y))
    ∧ (f.toNat / 2 ^ 8 % 4 = 1 → decode (.fmtsel (.rowConverter y) f bl) = .ok (.csc422 y))
    ∧ (f.toNat / 2 ^ 8 % 4 = 2 → y % 2 = 0 →
        decode (.fmtsel (.rowConverter y) f bl) = .ok (.csc420Even y))
    ∧ (f.toNat / 2 ^ 8 % 4 = 2 → y % 2 = 1 →
        decode (.fmtsel (.rowConverter y) f bl) = .ok (.csc420Odd y))
    ∧ (f.toNat / 2 ^ 8 % 4 = 3 → decode (.fmtsel (.rowConverter y) f bl) = .ok .subsampReserved)
    ∧ decode (.fmtsel (.toneTable l) f bl) = .ok (.toneLut l)

/-- A step runs what its turn presents: the turn is taken off the list and the decoded instruction is run on
the state that is left, nothing else around it; what the decoder rejects is refused (30_encoding.md,
opening; notes/assumptions/5.md). -/
def Obligations.StepRunsDecoded : Prop :=
  ∀ (s : State) (t : Turn) (rest : List Turn) (p : Presented),
    s.turns = t :: rest →
    (t = .core ∧ p = .state s.statusWord
      ∨ (∃ a, t = .host a ∧ p = .bus a)
      ∨ (∃ d, t = .command d ∧ p = .cmd d)
      ∨ (∃ u, t = .datapath u ∧ p = .fmtsel u s.cfg.format s.cfg.bl)
      ∨ (∃ x y, t = .pixel x y ∧ p = .cls (pixelClass s.cfg.pattern y x) x y)) →
    (∀ i, decode p = .ok i → step s = exec i { s with turns := rest })
    ∧ (∀ r, decode p = .error r → step s = .refused (.rejected r))

/-- The core's own step is the one its state selects; in IDLE, DONE and ERROR it takes none: the WAIT of each
of these states changes nothing (30_encoding.md R80). That the core moves when its turn is next, and when
no turn is listed, is the model's own choice of a schedule (DESIGN CHOICE, notes/assumptions/5.md). -/
def Obligations.CoreStepSelectedByState : Prop :=
  (∀ (s : State) (code : BitVec 4), code.toNat = 0 ∨ code.toNat = 10 ∨ code.toNat = 11 →
    exec (.wait code) s = .next s)
  ∧ ∀ s : State, s.turns = [] ∨ (∃ rest, s.turns = .core :: rest) →
    (s.fsm = .preflight → step s = exec .stepPreflight { s with turns := s.turns.tail })
    ∧ (s.fsm = .skip → step s = exec .stepSkip { s with turns := s.turns.tail })
    ∧ (s.fsm = .begin → step s = exec .stepBegin { s with turns := s.turns.tail })
    ∧ (s.fsm = .await → step s = exec .stepAwait { s with turns := s.turns.tail })
    ∧ (s.fsm = .reading → step s = exec .stepRead { s with turns := s.turns.tail })
    ∧ (s.fsm = .unpacking → step s = exec .stepUnpack { s with turns := s.turns.tail })
    ∧ (s.fsm = .demosaic → step s = exec .stepDemosaic { s with turns := s.turns.tail })
    ∧ (s.fsm = .emitting → step s = exec .stepEmit { s with turns := s.turns.tail })
    ∧ (s.fsm = .finish → step s = exec .stepFinish { s with turns := s.turns.tail })
    ∧ (s.fsm = .idle ∨ s.fsm = .done ∨ s.fsm = .error →
        step s = .next { s with turns := s.turns.tail })

/-! ## Reset -/

/-- The state right after reset (10_state.md R36, with the reset values of R23). -/
def Obligations.ResetState : Prop :=
  (∀ offset : BitVec 8, State.reset.readReg offset =
    if offset = 0x28#8 ∨ offset = 0x2C#8 ∨ offset = 0x30#8 then 0x00000100#32
    else if offset = 0x34#8 then 0xFFFFFFFF#32 else 0#32)
  ∧ State.reset.fsm = .idle ∧ State.reset.busy = false ∧ State.reset.done = false
  ∧ State.reset.err = false ∧ State.reset.rej = false
  ∧ State.reset.carry = none ∧ State.reset.look = none
  ∧ State.reset.n = 0 ∧ State.reset.c = 0 ∧ State.reset.ri = 0
  ∧ State.reset.skipLeft = 0#32 ∧ State.reset.inPos = 0#32 ∧ State.reset.outPos = 0#32
  ∧ State.reset.ovf = false ∧ State.reset.mode = .stream ∧ State.reset.op = .none
  ∧ State.reset.cfg = State.reset.regs

/-- Reset asserted by the platform, in any state: the core's registers, flags and counters take their reset
values, no event is issued, and bus memory outside the output range of an abandoned buffer-mode encode
holds what it held (70_reset_and_hazards.md R250; that the other agents go on is
notes/assumptions/14.md). -/
def Obligations.PlatformReset : Prop :=
  ∀ (s : State) (rest : List Turn), s.turns = .reset :: rest →
    ∃ t, step s = .next t
      ∧ t.regs = State.reset.regs ∧ t.cfg = State.reset.cfg ∧ t.estBytes = 0#32 ∧ t.outSize = 0#32
      ∧ t.progress = 0#32 ∧ t.errCode = .none ∧ t.errOp = .none ∧ t.errState = .idle
      ∧ t.fsm = .idle ∧ t.done = false ∧ t.err = false ∧ t.rej = false
      ∧ t.mode = .stream ∧ t.op = .none ∧ t.skipLeft = 0#32 ∧ t.n = 0 ∧ t.c = 0 ∧ t.ri = 0
      ∧ t.carry = none ∧ t.look = none ∧ t.inPos = 0#32 ∧ t.outPos = 0#32 ∧ t.ovf = false
      ∧ t.events = s.events ∧ t.turns = rest
      ∧ ∀ a, ¬ (s.busy = true ∧ s.mode = .buffer ∧ s.cfg.inOutput a = true) →
          t.byteAt a = s.byteAt a ∧ t.readByte a = s.readByte a

/-! ## Commands -/

/-- NOP has no effect; CMD 4..15 in every state, and CMD 1..3 while BUSY = 1, set REJ and change nothing
else (44_orchestrator.md R171). -/
def Obligations.NopAndRejectedCommands : Prop :=
  ∀ s : State,
    exec .nop s = .next s
    ∧ (∀ code, (Instr.cmdReserved code).wellFormed = true →
        exec (.cmdReserved code) s = .next { s with rej := true })
    ∧ (s.busy = true →
        exec .encodeStream s = .next { s with rej := true }
        ∧ exec .encodeBuffer s = .next { s with rej := true }
        ∧ exec .estimate s = .next { s with rej := true })

/-- The acceptance of an encode while BUSY = 0: exactly the assignments of 44_orchestrator.md R170, every
other field unchanged. The engine session bit is left open here (notes/assumptions/23.md). -/
def Obligations.EncodeAccepted : Prop :=
  ∀ s : State, s.busy = false →
    (∃ t, exec .encodeStream s = .next t ∧ t = { s with
        cfg := s.regs, mode := .stream, op := .encodeStream, done := false, err := false, rej := false,
        carry := none, look := none, n := 0, c := 0, inPos := 0#32, outPos := 0#32, ovf := false,
        progress := 0#32, fsm := .preflight, engineOpen := t.engineOpen })
    ∧ (∃ t, exec .encodeBuffer s = .next t ∧ t = { s with
        cfg := s.regs, mode := .buffer, op := .encodeBuffer, done := false, err := false, rej := false,
        carry := none, look := none, n := 0, c := 0, inPos := 0#32, outPos := 0#32, ovf := false,
        progress := 0#32, fsm := .preflight, engineOpen := t.engineOpen })

/-- ESTIMATE while BUSY = 0: EST_BYTES takes EST of the registers, 0 where they are not valid
(44_orchestrator.md R172; EST itself is EstimateFormula). -/
def Obligations.EstimateAccepted : Prop :=
  ∀ s : State, s.busy = false →
    exec .estimate s = .next { s with
      cfg := s.regs, done := true, err := false, rej := false, fsm := .done,
      estBytes :=
        if s.regs.pixfmt.toNat ≤ 5 ∧ s.regs.subsamp.toNat ≤ 2 ∧ s.regs.q.toNat ≤ 100
          ∧ 1 ≤ s.regs.w ∧ 1 ≤ s.regs.h ∧ 1 ≤ s.regs.stride ∧ s.regs.stride ≤ 2 ^ 31 - 1
        then BitVec.ofNat 32 s.regs.est else 0#32 }

/-- EST(cfg) from the block geometry of 10_state.md R32, the stride of 40_unpack.md R100 and the five sizes
of 44_orchestrator.md R174 (R175). The geometry is the spec's own decision [from general knowledge]. -/
def Obligations.EstimateFormula : Prop :=
  ∀ cfg : CfgRegs,
    (cfg.pixfmt.toNat = 0 → cfg.stride = cfg.w)
    ∧ (cfg.pixfmt.toNat = 1 → cfg.stride = 5 * ((cfg.w + 3) / 4))
    ∧ (cfg.pixfmt.toNat = 2 → cfg.stride = 3 * ((cfg.w + 1) / 2))
    ∧ (3 ≤ cfg.pixfmt.toNat → cfg.pixfmt.toNat ≤ 5 → cfg.stride = 2 * cfg.w)
    ∧ (cfg.subsamp.toNat = 0 → cfg.est = min (2 ^ 32 - 1)
        (9 * cfg.stride + 20 * cfg.w + 8 * ((cfg.w + 7) / 8 * 8) * 3 + 2 * cfg.w + 2 * cfg.w))
    ∧ (cfg.subsamp.toNat = 1 → cfg.est = min (2 ^ 32 - 1)
        (9 * cfg.stride + 20 * cfg.w + 8 * ((cfg.w + 15) / 16 * 16) * 2 + 2 * cfg.w + 2 * cfg.w))
    ∧ (cfg.subsamp.toNat = 2 → cfg.est = min (2 ^ 32 - 1)
        (17 * cfg.stride + 36 * cfg.w + 16 * ((cfg.w + 15) / 16 * 16) * 2 + 2 * cfg.w + 2 * cfg.w))

/-- EST depends on W, PIXFMT and SUBSAMP alone and does not decrease in W (44_orchestrator.md R195; over
the formats and subsamplings the spec defines). -/
def Obligations.EstimateMonotone : Prop :=
  ∀ cfg cfg' : CfgRegs, cfg.pixfmt.toNat ≤ 5 → cfg.subsamp.toNat ≤ 2 →
    cfg'.pixfmt = cfg.pixfmt → cfg'.subsamp = cfg.subsamp →
    (cfg.w ≤ cfg'.w → cfg.est ≤ cfg'.est) ∧ (cfg.w = cfg'.w → cfg.est = cfg'.est)

/-- A host write to CTRL presents the command in its bits 3..0 and ignores bits 31..4 (30_encoding.md R70;
20_memory.md R50). -/
def Obligations.CtrlWritePresentsCommand : Prop :=
  ∀ (s : State) (data : Word),
    (data.toNat % 16 = 0 → decode (.cmd data) = .ok .nop
      ∧ exec (.hostWrite 0x00#8 data) s = exec .nop s)
    ∧ (data.toNat % 16 = 1 → decode (.cmd data) = .ok .encodeStream
      ∧ exec (.hostWrite 0x00#8 data) s = exec .encodeStream s)
    ∧ (data.toNat % 16 = 2 → decode (.cmd data) = .ok .encodeBuffer
      ∧ exec (.hostWrite 0x00#8 data) s = exec .encodeBuffer s)
    ∧ (data.toNat % 16 = 3 → decode (.cmd data) = .ok .estimate
      ∧ exec (.hostWrite 0x00#8 data) s = exec .estimate s)
    ∧ (4 ≤ data.toNat % 16 →
      decode (.cmd data) = .ok (.cmdReserved (BitVec.ofNat 4 (data.toNat % 16)))
      ∧ exec (.hostWrite 0x00#8 data) s
          = exec (.cmdReserved (BitVec.ofNat 4 (data.toNat % 16))) s)

/-! ## Host accesses -/

/-- A host read returns the register's word and changes nothing in the core: the STATUS, ERR_CODE and
ERR_INFO fields at their bits with the codes that are tabulated for them, the fifteen configuration
registers, EST_BYTES, OUT_SIZE, PROGRESS, and 0 for CTRL and every unlisted offset (10_state.md R23, R25,
R27; 60_exceptions.md R220; 20_memory.md R50; where the host's word is held is notes/assumptions/20.md). -/
def Obligations.HostReadReturnsRegister : Prop :=
  [Fsm.idle, .preflight, .skip, .begin, .await, .reading, .unpacking, .demosaic, .emitting, .finish,
    .done, .error].map (fun f => (f.code.toNat, f.busy))
    = [(0, false), (1, true), (2, true), (3, true), (4, true), (5, true), (6, true), (7, true),
       (8, true), (9, true), (10, false), (11, false)]
  ∧ [EncOp.none, .encodeStream, .encodeBuffer].map (fun o => o.code.toNat) = [0, 1, 2]
  ∧ [ErrCode.none, .invalidArguments, .invalidDimensions, .invalidStride, .memoryCeiling,
      .skipEndOfInput, .engineInit, .allocRaw, .allocUnpack, .allocOut, .allocCarry, .allocLook,
      .outputOverflow, .nullOutSize, .nullInput, .nullOutput, .zeroCapacity].map (fun e => e.code.toNat)
    = List.range 17
  ∧ ∀ (s : State) (offset : BitVec 8), offset.toNat % 4 = 0 →
    ∃ v : Word, exec (.hostRead offset) s = .next { s with hostData := v }
      ∧ (offset = 0x04#8 → v.toNat = s.busy.toNat + 2 * s.done.toNat + 4 * s.err.toNat
          + 8 * s.rej.toNat + 256 * s.fsm.code.toNat)
      ∧ (offset = 0x08#8 → v.toNat = s.errCode.code.toNat)
      ∧ (offset = 0x0C#8 → v.toNat = s.errOp.code.toNat + 256 * s.errState.code.toNat)
      ∧ (offset = 0x10#8 → v = s.regs.width) ∧ (offset = 0x14#8 → v = s.regs.height)
      ∧ (offset = 0x18#8 → v = s.regs.format) ∧ (offset = 0x1C#8 → v = s.regs.quality)
      ∧ (offset = 0x20#8 → v = s.regs.skipLines) ∧ (offset = 0x24#8 → v = s.regs.blackLevel)
      ∧ (offset = 0x28#8 → v = s.regs.wbR) ∧ (offset = 0x2C#8 → v = s.regs.wbG)
      ∧ (offset = 0x30#8 → v = s.regs.wbB) ∧ (offset = 0x34#8 → v = s.regs.memLimit)
      ∧ (offset = 0x38#8 → v = s.estBytes)
      ∧ (offset = 0x3C#8 → v = s.regs.inAddr) ∧ (offset = 0x40#8 → v = s.regs.inLen)
      ∧ (offset = 0x44#8 → v = s.regs.outAddr) ∧ (offset = 0x48#8 → v = s.regs.outCap)
      ∧ (offset = 0x4C#8 → v = s.regs.outSizeAddr)
      ∧ (offset = 0x50#8 → v = s.outSize) ∧ (offset = 0x54#8 → v = s.progress)
      ∧ (offset = 0x00#8 ∨ 0x58 ≤ offset.toNat → v = 0#32)

/-- A host write other than to CTRL changes exactly the register written, in exactly the bits of its fields:
read back, a writable register gives the written bits with its reserved bits 0, every other offset reads
as before, and nothing but the configuration registers changes, the latched cfg least of all
(10_state.md R23, R24; 30_encoding.md R77; 70_reset_and_hazards.md R254). -/
def Obligations.HostWriteUpdatesRegister : Prop :=
  ∀ (s : State) (offset : BitVec 8) (data : Word), offset.toNat % 4 = 0 → offset ≠ 0x00#8 →
    let mask : Word :=
      if offset = 0x10#8 ∨ offset = 0x14#8 ∨ offset = 0x20#8 ∨ offset = 0x34#8 ∨ offset = 0x3C#8
        ∨ offset = 0x40#8 ∨ offset = 0x44#8 ∨ offset = 0x48#8 ∨ offset = 0x4C#8 then 0xFFFFFFFF#32
      else if offset = 0x18#8 then 0x00070337#32
      else if offset = 0x1C#8 then 0x000000FF#32
      else if offset = 0x24#8 then 0x0000FFFF#32
      else if offset = 0x28#8 ∨ offset = 0x2C#8 ∨ offset = 0x30#8 then 0x8000FFFF#32
      else 0#32
    ∃ t, exec (.hostWrite offset data) s = .next t ∧ t = { s with regs := t.regs }
      ∧ ∀ o, t.readReg o = if o = offset ∧ mask ≠ 0#32 then data &&& mask else s.readReg o

/-- An access of another width, or at an offset that is no multiple of 4, is refused, at the decoder and, for
the offset, in the meaning too (20_memory.md R55). -/
def Obligations.MalformedAccessRefused : Prop :=
  (∀ (s : State) (a : HostAccess) (rest : List Turn),
    a.width ≠ 32 ∨ a.offset % 4 ≠ 0 → s.turns = .host a :: rest →
    step s = .refused (.rejected .malformedHostAccess))
  ∧ (∀ (s : State) (offset : BitVec 8) (data : Word), offset.toNat % 4 ≠ 0 →
    exec (.hostRead offset) s = .refused .malformedHostAccess
    ∧ exec (.hostWrite offset data) s = .refused .malformedHostAccess)

/-- Little-endian everywhere: a register seen as four bytes, a 16-bit sample word of a raw row, and the
four bytes that store OUT_SIZE (20_memory.md R54). -/
def Obligations.LittleEndian : Prop :=
  (∀ (s : State) (offset : BitVec 8), (s.readReg offset).toNat
    = (s.regByte offset 0).toNat + 2 ^ 8 * (s.regByte offset 1).toNat
      + 2 ^ 16 * (s.regByte offset 2).toNat + 2 ^ 24 * (s.regByte offset 3).toNat)
  ∧ (∀ (byte : Nat → Byte) (i : Nat), (wordSample byte i).toNat
    = (byte (2 * i)).toNat + 2 ^ 8 * (byte (2 * i + 1)).toNat)
  ∧ (∀ v : Word, ∃ b0 b1 b2 b3 : Byte, leBytes v = [b0, b1, b2, b3]
    ∧ v.toNat = b0.toNat + 2 ^ 8 * b1.toNat + 2 ^ 16 * b2.toNat + 2 ^ 24 * b3.toNat)

/-! ## Unpacking and black level -/

/-- The four formats without packing: RAW8 takes the byte, RAW10 and RAW12 the low bits of the
little-endian word, RAW16 the word; W samples, nothing else of the state changes; and the PIXFMT code that
selects each (40_unpack.md R103, R106, R107, R108). -/
def Obligations.UnpackDirect : Prop :=
  ∀ (s : State) (b : List Byte),
    (s.cfg.w ≤ b.length → ∃ u : List Sample,
      exec (.unpackRaw8 b) s = .next { s with dp := { s.dp with u := u } } ∧ u.length = s.cfg.w
      ∧ ∀ i, i < s.cfg.w → ((u[i]?).getD 0).toNat = ((b[i]?).getD 0).toNat)
    ∧ (2 * s.cfg.w ≤ b.length → ∃ u : List Sample,
      exec (.unpackRaw10 b) s = .next { s with dp := { s.dp with u := u } } ∧ u.length = s.cfg.w
      ∧ ∀ i, i < s.cfg.w → ((u[i]?).getD 0).toNat
          = (((b[2 * i]?).getD 0).toNat + 256 * ((b[2 * i + 1]?).getD 0).toNat) % 2 ^ 10)
    ∧ (2 * s.cfg.w ≤ b.length → ∃ u : List Sample,
      exec (.unpackRaw12 b) s = .next { s with dp := { s.dp with u := u } } ∧ u.length = s.cfg.w
      ∧ ∀ i, i < s.cfg.w → ((u[i]?).getD 0).toNat
          = (((b[2 * i]?).getD 0).toNat + 256 * ((b[2 * i + 1]?).getD 0).toNat) % 2 ^ 12)
    ∧ (2 * s.cfg.w ≤ b.length → ∃ u : List Sample,
      exec (.unpackRaw16 b) s = .next { s with dp := { s.dp with u := u } } ∧ u.length = s.cfg.w
      ∧ ∀ i, i < s.cfg.w → ((u[i]?).getD 0).toNat
          = ((b[2 * i]?).getD 0).toNat + 256 * ((b[2 * i + 1]?).getD 0).toNat)
    ∧ ∀ (f : Word) (bl : BitVec 16),
      (f.toNat % 8 = 0 → decode (.fmtsel (.unpacker b) f bl) = .ok (.unpackRaw8 b))
      ∧ (f.toNat % 8 = 3 → decode (.fmtsel (.unpacker b) f bl) = .ok (.unpackRaw10 b))
      ∧ (f.toNat % 8 = 4 → decode (.fmtsel (.unpacker b) f bl) = .ok (.unpackRaw12 b))
      ∧ (f.toNat % 8 = 5 → decode (.fmtsel (.unpacker b) f bl) = .ok (.unpackRaw16 b))

/-- The packed formats: four samples in five bytes, two samples in three (40_unpack.md R104, R105; the
layouts are the spec's own decision [from general knowledge]). -/
def Obligations.UnpackPacked : Prop :=
  ∀ (s : State) (b : List Byte),
    (5 * ((s.cfg.w + 3) / 4) ≤ b.length → ∃ u : List Sample,
      exec (.unpackRaw10p b) s = .next { s with dp := { s.dp with u := u } } ∧ u.length = s.cfg.w
      ∧ ∀ g k, k < 4 → 4 * g + k < s.cfg.w → ((u[4 * g + k]?).getD 0).toNat
          = 4 * ((b[5 * g + k]?).getD 0).toNat + ((b[5 * g + 4]?).getD 0).toNat / 4 ^ k % 4)
    ∧ (3 * ((s.cfg.w + 1) / 2) ≤ b.length → ∃ u : List Sample,
      exec (.unpackRaw12p b) s = .next { s with dp := { s.dp with u := u } } ∧ u.length = s.cfg.w
      ∧ ∀ g k, k < 2 → 2 * g + k < s.cfg.w → ((u[2 * g + k]?).getD 0).toNat
          = 16 * ((b[3 * g + k]?).getD 0).toNat + ((b[3 * g + 2]?).getD 0).toNat / 16 ^ k % 16)

/-- For each of the six operations: every sample is below 2^N, a row of zero bytes gives zero samples, and
bytes past the row's stride are not read (40_unpack.md R101, R102). -/
def Obligations.UnpackContract : Prop :=
  ∀ (s t : State) (b extra : List Byte) (op : List Byte → Instr) (depth need : Nat),
    (op, depth, need) ∈ [(Instr.unpackRaw8, 8, s.cfg.w), (Instr.unpackRaw10p, 10, 5 * ((s.cfg.w + 3) / 4)),
      (Instr.unpackRaw12p, 12, 3 * ((s.cfg.w + 1) / 2)), (Instr.unpackRaw10, 10, 2 * s.cfg.w),
      (Instr.unpackRaw12, 12, 2 * s.cfg.w), (Instr.unpackRaw16, 16, 2 * s.cfg.w)] →
    exec (op b) s = .next t →
    (∀ v ∈ t.dp.u, v.toNat < 2 ^ depth)
    ∧ (need ≤ b.length → exec (op (b ++ extra)) s = .next t)
    ∧ (need ≤ b.length → (∀ v ∈ b, v = 0#8) → ∀ v ∈ t.dp.u, v = 0#16)

/-- The black-level operations: bypass leaves the samples as they are; the scalar and the two-lane form both
subtract BL from every sample, a sample not above BL giving 0 (Nat subtraction), for every row length,
odd ones included; and the BL_EN and BL that select each (41_black_level.md R120, R121, R122, which speak of
the W samples of a row). That a list of another length, which only an operation run alone is given, is
corrected in the same way is the model's choice (DESIGN CHOICE, notes/assumptions/22.md). -/
def Obligations.BlackLevelSaturates : Prop :=
  ∀ (s : State) (u : List Sample),
    exec (.blcBypass u) s = .next { s with dp := { s.dp with u' := u } }
    ∧ ∃ v : List Sample,
        exec (.blcSub u) s = .next { s with dp := { s.dp with u' := v } }
        ∧ exec (.blcSub2 u) s = .next { s with dp := { s.dp with u' := v } }
        ∧ v.length = u.length
        ∧ (∀ i, i < u.length → ((v[i]?).getD 0).toNat = ((u[i]?).getD 0).toNat - s.cfg.bl.toNat)
        ∧ ∀ (f : Word) (bl : BitVec 16),
          (f.toNat / 2 ^ 18 % 2 = 0 ∨ bl = 0#16 → ∀ two,
            decode (.fmtsel (.blackLevel two u) f bl) = .ok (.blcBypass u))
          ∧ (f.toNat / 2 ^ 18 % 2 = 1 → bl ≠ 0#16 →
            decode (.fmtsel (.blackLevel false u) f bl) = .ok (.blcSub u)
            ∧ decode (.fmtsel (.blackLevel true u) f bl) = .ok (.blcSub2 u))

/-! ## Demosaic and white balance -/

/-- The colour table of the four Bayer patterns, as (pattern, y mod 2, x mod 2), and the operation that
reads it (42_demosaic.md R130; the table is the spec's own decision [from general knowledge]). -/
def Obligations.ColourAtPosition : Prop :=
  (∀ (s : State) (x y : Nat), exec (.cfaColor x y) s
    = .next { s with dp := { s.dp with color := cfa s.cfg.pattern y x } })
  ∧ ∀ (p : BitVec 2) (y x : Nat),
    ((p.toNat, y % 2, x % 2) ∈ [(0, 0, 0), (1, 1, 1), (2, 0, 1), (3, 1, 0)] → cfa p y x = .red)
    ∧ ((p.toNat, y % 2, x % 2) ∈ [(0, 1, 1), (1, 0, 0), (2, 1, 0), (3, 0, 1)] → cfa p y x = .blue)
    ∧ ((p.toNat, y % 2, x % 2) ∈ [(0, 0, 1), (0, 1, 0), (1, 0, 1), (1, 1, 0), (2, 0, 0), (2, 1, 1),
        (3, 0, 0), (3, 1, 1)] → cfa p y x = .green)

/-- Even rows are red rows for RGGB and GRBG, odd rows for BGGR and GBRG, and the class of a pixel selects
the demosaic operation by its colour and its row (42_demosaic.md R131; 30_encoding.md R78). -/
def Obligations.PixelClassSelects : Prop :=
  ∀ (p : BitVec 2) (y x : Nat),
    (redRow p y = true ↔
      (y % 2 = 0 ∧ (p.toNat = 0 ∨ p.toNat = 2)) ∨ (y % 2 = 1 ∧ (p.toNat = 1 ∨ p.toNat = 3)))
    ∧ (cfa p y x = .red → decode (.cls (pixelClass p y x) x y) = .ok (.dmR x y))
    ∧ (cfa p y x = .blue → decode (.cls (pixelClass p y x) x y) = .ok (.dmB x y))
    ∧ (cfa p y x = .green → redRow p y = true →
        decode (.cls (pixelClass p y x) x y) = .ok (.dmGRrow x y))
    ∧ (cfa p y x = .green → redRow p y = false →
        decode (.cls (pixelClass p y x) x y) = .ok (.dmGBrow x y))

/-- Red and blue pixels: the pixel's own channel is its sample, green is the mean of the horizontal and
vertical neighbours inside the image, the third channel that of the diagonal ones, each divided by the
number of neighbours there are (no neighbour: 0, as a division by 0 is here); and the pixel classes
(42_demosaic.md R134, R135, with R132 and R133 for the neighbours and the mean). That the same formula is
applied at a pixel of another class, which no step presents, is the model's choice (DESIGN CHOICE,
notes/assumptions/36.md). -/
def Obligations.DemosaicRedBlue : Prop :=
  ∀ (s : State) (x y : Nat), x < s.cfg.w → y < s.cfg.h →
    let S : Nat → Nat → Nat := fun y x => (s.winSample y x).toNat
    let left := if 0 < x then 1 else 0
    let right := if x + 1 < s.cfg.w then 1 else 0
    let up := if 0 < y then 1 else 0
    let down := if y + 1 < s.cfg.h then 1 else 0
    let green := (left * S y (x - 1) + right * S y (x + 1) + up * S (y - 1) x + down * S (y + 1) x)
      / (left + right + up + down)
    let other := (left * up * S (y - 1) (x - 1) + left * down * S (y + 1) (x - 1)
      + right * up * S (y - 1) (x + 1) + right * down * S (y + 1) (x + 1))
      / (left * up + left * down + right * up + right * down)
    ∃ g o : Sample, g.toNat = green ∧ o.toNat = other
      ∧ exec (.dmR x y) s = .next { s with dp := { s.dp with rgb := ⟨s.winSample y x, g, o⟩ } }
      ∧ exec (.dmB x y) s = .next { s with dp := { s.dp with rgb := ⟨o, g, s.winSample y x⟩ } }
      ∧ decode (.cls 0b000#3 x y) = .ok (.dmR x y) ∧ decode (.cls 0b100#3 x y) = .ok (.dmR x y)
      ∧ decode (.cls 0b010#3 x y) = .ok (.dmB x y) ∧ decode (.cls 0b110#3 x y) = .ok (.dmB x y)

/-- Green pixels: in a red row red is the mean of the horizontal neighbours and blue that of the vertical
ones, in a blue row the other way round; and the pixel classes (42_demosaic.md R136, R137, with R132 and
R133 for the neighbours and the mean). That the same formula is applied at a pixel of another class, which no
step presents, is the model's choice (DESIGN CHOICE, notes/assumptions/36.md). -/
def Obligations.DemosaicGreen : Prop :=
  ∀ (s : State) (x y : Nat), x < s.cfg.w → y < s.cfg.h →
    let S : Nat → Nat → Nat := fun y x => (s.winSample y x).toNat
    let left := if 0 < x then 1 else 0
    let right := if x + 1 < s.cfg.w then 1 else 0
    let up := if 0 < y then 1 else 0
    let down := if y + 1 < s.cfg.h then 1 else 0
    ∃ hor ver : Sample,
      hor.toNat = (left * S y (x - 1) + right * S y (x + 1)) / (left + right)
      ∧ ver.toNat = (up * S (y - 1) x + down * S (y + 1) x) / (up + down)
      ∧ exec (.dmGRrow x y) s = .next { s with dp := { s.dp with rgb := ⟨hor, s.winSample y x, ver⟩ } }
      ∧ exec (.dmGBrow x y) s = .next { s with dp := { s.dp with rgb := ⟨ver, s.winSample y x, hor⟩ } }
      ∧ decode (.cls 0b101#3 x y) = .ok (.dmGRrow x y) ∧ decode (.cls 0b001#3 x y) = .ok (.dmGBrow x y)

/-- White balance: gain by WB_EN and OVR, one exact product, one shift by 8 + (N - 8), clamp to 255; FAST_EN
selects it (42_demosaic.md R140, R141, R142). -/
def Obligations.WhiteBalanceNormalises : Prop :=
  ∀ (s : State) (p : Rgb16) (depth : Nat),
    (s.cfg.pixfmt.toNat, depth) ∈ [(0, 8), (1, 10), (2, 12), (3, 10), (4, 12), (5, 16)] →
    let gain : Word → BitVec 16 → Nat := fun reg default =>
      if s.cfg.format.toNat / 2 ^ 17 % 2 = 0 then 256
      else if reg.toNat / 2 ^ 31 = 1 then reg.toNat % 2 ^ 16 else default.toNat
    ∃ q : Rgb8, exec (.wbNorm p) s = .next { s with dp := { s.dp with rgb8 := q } }
      ∧ q.r.toNat = min 255 (p.r.toNat * gain s.cfg.wbR Config.wbDefault.r / 2 ^ depth)
      ∧ q.g.toNat = min 255 (p.g.toNat * gain s.cfg.wbG Config.wbDefault.g / 2 ^ depth)
      ∧ q.b.toNat = min 255 (p.b.toNat * gain s.cfg.wbB Config.wbDefault.b / 2 ^ depth)
      ∧ ∀ (f : Word) (bl : BitVec 16), f.toNat / 2 ^ 16 % 2 = 1 →
        decode (.fmtsel (.whiteBalance p) f bl) = .ok (.wbNorm p)

/-- RGB8(x, y) is white balance applied to the result of the demosaic operation that the pixel's class
selects; a padded column W <= x < Wpad repeats the last real one (42_demosaic.md R143). That a column past
the padding does so too, and that every column is column 0 where W is 0, is the model's choice (DESIGN CHOICE,
notes/assumptions/22.md). -/
def Obligations.ColourImage : Prop :=
  ∀ (s : State) (x y : Nat),
    (x < s.cfg.w → ∀ (i : Instr) (t u : State),
      decode (.cls (pixelClass s.cfg.pattern y x) x y) = .ok i → exec i s = .next t →
      exec (.wbNorm t.dp.rgb) t = .next u → s.rgb8At x y = u.dp.rgb8)
    ∧ (s.cfg.w ≤ x → s.rgb8At x y = s.rgb8At (s.cfg.w - 1) y)

/-! ## Colour conversion -/

/-- The tone table gives its entry, whatever the table is (43_color_convert.md R150); the colour conversion
of one pixel is exact on integers, `/` rounding toward minus infinity, and a grey pixel keeps its level and
has chroma 128 (R151; the coefficients are the spec's own decision [from general knowledge]). -/
def Obligations.PixelColourConversion : Prop :=
  (∀ (s : State) (l : Byte),
    exec (.toneLut l) s = .next { s with dp := { s.dp with luma := Config.toneLut l } })
  ∧ ∀ (s : State) (p : Rgb8),
    let r : Int := p.r.toNat
    let g : Int := p.g.toNat
    let b : Int := p.b.toNat
    ∃ v : Ycc, exec (.cscPixel p) s = .next { s with dp := { s.dp with ycc := v } }
      ∧ (v.y.toNat : Int) = max 0 (min 255 ((77 * r + 150 * g + 29 * b + 128) / 256))
      ∧ (v.cb.toNat : Int) = max 0 (min 255 ((-43 * r - 85 * g + 128 * b + 128) / 256 + 128))
      ∧ (v.cr.toNat : Int) = max 0 (min 255 ((128 * r - 107 * g - 21 * b + 128) / 256 + 128))
      ∧ (p.r = p.g → p.g = p.b → v = ⟨p.g, 128#8, 128#8⟩)

/-- The chroma of a pixel pair; equal pixels have the chroma of one (43_color_convert.md R155). -/
def Obligations.PairChromaOfTwoPixels : Prop :=
  ∀ (s : State) (p0 p1 : Rgb8),
    let r : Int := p0.r.toNat + p1.r.toNat
    let g : Int := p0.g.toNat + p1.g.toNat
    let b : Int := p0.b.toNat + p1.b.toNat
    ∃ v : Chroma, exec (.pairChroma p0 p1) s = .next { s with dp := { s.dp with chroma := v } }
      ∧ (v.cb.toNat : Int) = max 0 (min 255 ((-43 * r - 85 * g + 128 * b + 256) / 512 + 128))
      ∧ (v.cr.toNat : Int) = max 0 (min 255 ((128 * r - 107 * g - 21 * b + 256) / 512 + 128))
      ∧ (p0 = p1 → ∀ t, exec (.cscPixel p0) s = .next t → v = ⟨t.dp.ycc.cb, t.dp.ycc.cr⟩)

/-- The reference datapath: its values for a pixel and for its pair lie within 2 of the FAST values of the
same contexts; an equal context gives equal pixel values, and equal contexts of a pair's two pixels give
equal chroma (43_color_convert.md R160, R161; how the model holds the parameter to the law is
notes/assumptions/11.md, what a column past the padding is taken as is its choice, notes/assumptions/22.md). -/
def Obligations.ReferenceWithinTolerance : Prop :=
  ∀ (s : State) (x y : Nat),
    ∃ (v : Ycc) (c : Chroma),
      exec (.ref x y) s = .next { s with dp := { s.dp with ycc := v, chroma := c } }
      ∧ ((v.y.toNat : Int) - (cscPixel (s.rgb8At x y)).y.toNat).natAbs ≤ 2
      ∧ ((v.cb.toNat : Int) - (cscPixel (s.rgb8At x y)).cb.toNat).natAbs ≤ 2
      ∧ ((v.cr.toNat : Int) - (cscPixel (s.rgb8At x y)).cr.toNat).natAbs ≤ 2
      ∧ ((c.cb.toNat : Int) - (pairChroma (s.rgb8At (2 * (x / 2)) y)
          (s.rgb8At (2 * (x / 2) + 1) y)).cb.toNat).natAbs ≤ 2
      ∧ ((c.cr.toNat : Int) - (pairChroma (s.rgb8At (2 * (x / 2)) y)
          (s.rgb8At (2 * (x / 2) + 1) y)).cr.toNat).natAbs ≤ 2
      ∧ ∀ (s' t' : State) (x' y' : Nat), exec (.ref x' y') s' = .next t' →
          (s'.pixelCtx x' y' = s.pixelCtx x y → t'.dp.ycc = v)
          ∧ (s'.pixelCtx (2 * (x' / 2)) y' = s.pixelCtx (2 * (x / 2)) y →
              s'.pixelCtx (2 * (x' / 2) + 1) y' = s.pixelCtx (2 * (x / 2) + 1) y → t'.dp.chroma = c)

/-- A 4:4:4 output row: Wpad triplets Y', Cb, Cr, the tone table on the luma only; in the FAST datapath they
are the pixel's own conversion, in the REF datapath what the REF operation gives for the pixel
(43_color_convert.md R150, R152, R153, R158, R160). -/
def Obligations.RowOf444 : Prop :=
  ∀ (s : State) (y : Nat), ∃ row : List Byte,
    exec (.csc444 y) s = .next { s with dp := { s.dp with row := row } }
    ∧ row.length = 3 * s.cfg.wpad
    ∧ (∀ x, x < s.cfg.wpad →
        row[3 * x]? = some (Config.toneLut (s.yccAt x y).y)
        ∧ row[3 * x + 1]? = some (s.yccAt x y).cb ∧ row[3 * x + 2]? = some (s.yccAt x y).cr
        ∧ (s.cfg.fastEn = true → s.yccAt x y = cscPixel (s.rgb8At x y))
        ∧ (s.cfg.fastEn = false → ∀ t, exec (.ref x y) s = .next t → s.yccAt x y = t.dp.ycc))
    ∧ (s.cfg.subsamp.toNat = 0 → ∀ above, s.outRow y above = row)

/-- A 4:2:2 output row, and an even 4:2:0 row, which is the same: one group Y0', Cb, Y1', Cr per pixel pair,
in the FAST datapath from the pixels' own conversions and the pair's chroma, in the REF datapath from what
the REF operation gives at either pixel of the pair (43_color_convert.md R150, R154, R156, R158, R160). -/
def Obligations.RowOf422 : Prop :=
  ∀ (s : State) (y : Nat), ∃ row : List Byte,
    exec (.csc422 y) s = .next { s with dp := { s.dp with row := row } }
    ∧ (y % 2 = 0 → exec (.csc420Even y) s = .next { s with dp := { s.dp with row := row } })
    ∧ row.length = 4 * (s.cfg.wpad / 2)
    ∧ (∀ k, k < s.cfg.wpad / 2 →
        row[4 * k]? = some (Config.toneLut (s.yccAt (2 * k) y).y)
        ∧ row[4 * k + 1]? = some (s.chromaAt k y).cb
        ∧ row[4 * k + 2]? = some (Config.toneLut (s.yccAt (2 * k + 1) y).y)
        ∧ row[4 * k + 3]? = some (s.chromaAt k y).cr
        ∧ (s.cfg.fastEn = true →
            s.chromaAt k y = pairChroma (s.rgb8At (2 * k) y) (s.rgb8At (2 * k + 1) y)
            ∧ ∀ x, x / 2 = k → s.yccAt x y = cscPixel (s.rgb8At x y))
        ∧ (s.cfg.fastEn = false → ∀ (x : Nat) (t : State), x / 2 = k →
            exec (.ref x y) s = .next t → s.chromaAt k y = t.dp.chroma ∧ s.yccAt x y = t.dp.ycc))
    ∧ (s.cfg.subsamp.toNat = 1 ∨ (s.cfg.subsamp.toNat = 2 ∧ y % 2 = 0) →
        row.length = s.cfg.pitch ∧ ∀ above, s.outRow y above = row)

/-- An odd 4:2:0 row: its own lumas, the chroma bytes of the row above, whatever its own samples are
(43_color_convert.md R157, R158). Run alone, the row above is the strip's where the strip has it, and some
row of the same length where it does not (notes/assumptions/31.md). -/
def Obligations.RowOf420Odd : Prop :=
  ∀ (s : State) (y : Nat) (above : List Byte), y % 2 = 1 → s.cfg.subsamp.toNat = 2 →
    above.length = s.cfg.pitch →
    (s.cfg.y0 s.n < y → s.strip[y - 1 - s.cfg.y0 s.n]? = some above →
      exec (.csc420Odd y) s = .next { s with dp := { s.dp with row := s.outRow y above } })
    ∧ (¬ (s.cfg.y0 s.n < y ∧ y - 1 - s.cfg.y0 s.n < s.strip.length) → ∃ free : List Byte,
      free.length = s.cfg.pitch
      ∧ exec (.csc420Odd y) s = .next { s with dp := { s.dp with row := s.outRow y free } })
    ∧ (s.outRow y above).length = s.cfg.pitch
    ∧ ∀ k, k < s.cfg.wpad / 2 →
        (s.outRow y above)[4 * k]? = some (Config.toneLut (s.yccAt (2 * k) y).y)
        ∧ (s.outRow y above)[4 * k + 1]? = above[4 * k + 1]?
        ∧ (s.outRow y above)[4 * k + 2]? = some (Config.toneLut (s.yccAt (2 * k + 1) y).y)
        ∧ (s.outRow y above)[4 * k + 3]? = above[4 * k + 3]?

/-! ## The orchestrator's steps -/

/-- PIXFMT_RESERVED and SUBSAMP_RESERVED: error 1 in PREFLIGHT once the buffer-mode arguments are there,
the argument's own error where one is missing, no effect in any other state (30_encoding.md R81;
44_orchestrator.md R173; 00_scope.md R10; that the code acts alone is notes/assumptions/13.md). -/
def Obligations.ReservedCodesFail : Prop :=
  ∀ (s : State) (i : Instr), i = .subsampReserved ∨ (∃ code, i = .pixfmtReserved code) →
    let fail : ErrCode → State := fun e =>
      { s with errCode := e, errOp := s.op, errState := .preflight, err := true, fsm := .error,
               events := s.events ++ [.raised e] }
    (s.fsm ≠ .preflight → exec i s = .next s)
    ∧ (s.fsm = .preflight → exec i s = .next (fail
        (if s.mode = .buffer ∧ s.cfg.outSizeAddr = 0#32 then .nullOutSize
         else if s.mode = .buffer ∧ s.cfg.inAddr = 0#32 then .nullInput
         else if s.mode = .buffer ∧ s.cfg.outAddr = 0#32 then .nullOutput
         else if s.mode = .buffer ∧ s.cfg.outCap = 0#32 then .zeroCapacity
         else .invalidArguments)))

/-- STEP_PREFLIGHT: the checks of 44_orchestrator.md R173 and R176 in their order, the first that fails
raising its error; EST_BYTES written before the memory ceiling is checked; then SKIP, where the host keeps
its duty H2 of 70_reset_and_hazards.md R253: ranges disjoint, each byte of the input range readable and each
of the output range and of the OUT_SIZE word writable (nothing is said here of a launch that breaks it: see
StepKeepsBufferPositions and notes/assumptions/8.md). -/
def Obligations.PreflightChecks : Prop :=
  ∀ s : State,
    let fail : State → ErrCode → Result := fun s' e => .next
      { s' with errCode := e, errOp := s.op, errState := s.fsm, err := true, fsm := .error,
                events := s.events ++ [.raised e] }
    let answers : Prop := (∀ a, s.cfg.inInput a = true → s.readable a = true)
      ∧ ∀ a, s.cfg.inOutput a = true ∨ s.cfg.inOutSize a = true → s.writable a = true
    let s1 : State := { s with estBytes := BitVec.ofNat 32 s.cfg.est }
    ∃ last : Result,
      ((s.mode = .buffer → s.cfg.rangesDisjoint = true ∧ answers) →
        last = .next { s1 with skipLeft := s.cfg.skipLines, fsm := .skip })
      ∧ exec .stepPreflight s =
        if s.mode = .buffer ∧ s.cfg.outSizeAddr = 0#32 then fail s .nullOutSize
        else if s.mode = .buffer ∧ s.cfg.inAddr = 0#32 then fail s .nullInput
        else if s.mode = .buffer ∧ s.cfg.outAddr = 0#32 then fail s .nullOutput
        else if s.mode = .buffer ∧ s.cfg.outCap = 0#32 then fail s .zeroCapacity
        else if 5 < s.cfg.pixfmt.toNat ∨ 2 < s.cfg.subsamp.toNat ∨ 100 < s.cfg.q.toNat then
          fail s .invalidArguments
        else if s.mode = .buffer ∧ (2 ^ 32 < s.cfg.inAddr.toNat + s.cfg.inLen.toNat
            ∨ 2 ^ 32 < s.cfg.outAddr.toNat + s.cfg.outCap.toNat
            ∨ 2 ^ 32 < s.cfg.outSizeAddr.toNat + 4) then fail s .invalidArguments
        else if s.cfg.w = 0 ∨ s.cfg.h = 0 then fail s .invalidDimensions
        else if s.cfg.stride < 1 ∨ 2 ^ 31 - 1 < s.cfg.stride then fail s .invalidStride
        else if s.cfg.memLimit.toNat < s.cfg.est then fail s1 .memoryCeiling
        else if Config.capRaw.toNat < (s.cfg.bh + 1) * s.cfg.stride then fail s1 .allocRaw
        else if Config.capUnpack.toNat < (s.cfg.bh + 2) * s.cfg.w * 2 then fail s1 .allocUnpack
        else if Config.capOut.toNat < s.cfg.bh * s.cfg.wpad * s.cfg.bpp then fail s1 .allocOut
        else if Config.capCarry.toNat < s.cfg.w * 2 then fail s1 .allocCarry
        else if Config.capLook.toNat < s.cfg.w * 2 then fail s1 .allocLook
        else last

/-- One input request: in stream mode the source's oldest answer; in buffer mode the next bytes of the input
range as bus memory holds them, no access once it is used up (20_memory.md R57, R58; the source as a queue
is notes/assumptions/2.md, the order of a request and its access in the history notes/assumptions/4.md). -/
def Obligations.InputRequestAnswered : Prop :=
  ∀ (s : State) (n : Nat),
    (∀ (b : List Byte) (rest : List (List Byte)),
      s.mode = .stream → s.source = b :: rest → b.length ≤ n →
      s.streamRead n
        = .done (b, { s with source := rest, events := s.events ++ [.streamRead n b] }))
    ∧ (s.mode = .buffer → min n (s.cfg.inLen.toNat - s.inPos.toNat) = 0 →
      s.streamRead n = .done ([], { s with events := s.events ++ [.streamRead n []] }))
    ∧ (∀ b : List Byte, s.mode = .buffer → b ≠ [] →
      b.length = min n (s.cfg.inLen.toNat - s.inPos.toNat) →
      (∀ i, i < b.length → s.readable (s.cfg.inAddr.toNat + s.inPos.toNat + i) = true
        ∧ b[i]? = some (s.byteAt (s.cfg.inAddr.toNat + s.inPos.toNat + i))) →
      ∃ pos : Word, pos.toNat = s.inPos.toNat + b.length
        ∧ s.streamRead n = .done (b, { s with
            inPos := pos, events := s.events ++
              [.streamRead n b, .memRead (s.cfg.inAddr.toNat + s.inPos.toNat) b] }))

/-- STEP_SKIP: no line left goes to BEGIN; else one request of stride bytes, a short answer raising error 5,
a full one counting the line (44_orchestrator.md R178). -/
def Obligations.SkipStep : Prop :=
  ∀ s : State,
    (s.skipLeft = 0#32 → exec .stepSkip s = .next { s with fsm := .begin })
    ∧ (s.skipLeft ≠ 0#32 → ∀ (b : List Byte) (s1 : State),
        s.streamRead s.cfg.stride = .done (b, s1) →
        (b.length < s.cfg.stride → exec .stepSkip s = .next
          { s1 with errCode := .skipEndOfInput, errOp := s.op, errState := s.fsm, err := true,
                    fsm := .error, events := s1.events ++ [.raised .skipEndOfInput] })
        ∧ (b.length = s.cfg.stride → ∃ k : Word, k.toNat + 1 = s.skipLeft.toNat
          ∧ exec .stepSkip s = .next { s1 with skipLeft := k }))

/-- STEP_BEGIN: one EngineBegin with the latched size, layout, subsampling and tier, the layout code being
SUBSAMP for the three modes there are; ok opens the session and goes to AWAIT with n = 0, a failure raises
error 6 (44_orchestrator.md R180; 10_state.md R32, R35). The engine's writes during the call are answered
before it returns (44_orchestrator.md R192; that the call's event stands before theirs is
notes/assumptions/4.md, that a failure has none at all notes/assumptions/35.md). -/
def Obligations.BeginStep : Prop :=
  ∀ (s s1 : State) (a : EngineAnswer) (rest : List EngineAnswer),
    s.engine = a :: rest → (a.ok = false → a.writes = []) →
    State.outWrites a.writes { s with engine := rest, events := s.events ++
      [.engineBegin s.cfg.w s.cfg.h s.cfg.layout s.cfg.subsamp.toNat (Config.qTier s.cfg.q) a.ok] }
      = .done s1 →
    (s.cfg.subsamp.toNat ≤ 2 → s.cfg.layout = s.cfg.subsamp.toNat)
    ∧ (a.ok = true → exec .stepBegin s = .next { s1 with n := 0, engineOpen := true, fsm := .await })
    ∧ (a.ok = false → exec .stepBegin s = .next
        { s1 with errCode := .engineInit, errOp := s.op, errState := s.fsm, err := true, fsm := .error,
                  events := s1.events ++ [.raised .engineInit] })

/-- STEP_AWAIT: after the last block row FINISH; else the saved rows are put back at y0 - 1 and y0 and the
rows to read are first..y1 - 1, and y1 where the image goes on (44_orchestrator.md R181). What the
window rows that are not restored, the raw rows and the model's own counter `stale` become is left open
here. -/
def Obligations.AwaitStep : Prop :=
  ∀ s : State,
    (s.n = s.cfg.nbr → exec .stepAwait s = .next { s with fsm := .finish })
    ∧ (s.n ≠ s.cfg.nbr → ∃ t, exec .stepAwait s = .next t
      ∧ t = { s with win := t.win, raw := t.raw, stale := t.stale, rlist := t.rlist, ri := 0,
                     fsm := if t.rlist = [] then .unpacking else .reading }
      ∧ (∀ r, r ∈ t.rlist ↔
          (s.cfg.y0 s.n + (if s.look = none then 0 else 1) ≤ r ∧ r < s.cfg.y1 s.n)
          ∨ (r = s.cfg.y1 s.n ∧ s.cfg.y1 s.n < s.cfg.h))
      ∧ t.rlist.Pairwise (· < ·)
      ∧ (∀ row, s.look = some row → Table.get (s.cfg.y0 s.n) t.win = some row)
      ∧ (∀ row, s.carry = some row → 0 < s.cfg.y0 s.n →
          Table.get (s.cfg.y0 s.n - 1) t.win = some row))

/-- STEP_READ: one request of stride bytes for the next row of the list, zero-filled, then UNPACKING after
the last (44_orchestrator.md R182). -/
def Obligations.ReadStep : Prop :=
  ∀ (s s1 : State) (r : Nat) (b : List Byte),
    s.rlist[s.ri]? = some r → s.streamRead s.cfg.stride = .done (b, s1) →
    ∃ t, exec .stepRead s = .next t
      ∧ t = { s1 with raw := t.raw, ri := s.ri + 1,
                      fsm := if s.ri + 1 = s.rlist.length then .unpacking else s.fsm }
      ∧ ∀ q, Table.get q t.raw =
          if q = r then some (b ++ List.replicate (s.cfg.stride - b.length) 0#8)
          else Table.get q s.raw

/-- STEP_UNPACK: every row of the read list is unpacked and corrected by the operations that FORMAT and BL
select (either form of the correction), every other window row stays (44_orchestrator.md R183;
41_black_level.md R123; 30_encoding.md R79). -/
def Obligations.UnpackStep : Prop :=
  ∀ s : State, s.cfg.pixfmt.toNat ≤ 5 →
    ∃ t, exec .stepUnpack s = .next t ∧ t = { s with win := t.win, fsm := .demosaic }
      ∧ (∀ r, r ∉ s.rlist → Table.get r t.win = Table.get r s.win)
      ∧ ∀ (r : Nat) (b : List Byte) (twoLane : Bool) (i j : Instr) (t1 t2 : State),
          r ∈ s.rlist → Table.get r s.raw = some b →
          decode (.fmtsel (.unpacker b) s.cfg.format s.cfg.bl) = .ok i → exec i s = .next t1 →
          decode (.fmtsel (.blackLevel twoLane t1.dp.u) s.cfg.format s.cfg.bl) = .ok j →
          exec j t1 = .next t2 → Table.get r t.win = some t2.dp.u'

/-- STEP_DEMOSAIC: the strip holds OUT(y0), OUT(y0 + 1), …, each from the row above it, then copies of the
last; carry is the last row of the block row, look the first of the next where the image goes on
(44_orchestrator.md R184, R185). -/
def Obligations.DemosaicStep : Prop :=
  ∀ s : State, s.cfg.y0 s.n < s.cfg.y1 s.n →
    ∃ t, exec .stepDemosaic s = .next t
      ∧ t = { s with strip := t.strip, carry := t.carry, look := t.look, c := 0, fsm := .emitting }
      ∧ t.strip.length = s.cfg.bh
      ∧ (∀ above, t.strip[0]? = some (s.outRow (s.cfg.y0 s.n) above))
      ∧ (∀ i above, s.cfg.y0 s.n + i + 1 < s.cfg.y1 s.n → t.strip[i]? = some above →
          t.strip[i + 1]? = some (s.outRow (s.cfg.y0 s.n + i + 1) above))
      ∧ (∀ i, s.cfg.y1 s.n ≤ s.cfg.y0 s.n + i → i < s.cfg.bh →
          t.strip[i]? = t.strip[s.cfg.y1 s.n - s.cfg.y0 s.n - 1]?)
      ∧ (∀ row, Table.get (s.cfg.y1 s.n - 1) s.win = some row → row.length = s.cfg.w →
          t.carry = some row)
      ∧ (∀ row, s.cfg.y1 s.n < s.cfg.h → Table.get (s.cfg.y1 s.n) s.win = some row →
          row.length = s.cfg.w → t.look = some row)
      ∧ (s.cfg.h ≤ s.cfg.y1 s.n → t.look = none)

/-- STEP_EMIT: one EngineAddBlock with block c, BH rows of MW·BPP bytes cut from the strip, and the pitch;
after the last column PROGRESS and n rise by 1 and the core goes to AWAIT (44_orchestrator.md R186,
R187; that the call's event stands before those of its output is notes/assumptions/4.md). -/
def Obligations.EmitStep : Prop :=
  ∀ (s s1 : State) (a : EngineAnswer) (rest : List EngineAnswer) (block : List (List Byte)),
    s.engine = a :: rest → s.strip.length = s.cfg.bh →
    (∀ row ∈ s.strip, row.length = s.cfg.pitch) → s.c < s.cfg.nbc →
    block = s.strip.map (fun row => (row.drop (s.c * (s.cfg.mw * s.cfg.bpp))).take (s.cfg.mw * s.cfg.bpp)) →
    State.outWrites a.writes { s with engine := rest, events := s.events ++
      [.engineAddBlock block (s.cfg.wpad * s.cfg.bpp)] } = .done s1 →
    (∀ row ∈ block, row.length = s.cfg.mw * s.cfg.bpp)
    ∧ (s.c + 1 ≠ s.cfg.nbc → exec .stepEmit s = .next { s1 with c := s.c + 1 })
    ∧ (s.c + 1 = s.cfg.nbc → exec .stepEmit s = .next
        { s1 with c := s.c + 1, progress := s.progress + 1#32, n := s.n + 1, fsm := .await })

/-- STEP_FINISH: one EngineEnd; in stream mode DONE; in buffer mode error 12 after an overflow, else
OUT_SIZE and the little-endian word at OUT_SIZE_ADDR take the count and every other byte of memory stays
(44_orchestrator.md R190, R191; that the call's event stands before those of its output is
notes/assumptions/4.md). -/
def Obligations.FinishStep : Prop :=
  ∀ (s s1 : State) (a : EngineAnswer) (rest : List EngineAnswer),
    s.engine = a :: rest →
    State.outWrites a.writes { s with engine := rest, events := s.events ++ [.engineEnd] } = .done s1 →
    (s.mode = .stream → exec .stepFinish s = .next { s1 with done := true, fsm := .done })
    ∧ (s.mode = .buffer → s1.ovf = true → exec .stepFinish s = .next
        { s1 with errCode := .outputOverflow, errOp := s.op, errState := s.fsm, err := true,
                  fsm := .error, events := s1.events ++ [.raised .outputOverflow] })
    ∧ (s.mode = .buffer → s1.ovf = false →
        (∀ i, i < 4 → s.writable (s.cfg.outSizeAddr.toNat + i) = true) →
        ∃ t, exec .stepFinish s = .next t
          ∧ t = { s1 with outSize := s1.outPos, done := true, fsm := .done, mem := t.mem,
                          events := s1.events ++
                            [.memWrite s.cfg.outSizeAddr.toNat (leBytes s1.outPos)] }
          ∧ (∀ i, i < 4 →
              t.byteAt (s.cfg.outSizeAddr.toNat + i) = s1.outPos.extractLsb' (8 * i) 8)
          ∧ ∀ addr, addr < s.cfg.outSizeAddr.toNat ∨ s.cfg.outSizeAddr.toNat + 4 ≤ addr →
              t.byteAt addr = s1.byteAt addr ∧ t.readByte addr = s1.readByte addr)

/-- The steps that ask another agent complete once it has answered: in stream mode the source and the sink
within their duties, in buffer mode the input range mapped to readable memory and the other two to writable
memory (44_orchestrator.md R178-R191; 70_reset_and_hazards.md R253, duties H2 to H5; the queues of answers are
notes/assumptions/2.md and 3.md). -/
def Obligations.AnsweredStepsComplete : Prop :=
  ∀ (s : State) (a : EngineAnswer) (rest : List EngineAnswer),
    s.engine = a :: rest → (a.ok = false → a.writes = []) →
    (s.mode = .stream →
      (∃ (b : List Byte) (more : List (List Byte)), s.source = b :: more ∧ b.length ≤ s.cfg.stride)
      ∧ ∃ ks more : List Nat, s.sink = ks ++ more
        ∧ List.Forall₂ (fun (b : List Byte) (k : Nat) => k ≤ b.length) a.writes ks) →
    (s.mode = .buffer → s.cfg.rangesOk = true
      ∧ (∀ x, s.cfg.inInput x = true → s.readable x = true)
      ∧ ∀ x, s.cfg.inOutput x = true ∨ s.cfg.inOutSize x = true → s.writable x = true) →
    (∃ t, exec .stepSkip s = .next t
      ∧ (s.skipLeft = 0#32 → t.fsm = .begin)
      ∧ (s.skipLeft ≠ 0#32 → (t.fsm = .error ∧ t.errCode = .skipEndOfInput)
          ∨ (t.fsm = s.fsm ∧ t.skipLeft.toNat + 1 = s.skipLeft.toNat)))
    ∧ (∃ t, exec .stepBegin s = .next t
      ∧ (a.ok = true → t.fsm = .await) ∧ (a.ok = false → t.fsm = .error ∧ t.errCode = .engineInit))
    ∧ (s.ri < s.rlist.length → ∃ t, exec .stepRead s = .next t ∧ t.ri = s.ri + 1)
    ∧ (∃ t, exec .stepEmit s = .next t ∧ t.c = s.c + 1 ∧ t.engine = rest)
    ∧ (∃ t, exec .stepFinish s = .next t
      ∧ ((t.fsm = .done ∧ t.done = true)
        ∨ (s.mode = .buffer ∧ t.fsm = .error ∧ t.errCode = .outputOverflow)))

/-- Engine output in stream mode: every OutWrite goes to the sink unchanged and in order, a short or zero
count raises no error (20_memory.md R60; 44_orchestrator.md R192; the sink as a queue is
notes/assumptions/3.md). -/
def Obligations.StreamOutputForwarded : Prop :=
  ∀ (ws : List (List Byte)) (ks rest : List Nat) (s : State),
    s.mode = .stream → s.sink = ks ++ rest →
    List.Forall₂ (fun (b : List Byte) (k : Nat) => k ≤ b.length) ws ks →
    State.outWrites ws s
      = .done { s with sink := rest, events := s.events ++ List.zipWith Event.outWrite ws ks }

/-- Engine output in buffer mode: as many bytes as there is room for go to OUT_ADDR + out_pos, no access
where that is none, out_pos moves on, a byte left over sets ovf, every other byte of memory stays
(20_memory.md R59; the order of a request and its access in the history is notes/assumptions/4.md). -/
def Obligations.BufferOutputStored : Prop :=
  ∀ (s : State) (b : List Byte) (k base : Nat),
    s.mode = .buffer → k = min b.length (s.cfg.outCap.toNat - s.outPos.toNat) →
    base = s.cfg.outAddr.toNat + s.outPos.toNat →
    (∀ i, i < k → s.writable (base + i) = true) →
    ∃ t, s.outWrite b = .done t ∧ State.outWrites [b] s = .done t
      ∧ t = { s with mem := t.mem, outPos := t.outPos, ovf := s.ovf || decide (k < b.length),
                     events := s.events ++ (.outWrite b k ::
                       if k = 0 then [] else [.memWrite base (b.take k)]) }
      ∧ t.outPos.toNat = s.outPos.toNat + k
      ∧ (∀ i, i < k → some (t.byteAt (base + i)) = b[i]?)
      ∧ ∀ addr, addr < base ∨ base + k ≤ addr →
          t.byteAt addr = s.byteAt addr ∧ t.readByte addr = s.readByte addr

/-! ## The whole machine -/

/-- Only the error entry writes the error record, and it writes all of it: the running op, the state it is
raised in, ERR set, DONE, OUT_SIZE and PROGRESS kept, the state ERROR, and the raise the last event of its
step (60_exceptions.md R222; 10_state.md R34; 00_scope.md R10). -/
def Obligations.OnlyErrorEntryWritesRecord : Prop :=
  ∀ (i : Instr) (s t : State), exec i s = .next t →
    (t.errCode = s.errCode ∧ t.errOp = s.errOp ∧ t.errState = s.errState)
    ∨ (t.errCode ≠ .none ∧ t.errOp = s.op ∧ t.errState = s.fsm ∧ t.err = true ∧ t.fsm = .error
        ∧ t.done = s.done ∧ t.outSize = s.outSize ∧ t.progress = s.progress ∧ t.cfg = s.cfg
        ∧ t.events.getLast? = some (.raised t.errCode))

/-- While BUSY = 1 nothing the host does disturbs the encode: an access or a command changes at most REJ,
the configuration registers and the host's own read data, and no turn but a reset changes the latched
configuration or leaves the running states other than to DONE or ERROR (10_state.md R24;
44_orchestrator.md R171, R193; 70_reset_and_hazards.md R254). -/
def Obligations.BusyEncodeUndisturbed : Prop :=
  ∀ (s t : State) (m : Turn) (rest : List Turn),
    s.busy = true → s.turns = m :: rest → step s = .next t →
    ((∃ a, m = .host a) ∨ (∃ d, m = .command d) →
      t = { s with turns := rest, regs := t.regs, rej := t.rej, hostData := t.hostData })
    ∧ (m ≠ .reset → t.cfg = s.cfg ∧ t.mode = s.mode ∧ t.op = s.op
        ∧ (t.busy = true ∨ t.fsm = .done ∨ t.fsm = .error))

/-- In stream mode the core's step issues no bus access: memory stays as it is and the events it adds are
none of them MemRead or MemWrite (20_memory.md R52). -/
def Obligations.StreamModeNoBusAccess : Prop :=
  ∀ s t : State, s.mode = .stream → s.turns = [] ∨ (∃ rest, s.turns = .core :: rest) →
    step s = .next t →
    t.mem = s.mem ∧ ∃ added : List Event, t.events = s.events ++ added
      ∧ ∀ e ∈ added, (∀ a b, e ≠ .memRead a b) ∧ ∀ a b, e ≠ .memWrite a b

/-- In buffer mode the core's step stores only within the output range and the OUT_SIZE word
(20_memory.md R51). -/
def Obligations.BufferModeStoresInRange : Prop :=
  ∀ s t : State, s.busy = true → bufferPositionsInRange s →
    s.turns = [] ∨ (∃ rest, s.turns = .core :: rest) → step s = .next t →
    ∀ a, s.cfg.inOutput a = false → s.cfg.inOutSize a = false →
      t.byteAt a = s.byteAt a ∧ t.readByte a = s.readByte a

/-! ## Invariants that every step keeps -/

/-- Every step keeps bus memory in its canonical form: addresses strictly rising, no entry equal to what its
address holds unlisted. The form is the model's own representation of the 2^32 bytes of 20_memory.md R52
(DESIGN CHOICE, notes/assumptions/7.md). -/
def Obligations.StepKeepsMemoryCanonical : Prop :=
  ∀ s t : State, memoryCanonical s → step s = .next t → memoryCanonical t

/-- Every step keeps DONE and ERR exactly in the states DONE and ERROR, so never both 1, and the engine
session open in every state after BEGIN (10_state.md R26, R35). -/
def Obligations.StepKeepsFlagsAndSession : Prop :=
  ∀ s t : State, flagsFollowState s → sessionOpen s → step s = .next t →
    flagsFollowState t ∧ sessionOpen t ∧ ¬ (t.done = true ∧ t.err = true)

/-- Every step keeps the reserved bits of the registers and of the latched configuration 0
(10_state.md R23). -/
def Obligations.StepKeepsReservedBitsZero : Prop :=
  ∀ s t : State, reservedBitsZero s → step s = .next t → reservedBitsZero t

/-- Every step keeps a buffer-mode encode within its input and output ranges (20_memory.md R51), and the
ranges of an encode past pre-flight disjoint and mapped to memory that answers: a launch that breaks duty H2
gets no step out of pre-flight but an error's (R68; 70_reset_and_hazards.md R253; that the breach counts
there is notes/assumptions/8.md). So none of the core's own steps meets an address that does not answer. -/
def Obligations.StepKeepsBufferPositions : Prop :=
  ∀ s : State, bufferPositionsInRange s → rangesAnswer s →
    (∀ t, step s = .next t → bufferPositionsInRange t ∧ rangesAnswer t)
    ∧ (s.busy = true → s.turns = [] ∨ (∃ rest, s.turns = .core :: rest) →
        ∀ a, step s ≠ .fault (.busNoAnswer a))

/-- Every step keeps the error record as 60_exceptions.md R220 tabulates it while ERR = 1, and `op` the
running command's (10_state.md R27). -/
def Obligations.StepKeepsErrorRecordTabulated : Prop :=
  ∀ s t : State, opMatchesMode s → errorRecordTabulated s → step s = .next t →
    opMatchesMode t ∧ errorRecordTabulated t

/-- Every step keeps the counters where 10_state.md R27 says: ri within the read list in every state, n within
0..NBR and c within 0..NBC in every state but DONE (where an ESTIMATE may have latched another
configuration, 44_orchestrator.md R172), with the tighter bounds that each running state has. -/
def Obligations.StepKeepsCountersInRange : Prop :=
  ∀ s t : State, countersInRange s → step s = .next t → countersInRange t

/-- Every step keeps the window written: each row that a later step of the block row reads has been written
in this encode, so nothing stale is ever read (10_state.md R31; 44_orchestrator.md R189, which the spec
derives). -/
def Obligations.StepKeepsWindowWritten : Prop :=
  ∀ s t : State, countersInRange s → windowWritten s → step s = .next t → windowWritten t

/-- The invariants hold at reset. -/
def Obligations.ResetMeetsInvariants : Prop :=
  memoryCanonical State.reset ∧ flagsFollowState State.reset ∧ sessionOpen State.reset
  ∧ reservedBitsZero State.reset ∧ bufferPositionsInRange State.reset
  ∧ opMatchesMode State.reset ∧ errorRecordTabulated State.reset
  ∧ countersInRange State.reset ∧ windowWritten State.reset ∧ rangesAnswer State.reset

/-- The running command ends: every step of the core either waits for an answer, changing nothing but its
turn, or brings the encode nearer its end by a measure that at acceptance is a function of cfg alone; the
measure is 0 exactly where BUSY is 0 (44_orchestrator.md R196; 70_reset_and_hazards.md R256, derived by
the spec). -/
def Obligations.EveryStepNearsTheEnd : Prop :=
  (∀ s : State, countersInRange s → (stepsLeft s = 0 ↔ s.busy = false))
  ∧ (∀ s t : State, s.busy = false →
      exec .encodeStream s = .next t ∨ exec .encodeBuffer s = .next t →
      stepsLeft t = stepBound s.regs)
  ∧ ∀ s t : State, countersInRange s → s.busy = true →
      s.turns = [] ∨ (∃ rest, s.turns = .core :: rest) → step s = .next t →
      t = { s with turns := s.turns.tail } ∨ stepsLeft t < stepsLeft s

end
end

