-- ==== Sys2Proof/Laws/State.lean ====
section
/-! SUPPORT. What each update of the state leaves in each field: one lemma per field per update. -/

namespace Sys2Proof.Machine

/-! ## log: an event is recorded -/

@[simp] theorem State.log_regs (e : Event) (s : State) : (s.log e).regs = s.regs := rfl
@[simp] theorem State.log_estBytes (e : Event) (s : State) : (s.log e).estBytes = s.estBytes := rfl
@[simp] theorem State.log_outSize (e : Event) (s : State) : (s.log e).outSize = s.outSize := rfl
@[simp] theorem State.log_progress (e : Event) (s : State) : (s.log e).progress = s.progress := rfl
@[simp] theorem State.log_errCode (e : Event) (s : State) : (s.log e).errCode = s.errCode := rfl
@[simp] theorem State.log_errOp (e : Event) (s : State) : (s.log e).errOp = s.errOp := rfl
@[simp] theorem State.log_errState (e : Event) (s : State) : (s.log e).errState = s.errState := rfl
@[simp] theorem State.log_fsm (e : Event) (s : State) : (s.log e).fsm = s.fsm := rfl
@[simp] theorem State.log_done (e : Event) (s : State) : (s.log e).done = s.done := rfl
@[simp] theorem State.log_err (e : Event) (s : State) : (s.log e).err = s.err := rfl
@[simp] theorem State.log_rej (e : Event) (s : State) : (s.log e).rej = s.rej := rfl
@[simp] theorem State.log_cfg (e : Event) (s : State) : (s.log e).cfg = s.cfg := rfl
@[simp] theorem State.log_mode (e : Event) (s : State) : (s.log e).mode = s.mode := rfl
@[simp] theorem State.log_op (e : Event) (s : State) : (s.log e).op = s.op := rfl
@[simp] theorem State.log_skipLeft (e : Event) (s : State) : (s.log e).skipLeft = s.skipLeft := rfl
@[simp] theorem State.log_n (e : Event) (s : State) : (s.log e).n = s.n := rfl
@[simp] theorem State.log_c (e : Event) (s : State) : (s.log e).c = s.c := rfl
@[simp] theorem State.log_rlist (e : Event) (s : State) : (s.log e).rlist = s.rlist := rfl
@[simp] theorem State.log_ri (e : Event) (s : State) : (s.log e).ri = s.ri := rfl
@[simp] theorem State.log_raw (e : Event) (s : State) : (s.log e).raw = s.raw := rfl
@[simp] theorem State.log_win (e : Event) (s : State) : (s.log e).win = s.win := rfl
@[simp] theorem State.log_strip (e : Event) (s : State) : (s.log e).strip = s.strip := rfl
@[simp] theorem State.log_carry (e : Event) (s : State) : (s.log e).carry = s.carry := rfl
@[simp] theorem State.log_look (e : Event) (s : State) : (s.log e).look = s.look := rfl
@[simp] theorem State.log_inPos (e : Event) (s : State) : (s.log e).inPos = s.inPos := rfl
@[simp] theorem State.log_outPos (e : Event) (s : State) : (s.log e).outPos = s.outPos := rfl
@[simp] theorem State.log_ovf (e : Event) (s : State) : (s.log e).ovf = s.ovf := rfl
@[simp] theorem State.log_engineOpen (e : Event) (s : State) : (s.log e).engineOpen = s.engineOpen := rfl
@[simp] theorem State.log_mem (e : Event) (s : State) : (s.log e).mem = s.mem := rfl
@[simp] theorem State.log_regions (e : Event) (s : State) : (s.log e).regions = s.regions := rfl
@[simp] theorem State.log_renewed (e : Event) (s : State) : (s.log e).renewed = s.renewed := rfl
@[simp] theorem State.log_source (e : Event) (s : State) : (s.log e).source = s.source := rfl
@[simp] theorem State.log_sink (e : Event) (s : State) : (s.log e).sink = s.sink := rfl
@[simp] theorem State.log_engine (e : Event) (s : State) : (s.log e).engine = s.engine := rfl
@[simp] theorem State.log_events (e : Event) (s : State) : (s.log e).events = s.events ++ [e] := rfl
@[simp] theorem State.log_turns (e : Event) (s : State) : (s.log e).turns = s.turns := rfl
@[simp] theorem State.log_hostData (e : Event) (s : State) : (s.log e).hostData = s.hostData := rfl
@[simp] theorem State.log_dp (e : Event) (s : State) : (s.log e).dp = s.dp := rfl
@[simp] theorem State.log_stale (e : Event) (s : State) : (s.log e).stale = s.stale := rfl

/-! ## clearFlags: the flags are cleared -/

@[simp] theorem State.clearFlags_regs (s : State) : s.clearFlags.regs = s.regs := rfl
@[simp] theorem State.clearFlags_estBytes (s : State) : s.clearFlags.estBytes = s.estBytes := rfl
@[simp] theorem State.clearFlags_outSize (s : State) : s.clearFlags.outSize = s.outSize := rfl
@[simp] theorem State.clearFlags_progress (s : State) : s.clearFlags.progress = s.progress := rfl
@[simp] theorem State.clearFlags_errCode (s : State) : s.clearFlags.errCode = s.errCode := rfl
@[simp] theorem State.clearFlags_errOp (s : State) : s.clearFlags.errOp = s.errOp := rfl
@[simp] theorem State.clearFlags_errState (s : State) : s.clearFlags.errState = s.errState := rfl
@[simp] theorem State.clearFlags_fsm (s : State) : s.clearFlags.fsm = s.fsm := rfl
@[simp] theorem State.clearFlags_done (s : State) : s.clearFlags.done = false := rfl
@[simp] theorem State.clearFlags_err (s : State) : s.clearFlags.err = false := rfl
@[simp] theorem State.clearFlags_rej (s : State) : s.clearFlags.rej = false := rfl
@[simp] theorem State.clearFlags_cfg (s : State) : s.clearFlags.cfg = s.cfg := rfl
@[simp] theorem State.clearFlags_mode (s : State) : s.clearFlags.mode = s.mode := rfl
@[simp] theorem State.clearFlags_op (s : State) : s.clearFlags.op = s.op := rfl
@[simp] theorem State.clearFlags_skipLeft (s : State) : s.clearFlags.skipLeft = s.skipLeft := rfl
@[simp] theorem State.clearFlags_n (s : State) : s.clearFlags.n = s.n := rfl
@[simp] theorem State.clearFlags_c (s : State) : s.clearFlags.c = s.c := rfl
@[simp] theorem State.clearFlags_rlist (s : State) : s.clearFlags.rlist = s.rlist := rfl
@[simp] theorem State.clearFlags_ri (s : State) : s.clearFlags.ri = s.ri := rfl
@[simp] theorem State.clearFlags_raw (s : State) : s.clearFlags.raw = s.raw := rfl
@[simp] theorem State.clearFlags_win (s : State) : s.clearFlags.win = s.win := rfl
@[simp] theorem State.clearFlags_strip (s : State) : s.clearFlags.strip = s.strip := rfl
@[simp] theorem State.clearFlags_carry (s : State) : s.clearFlags.carry = s.carry := rfl
@[simp] theorem State.clearFlags_look (s : State) : s.clearFlags.look = s.look := rfl
@[simp] theorem State.clearFlags_inPos (s : State) : s.clearFlags.inPos = s.inPos := rfl
@[simp] theorem State.clearFlags_outPos (s : State) : s.clearFlags.outPos = s.outPos := rfl
@[simp] theorem State.clearFlags_ovf (s : State) : s.clearFlags.ovf = s.ovf := rfl
@[simp] theorem State.clearFlags_engineOpen (s : State) : s.clearFlags.engineOpen = s.engineOpen := rfl
@[simp] theorem State.clearFlags_mem (s : State) : s.clearFlags.mem = s.mem := rfl
@[simp] theorem State.clearFlags_regions (s : State) : s.clearFlags.regions = s.regions := rfl
@[simp] theorem State.clearFlags_renewed (s : State) : s.clearFlags.renewed = s.renewed := rfl
@[simp] theorem State.clearFlags_source (s : State) : s.clearFlags.source = s.source := rfl
@[simp] theorem State.clearFlags_sink (s : State) : s.clearFlags.sink = s.sink := rfl
@[simp] theorem State.clearFlags_engine (s : State) : s.clearFlags.engine = s.engine := rfl
@[simp] theorem State.clearFlags_events (s : State) : s.clearFlags.events = s.events := rfl
@[simp] theorem State.clearFlags_turns (s : State) : s.clearFlags.turns = s.turns := rfl
@[simp] theorem State.clearFlags_hostData (s : State) : s.clearFlags.hostData = s.hostData := rfl
@[simp] theorem State.clearFlags_dp (s : State) : s.clearFlags.dp = s.dp := rfl
@[simp] theorem State.clearFlags_stale (s : State) : s.clearFlags.stale = s.stale := rfl

/-! ## reject: a command is rejected -/

@[simp] theorem State.reject_regs (s : State) : s.reject.regs = s.regs := rfl
@[simp] theorem State.reject_estBytes (s : State) : s.reject.estBytes = s.estBytes := rfl
@[simp] theorem State.reject_outSize (s : State) : s.reject.outSize = s.outSize := rfl
@[simp] theorem State.reject_progress (s : State) : s.reject.progress = s.progress := rfl
@[simp] theorem State.reject_errCode (s : State) : s.reject.errCode = s.errCode := rfl
@[simp] theorem State.reject_errOp (s : State) : s.reject.errOp = s.errOp := rfl
@[simp] theorem State.reject_errState (s : State) : s.reject.errState = s.errState := rfl
@[simp] theorem State.reject_fsm (s : State) : s.reject.fsm = s.fsm := rfl
@[simp] theorem State.reject_done (s : State) : s.reject.done = s.done := rfl
@[simp] theorem State.reject_err (s : State) : s.reject.err = s.err := rfl
@[simp] theorem State.reject_rej (s : State) : s.reject.rej = true := rfl
@[simp] theorem State.reject_cfg (s : State) : s.reject.cfg = s.cfg := rfl
@[simp] theorem State.reject_mode (s : State) : s.reject.mode = s.mode := rfl
@[simp] theorem State.reject_op (s : State) : s.reject.op = s.op := rfl
@[simp] theorem State.reject_skipLeft (s : State) : s.reject.skipLeft = s.skipLeft := rfl
@[simp] theorem State.reject_n (s : State) : s.reject.n = s.n := rfl
@[simp] theorem State.reject_c (s : State) : s.reject.c = s.c := rfl
@[simp] theorem State.reject_rlist (s : State) : s.reject.rlist = s.rlist := rfl
@[simp] theorem State.reject_ri (s : State) : s.reject.ri = s.ri := rfl
@[simp] theorem State.reject_raw (s : State) : s.reject.raw = s.raw := rfl
@[simp] theorem State.reject_win (s : State) : s.reject.win = s.win := rfl
@[simp] theorem State.reject_strip (s : State) : s.reject.strip = s.strip := rfl
@[simp] theorem State.reject_carry (s : State) : s.reject.carry = s.carry := rfl
@[simp] theorem State.reject_look (s : State) : s.reject.look = s.look := rfl
@[simp] theorem State.reject_inPos (s : State) : s.reject.inPos = s.inPos := rfl
@[simp] theorem State.reject_outPos (s : State) : s.reject.outPos = s.outPos := rfl
@[simp] theorem State.reject_ovf (s : State) : s.reject.ovf = s.ovf := rfl
@[simp] theorem State.reject_engineOpen (s : State) : s.reject.engineOpen = s.engineOpen := rfl
@[simp] theorem State.reject_mem (s : State) : s.reject.mem = s.mem := rfl
@[simp] theorem State.reject_regions (s : State) : s.reject.regions = s.regions := rfl
@[simp] theorem State.reject_renewed (s : State) : s.reject.renewed = s.renewed := rfl
@[simp] theorem State.reject_source (s : State) : s.reject.source = s.source := rfl
@[simp] theorem State.reject_sink (s : State) : s.reject.sink = s.sink := rfl
@[simp] theorem State.reject_engine (s : State) : s.reject.engine = s.engine := rfl
@[simp] theorem State.reject_events (s : State) : s.reject.events = s.events := rfl
@[simp] theorem State.reject_turns (s : State) : s.reject.turns = s.turns := rfl
@[simp] theorem State.reject_hostData (s : State) : s.reject.hostData = s.hostData := rfl
@[simp] theorem State.reject_dp (s : State) : s.reject.dp = s.dp := rfl
@[simp] theorem State.reject_stale (s : State) : s.reject.stale = s.stale := rfl

/-! ## complete: a command completes -/

@[simp] theorem State.complete_regs (s : State) : s.complete.regs = s.regs := rfl
@[simp] theorem State.complete_estBytes (s : State) : s.complete.estBytes = s.estBytes := rfl
@[simp] theorem State.complete_outSize (s : State) : s.complete.outSize = s.outSize := rfl
@[simp] theorem State.complete_progress (s : State) : s.complete.progress = s.progress := rfl
@[simp] theorem State.complete_errCode (s : State) : s.complete.errCode = s.errCode := rfl
@[simp] theorem State.complete_errOp (s : State) : s.complete.errOp = s.errOp := rfl
@[simp] theorem State.complete_errState (s : State) : s.complete.errState = s.errState := rfl
@[simp] theorem State.complete_fsm (s : State) : s.complete.fsm = .done := rfl
@[simp] theorem State.complete_done (s : State) : s.complete.done = true := rfl
@[simp] theorem State.complete_err (s : State) : s.complete.err = s.err := rfl
@[simp] theorem State.complete_rej (s : State) : s.complete.rej = s.rej := rfl
@[simp] theorem State.complete_cfg (s : State) : s.complete.cfg = s.cfg := rfl
@[simp] theorem State.complete_mode (s : State) : s.complete.mode = s.mode := rfl
@[simp] theorem State.complete_op (s : State) : s.complete.op = s.op := rfl
@[simp] theorem State.complete_skipLeft (s : State) : s.complete.skipLeft = s.skipLeft := rfl
@[simp] theorem State.complete_n (s : State) : s.complete.n = s.n := rfl
@[simp] theorem State.complete_c (s : State) : s.complete.c = s.c := rfl
@[simp] theorem State.complete_rlist (s : State) : s.complete.rlist = s.rlist := rfl
@[simp] theorem State.complete_ri (s : State) : s.complete.ri = s.ri := rfl
@[simp] theorem State.complete_raw (s : State) : s.complete.raw = s.raw := rfl
@[simp] theorem State.complete_win (s : State) : s.complete.win = s.win := rfl
@[simp] theorem State.complete_strip (s : State) : s.complete.strip = s.strip := rfl
@[simp] theorem State.complete_carry (s : State) : s.complete.carry = s.carry := rfl
@[simp] theorem State.complete_look (s : State) : s.complete.look = s.look := rfl
@[simp] theorem State.complete_inPos (s : State) : s.complete.inPos = s.inPos := rfl
@[simp] theorem State.complete_outPos (s : State) : s.complete.outPos = s.outPos := rfl
@[simp] theorem State.complete_ovf (s : State) : s.complete.ovf = s.ovf := rfl
@[simp] theorem State.complete_engineOpen (s : State) : s.complete.engineOpen = s.engineOpen := rfl
@[simp] theorem State.complete_mem (s : State) : s.complete.mem = s.mem := rfl
@[simp] theorem State.complete_regions (s : State) : s.complete.regions = s.regions := rfl
@[simp] theorem State.complete_renewed (s : State) : s.complete.renewed = s.renewed := rfl
@[simp] theorem State.complete_source (s : State) : s.complete.source = s.source := rfl
@[simp] theorem State.complete_sink (s : State) : s.complete.sink = s.sink := rfl
@[simp] theorem State.complete_engine (s : State) : s.complete.engine = s.engine := rfl
@[simp] theorem State.complete_events (s : State) : s.complete.events = s.events := rfl
@[simp] theorem State.complete_turns (s : State) : s.complete.turns = s.turns := rfl
@[simp] theorem State.complete_hostData (s : State) : s.complete.hostData = s.hostData := rfl
@[simp] theorem State.complete_dp (s : State) : s.complete.dp = s.dp := rfl
@[simp] theorem State.complete_stale (s : State) : s.complete.stale = s.stale := rfl

/-! ## raiseErr: the error entry -/

@[simp] theorem State.raiseErr_regs (code : ErrCode) (s : State) : (s.raiseErr code).regs = s.regs := rfl
@[simp] theorem State.raiseErr_estBytes (code : ErrCode) (s : State) : (s.raiseErr code).estBytes = s.estBytes := rfl
@[simp] theorem State.raiseErr_outSize (code : ErrCode) (s : State) : (s.raiseErr code).outSize = s.outSize := rfl
@[simp] theorem State.raiseErr_progress (code : ErrCode) (s : State) : (s.raiseErr code).progress = s.progress := rfl
@[simp] theorem State.raiseErr_errCode (code : ErrCode) (s : State) : (s.raiseErr code).errCode = code := rfl
@[simp] theorem State.raiseErr_errOp (code : ErrCode) (s : State) : (s.raiseErr code).errOp = s.op := rfl
@[simp] theorem State.raiseErr_errState (code : ErrCode) (s : State) : (s.raiseErr code).errState = s.fsm := rfl
@[simp] theorem State.raiseErr_fsm (code : ErrCode) (s : State) : (s.raiseErr code).fsm = .error := rfl
@[simp] theorem State.raiseErr_done (code : ErrCode) (s : State) : (s.raiseErr code).done = s.done := rfl
@[simp] theorem State.raiseErr_err (code : ErrCode) (s : State) : (s.raiseErr code).err = true := rfl
@[simp] theorem State.raiseErr_rej (code : ErrCode) (s : State) : (s.raiseErr code).rej = s.rej := rfl
@[simp] theorem State.raiseErr_cfg (code : ErrCode) (s : State) : (s.raiseErr code).cfg = s.cfg := rfl
@[simp] theorem State.raiseErr_mode (code : ErrCode) (s : State) : (s.raiseErr code).mode = s.mode := rfl
@[simp] theorem State.raiseErr_op (code : ErrCode) (s : State) : (s.raiseErr code).op = s.op := rfl
@[simp] theorem State.raiseErr_skipLeft (code : ErrCode) (s : State) : (s.raiseErr code).skipLeft = s.skipLeft := rfl
@[simp] theorem State.raiseErr_n (code : ErrCode) (s : State) : (s.raiseErr code).n = s.n := rfl
@[simp] theorem State.raiseErr_c (code : ErrCode) (s : State) : (s.raiseErr code).c = s.c := rfl
@[simp] theorem State.raiseErr_rlist (code : ErrCode) (s : State) : (s.raiseErr code).rlist = s.rlist := rfl
@[simp] theorem State.raiseErr_ri (code : ErrCode) (s : State) : (s.raiseErr code).ri = s.ri := rfl
@[simp] theorem State.raiseErr_raw (code : ErrCode) (s : State) : (s.raiseErr code).raw = s.raw := rfl
@[simp] theorem State.raiseErr_win (code : ErrCode) (s : State) : (s.raiseErr code).win = s.win := rfl
@[simp] theorem State.raiseErr_strip (code : ErrCode) (s : State) : (s.raiseErr code).strip = s.strip := rfl
@[simp] theorem State.raiseErr_carry (code : ErrCode) (s : State) : (s.raiseErr code).carry = s.carry := rfl
@[simp] theorem State.raiseErr_look (code : ErrCode) (s : State) : (s.raiseErr code).look = s.look := rfl
@[simp] theorem State.raiseErr_inPos (code : ErrCode) (s : State) : (s.raiseErr code).inPos = s.inPos := rfl
@[simp] theorem State.raiseErr_outPos (code : ErrCode) (s : State) : (s.raiseErr code).outPos = s.outPos := rfl
@[simp] theorem State.raiseErr_ovf (code : ErrCode) (s : State) : (s.raiseErr code).ovf = s.ovf := rfl
@[simp] theorem State.raiseErr_engineOpen (code : ErrCode) (s : State) : (s.raiseErr code).engineOpen = s.engineOpen := rfl
@[simp] theorem State.raiseErr_mem (code : ErrCode) (s : State) : (s.raiseErr code).mem = s.mem := rfl
@[simp] theorem State.raiseErr_regions (code : ErrCode) (s : State) : (s.raiseErr code).regions = s.regions := rfl
@[simp] theorem State.raiseErr_renewed (code : ErrCode) (s : State) : (s.raiseErr code).renewed = s.renewed := rfl
@[simp] theorem State.raiseErr_source (code : ErrCode) (s : State) : (s.raiseErr code).source = s.source := rfl
@[simp] theorem State.raiseErr_sink (code : ErrCode) (s : State) : (s.raiseErr code).sink = s.sink := rfl
@[simp] theorem State.raiseErr_engine (code : ErrCode) (s : State) : (s.raiseErr code).engine = s.engine := rfl
@[simp] theorem State.raiseErr_events (code : ErrCode) (s : State) :
    (s.raiseErr code).events = s.events ++ [.raised code] := rfl
@[simp] theorem State.raiseErr_turns (code : ErrCode) (s : State) : (s.raiseErr code).turns = s.turns := rfl
@[simp] theorem State.raiseErr_hostData (code : ErrCode) (s : State) : (s.raiseErr code).hostData = s.hostData := rfl
@[simp] theorem State.raiseErr_dp (code : ErrCode) (s : State) : (s.raiseErr code).dp = s.dp := rfl
@[simp] theorem State.raiseErr_stale (code : ErrCode) (s : State) : (s.raiseErr code).stale = s.stale := rfl

/-! ## acceptEncode: an encode is accepted -/

@[simp] theorem State.acceptEncode_regs (m : Mode) (o : EncOp) (s : State) : (s.acceptEncode m o).regs = s.regs := rfl
@[simp] theorem State.acceptEncode_estBytes (m : Mode) (o : EncOp) (s : State) : (s.acceptEncode m o).estBytes = s.estBytes := rfl
@[simp] theorem State.acceptEncode_outSize (m : Mode) (o : EncOp) (s : State) : (s.acceptEncode m o).outSize = s.outSize := rfl
@[simp] theorem State.acceptEncode_progress (m : Mode) (o : EncOp) (s : State) : (s.acceptEncode m o).progress = 0#32 := rfl
@[simp] theorem State.acceptEncode_errCode (m : Mode) (o : EncOp) (s : State) : (s.acceptEncode m o).errCode = s.errCode := rfl
@[simp] theorem State.acceptEncode_errOp (m : Mode) (o : EncOp) (s : State) : (s.acceptEncode m o).errOp = s.errOp := rfl
@[simp] theorem State.acceptEncode_errState (m : Mode) (o : EncOp) (s : State) : (s.acceptEncode m o).errState = s.errState := rfl
@[simp] theorem State.acceptEncode_fsm (m : Mode) (o : EncOp) (s : State) : (s.acceptEncode m o).fsm = .preflight := rfl
@[simp] theorem State.acceptEncode_done (m : Mode) (o : EncOp) (s : State) : (s.acceptEncode m o).done = false := rfl
@[simp] theorem State.acceptEncode_err (m : Mode) (o : EncOp) (s : State) : (s.acceptEncode m o).err = false := rfl
@[simp] theorem State.acceptEncode_rej (m : Mode) (o : EncOp) (s : State) : (s.acceptEncode m o).rej = false := rfl
@[simp] theorem State.acceptEncode_cfg (m : Mode) (o : EncOp) (s : State) : (s.acceptEncode m o).cfg = s.regs := rfl
@[simp] theorem State.acceptEncode_mode (m : Mode) (o : EncOp) (s : State) : (s.acceptEncode m o).mode = m := rfl
@[simp] theorem State.acceptEncode_op (m : Mode) (o : EncOp) (s : State) : (s.acceptEncode m o).op = o := rfl
@[simp] theorem State.acceptEncode_skipLeft (m : Mode) (o : EncOp) (s : State) : (s.acceptEncode m o).skipLeft = s.skipLeft := rfl
@[simp] theorem State.acceptEncode_n (m : Mode) (o : EncOp) (s : State) : (s.acceptEncode m o).n = 0 := rfl
@[simp] theorem State.acceptEncode_c (m : Mode) (o : EncOp) (s : State) : (s.acceptEncode m o).c = 0 := rfl
@[simp] theorem State.acceptEncode_rlist (m : Mode) (o : EncOp) (s : State) : (s.acceptEncode m o).rlist = s.rlist := rfl
@[simp] theorem State.acceptEncode_ri (m : Mode) (o : EncOp) (s : State) : (s.acceptEncode m o).ri = s.ri := rfl
@[simp] theorem State.acceptEncode_raw (m : Mode) (o : EncOp) (s : State) : (s.acceptEncode m o).raw = s.raw := rfl
@[simp] theorem State.acceptEncode_win (m : Mode) (o : EncOp) (s : State) : (s.acceptEncode m o).win = s.win := rfl
@[simp] theorem State.acceptEncode_strip (m : Mode) (o : EncOp) (s : State) : (s.acceptEncode m o).strip = s.strip := rfl
@[simp] theorem State.acceptEncode_carry (m : Mode) (o : EncOp) (s : State) : (s.acceptEncode m o).carry = none := rfl
@[simp] theorem State.acceptEncode_look (m : Mode) (o : EncOp) (s : State) : (s.acceptEncode m o).look = none := rfl
@[simp] theorem State.acceptEncode_inPos (m : Mode) (o : EncOp) (s : State) : (s.acceptEncode m o).inPos = 0#32 := rfl
@[simp] theorem State.acceptEncode_outPos (m : Mode) (o : EncOp) (s : State) : (s.acceptEncode m o).outPos = 0#32 := rfl
@[simp] theorem State.acceptEncode_ovf (m : Mode) (o : EncOp) (s : State) : (s.acceptEncode m o).ovf = false := rfl
@[simp] theorem State.acceptEncode_engineOpen (m : Mode) (o : EncOp) (s : State) : (s.acceptEncode m o).engineOpen = false := rfl
@[simp] theorem State.acceptEncode_mem (m : Mode) (o : EncOp) (s : State) : (s.acceptEncode m o).mem = s.mem := rfl
@[simp] theorem State.acceptEncode_regions (m : Mode) (o : EncOp) (s : State) : (s.acceptEncode m o).regions = s.regions := rfl
@[simp] theorem State.acceptEncode_renewed (m : Mode) (o : EncOp) (s : State) : (s.acceptEncode m o).renewed = s.renewed := rfl
@[simp] theorem State.acceptEncode_source (m : Mode) (o : EncOp) (s : State) : (s.acceptEncode m o).source = s.source := rfl
@[simp] theorem State.acceptEncode_sink (m : Mode) (o : EncOp) (s : State) : (s.acceptEncode m o).sink = s.sink := rfl
@[simp] theorem State.acceptEncode_engine (m : Mode) (o : EncOp) (s : State) : (s.acceptEncode m o).engine = s.engine := rfl
@[simp] theorem State.acceptEncode_events (m : Mode) (o : EncOp) (s : State) : (s.acceptEncode m o).events = s.events := rfl
@[simp] theorem State.acceptEncode_turns (m : Mode) (o : EncOp) (s : State) : (s.acceptEncode m o).turns = s.turns := rfl
@[simp] theorem State.acceptEncode_hostData (m : Mode) (o : EncOp) (s : State) : (s.acceptEncode m o).hostData = s.hostData := rfl
@[simp] theorem State.acceptEncode_dp (m : Mode) (o : EncOp) (s : State) : (s.acceptEncode m o).dp = s.dp := rfl
@[simp] theorem State.acceptEncode_stale (m : Mode) (o : EncOp) (s : State) : (s.acceptEncode m o).stale = s.stale := rfl

/-! ## acceptEstimate: an estimate is made -/

@[simp] theorem State.acceptEstimate_regs (s : State) : s.acceptEstimate.regs = s.regs := rfl
@[simp] theorem State.acceptEstimate_estBytes (s : State) : s.acceptEstimate.estBytes = estimateWord s.regs := rfl
@[simp] theorem State.acceptEstimate_outSize (s : State) : s.acceptEstimate.outSize = s.outSize := rfl
@[simp] theorem State.acceptEstimate_progress (s : State) : s.acceptEstimate.progress = s.progress := rfl
@[simp] theorem State.acceptEstimate_errCode (s : State) : s.acceptEstimate.errCode = s.errCode := rfl
@[simp] theorem State.acceptEstimate_errOp (s : State) : s.acceptEstimate.errOp = s.errOp := rfl
@[simp] theorem State.acceptEstimate_errState (s : State) : s.acceptEstimate.errState = s.errState := rfl
@[simp] theorem State.acceptEstimate_fsm (s : State) : s.acceptEstimate.fsm = .done := rfl
@[simp] theorem State.acceptEstimate_done (s : State) : s.acceptEstimate.done = true := rfl
@[simp] theorem State.acceptEstimate_err (s : State) : s.acceptEstimate.err = false := rfl
@[simp] theorem State.acceptEstimate_rej (s : State) : s.acceptEstimate.rej = false := rfl
@[simp] theorem State.acceptEstimate_cfg (s : State) : s.acceptEstimate.cfg = s.regs := rfl
@[simp] theorem State.acceptEstimate_mode (s : State) : s.acceptEstimate.mode = s.mode := rfl
@[simp] theorem State.acceptEstimate_op (s : State) : s.acceptEstimate.op = s.op := rfl
@[simp] theorem State.acceptEstimate_skipLeft (s : State) : s.acceptEstimate.skipLeft = s.skipLeft := rfl
@[simp] theorem State.acceptEstimate_n (s : State) : s.acceptEstimate.n = s.n := rfl
@[simp] theorem State.acceptEstimate_c (s : State) : s.acceptEstimate.c = s.c := rfl
@[simp] theorem State.acceptEstimate_rlist (s : State) : s.acceptEstimate.rlist = s.rlist := rfl
@[simp] theorem State.acceptEstimate_ri (s : State) : s.acceptEstimate.ri = s.ri := rfl
@[simp] theorem State.acceptEstimate_raw (s : State) : s.acceptEstimate.raw = s.raw := rfl
@[simp] theorem State.acceptEstimate_win (s : State) : s.acceptEstimate.win = s.win := rfl
@[simp] theorem State.acceptEstimate_strip (s : State) : s.acceptEstimate.strip = s.strip := rfl
@[simp] theorem State.acceptEstimate_carry (s : State) : s.acceptEstimate.carry = s.carry := rfl
@[simp] theorem State.acceptEstimate_look (s : State) : s.acceptEstimate.look = s.look := rfl
@[simp] theorem State.acceptEstimate_inPos (s : State) : s.acceptEstimate.inPos = s.inPos := rfl
@[simp] theorem State.acceptEstimate_outPos (s : State) : s.acceptEstimate.outPos = s.outPos := rfl
@[simp] theorem State.acceptEstimate_ovf (s : State) : s.acceptEstimate.ovf = s.ovf := rfl
@[simp] theorem State.acceptEstimate_engineOpen (s : State) : s.acceptEstimate.engineOpen = s.engineOpen := rfl
@[simp] theorem State.acceptEstimate_mem (s : State) : s.acceptEstimate.mem = s.mem := rfl
@[simp] theorem State.acceptEstimate_regions (s : State) : s.acceptEstimate.regions = s.regions := rfl
@[simp] theorem State.acceptEstimate_renewed (s : State) : s.acceptEstimate.renewed = s.renewed := rfl
@[simp] theorem State.acceptEstimate_source (s : State) : s.acceptEstimate.source = s.source := rfl
@[simp] theorem State.acceptEstimate_sink (s : State) : s.acceptEstimate.sink = s.sink := rfl
@[simp] theorem State.acceptEstimate_engine (s : State) : s.acceptEstimate.engine = s.engine := rfl
@[simp] theorem State.acceptEstimate_events (s : State) : s.acceptEstimate.events = s.events := rfl
@[simp] theorem State.acceptEstimate_turns (s : State) : s.acceptEstimate.turns = s.turns := rfl
@[simp] theorem State.acceptEstimate_hostData (s : State) : s.acceptEstimate.hostData = s.hostData := rfl
@[simp] theorem State.acceptEstimate_dp (s : State) : s.acceptEstimate.dp = s.dp := rfl
@[simp] theorem State.acceptEstimate_stale (s : State) : s.acceptEstimate.stale = s.stale := rfl

/-! ## writeEst: EST_BYTES is written -/

@[simp] theorem State.writeEst_regs (s : State) : s.writeEst.regs = s.regs := rfl
@[simp] theorem State.writeEst_estBytes (s : State) : s.writeEst.estBytes = BitVec.ofNat 32 s.cfg.est := rfl
@[simp] theorem State.writeEst_outSize (s : State) : s.writeEst.outSize = s.outSize := rfl
@[simp] theorem State.writeEst_progress (s : State) : s.writeEst.progress = s.progress := rfl
@[simp] theorem State.writeEst_errCode (s : State) : s.writeEst.errCode = s.errCode := rfl
@[simp] theorem State.writeEst_errOp (s : State) : s.writeEst.errOp = s.errOp := rfl
@[simp] theorem State.writeEst_errState (s : State) : s.writeEst.errState = s.errState := rfl
@[simp] theorem State.writeEst_fsm (s : State) : s.writeEst.fsm = s.fsm := rfl
@[simp] theorem State.writeEst_done (s : State) : s.writeEst.done = s.done := rfl
@[simp] theorem State.writeEst_err (s : State) : s.writeEst.err = s.err := rfl
@[simp] theorem State.writeEst_rej (s : State) : s.writeEst.rej = s.rej := rfl
@[simp] theorem State.writeEst_cfg (s : State) : s.writeEst.cfg = s.cfg := rfl
@[simp] theorem State.writeEst_mode (s : State) : s.writeEst.mode = s.mode := rfl
@[simp] theorem State.writeEst_op (s : State) : s.writeEst.op = s.op := rfl
@[simp] theorem State.writeEst_skipLeft (s : State) : s.writeEst.skipLeft = s.skipLeft := rfl
@[simp] theorem State.writeEst_n (s : State) : s.writeEst.n = s.n := rfl
@[simp] theorem State.writeEst_c (s : State) : s.writeEst.c = s.c := rfl
@[simp] theorem State.writeEst_rlist (s : State) : s.writeEst.rlist = s.rlist := rfl
@[simp] theorem State.writeEst_ri (s : State) : s.writeEst.ri = s.ri := rfl
@[simp] theorem State.writeEst_raw (s : State) : s.writeEst.raw = s.raw := rfl
@[simp] theorem State.writeEst_win (s : State) : s.writeEst.win = s.win := rfl
@[simp] theorem State.writeEst_strip (s : State) : s.writeEst.strip = s.strip := rfl
@[simp] theorem State.writeEst_carry (s : State) : s.writeEst.carry = s.carry := rfl
@[simp] theorem State.writeEst_look (s : State) : s.writeEst.look = s.look := rfl
@[simp] theorem State.writeEst_inPos (s : State) : s.writeEst.inPos = s.inPos := rfl
@[simp] theorem State.writeEst_outPos (s : State) : s.writeEst.outPos = s.outPos := rfl
@[simp] theorem State.writeEst_ovf (s : State) : s.writeEst.ovf = s.ovf := rfl
@[simp] theorem State.writeEst_engineOpen (s : State) : s.writeEst.engineOpen = s.engineOpen := rfl
@[simp] theorem State.writeEst_mem (s : State) : s.writeEst.mem = s.mem := rfl
@[simp] theorem State.writeEst_regions (s : State) : s.writeEst.regions = s.regions := rfl
@[simp] theorem State.writeEst_renewed (s : State) : s.writeEst.renewed = s.renewed := rfl
@[simp] theorem State.writeEst_source (s : State) : s.writeEst.source = s.source := rfl
@[simp] theorem State.writeEst_sink (s : State) : s.writeEst.sink = s.sink := rfl
@[simp] theorem State.writeEst_engine (s : State) : s.writeEst.engine = s.engine := rfl
@[simp] theorem State.writeEst_events (s : State) : s.writeEst.events = s.events := rfl
@[simp] theorem State.writeEst_turns (s : State) : s.writeEst.turns = s.turns := rfl
@[simp] theorem State.writeEst_hostData (s : State) : s.writeEst.hostData = s.hostData := rfl
@[simp] theorem State.writeEst_dp (s : State) : s.writeEst.dp = s.dp := rfl
@[simp] theorem State.writeEst_stale (s : State) : s.writeEst.stale = s.stale := rfl

/-! ## popTurn: a turn is taken -/

@[simp] theorem State.popTurn_regs (s : State) : s.popTurn.regs = s.regs := rfl
@[simp] theorem State.popTurn_estBytes (s : State) : s.popTurn.estBytes = s.estBytes := rfl
@[simp] theorem State.popTurn_outSize (s : State) : s.popTurn.outSize = s.outSize := rfl
@[simp] theorem State.popTurn_progress (s : State) : s.popTurn.progress = s.progress := rfl
@[simp] theorem State.popTurn_errCode (s : State) : s.popTurn.errCode = s.errCode := rfl
@[simp] theorem State.popTurn_errOp (s : State) : s.popTurn.errOp = s.errOp := rfl
@[simp] theorem State.popTurn_errState (s : State) : s.popTurn.errState = s.errState := rfl
@[simp] theorem State.popTurn_fsm (s : State) : s.popTurn.fsm = s.fsm := rfl
@[simp] theorem State.popTurn_done (s : State) : s.popTurn.done = s.done := rfl
@[simp] theorem State.popTurn_err (s : State) : s.popTurn.err = s.err := rfl
@[simp] theorem State.popTurn_rej (s : State) : s.popTurn.rej = s.rej := rfl
@[simp] theorem State.popTurn_cfg (s : State) : s.popTurn.cfg = s.cfg := rfl
@[simp] theorem State.popTurn_mode (s : State) : s.popTurn.mode = s.mode := rfl
@[simp] theorem State.popTurn_op (s : State) : s.popTurn.op = s.op := rfl
@[simp] theorem State.popTurn_skipLeft (s : State) : s.popTurn.skipLeft = s.skipLeft := rfl
@[simp] theorem State.popTurn_n (s : State) : s.popTurn.n = s.n := rfl
@[simp] theorem State.popTurn_c (s : State) : s.popTurn.c = s.c := rfl
@[simp] theorem State.popTurn_rlist (s : State) : s.popTurn.rlist = s.rlist := rfl
@[simp] theorem State.popTurn_ri (s : State) : s.popTurn.ri = s.ri := rfl
@[simp] theorem State.popTurn_raw (s : State) : s.popTurn.raw = s.raw := rfl
@[simp] theorem State.popTurn_win (s : State) : s.popTurn.win = s.win := rfl
@[simp] theorem State.popTurn_strip (s : State) : s.popTurn.strip = s.strip := rfl
@[simp] theorem State.popTurn_carry (s : State) : s.popTurn.carry = s.carry := rfl
@[simp] theorem State.popTurn_look (s : State) : s.popTurn.look = s.look := rfl
@[simp] theorem State.popTurn_inPos (s : State) : s.popTurn.inPos = s.inPos := rfl
@[simp] theorem State.popTurn_outPos (s : State) : s.popTurn.outPos = s.outPos := rfl
@[simp] theorem State.popTurn_ovf (s : State) : s.popTurn.ovf = s.ovf := rfl
@[simp] theorem State.popTurn_engineOpen (s : State) : s.popTurn.engineOpen = s.engineOpen := rfl
@[simp] theorem State.popTurn_mem (s : State) : s.popTurn.mem = s.mem := rfl
@[simp] theorem State.popTurn_regions (s : State) : s.popTurn.regions = s.regions := rfl
@[simp] theorem State.popTurn_renewed (s : State) : s.popTurn.renewed = s.renewed := rfl
@[simp] theorem State.popTurn_source (s : State) : s.popTurn.source = s.source := rfl
@[simp] theorem State.popTurn_sink (s : State) : s.popTurn.sink = s.sink := rfl
@[simp] theorem State.popTurn_engine (s : State) : s.popTurn.engine = s.engine := rfl
@[simp] theorem State.popTurn_events (s : State) : s.popTurn.events = s.events := rfl
@[simp] theorem State.popTurn_turns (s : State) : s.popTurn.turns = s.turns.tail := rfl
@[simp] theorem State.popTurn_hostData (s : State) : s.popTurn.hostData = s.hostData := rfl
@[simp] theorem State.popTurn_dp (s : State) : s.popTurn.dp = s.dp := rfl
@[simp] theorem State.popTurn_stale (s : State) : s.popTurn.stale = s.stale := rfl

/-! ## placeTurn: a turn is placed -/

@[simp] theorem State.placeTurn_regs (t : Turn) (s : State) : (s.placeTurn t).regs = s.regs := rfl
@[simp] theorem State.placeTurn_estBytes (t : Turn) (s : State) : (s.placeTurn t).estBytes = s.estBytes := rfl
@[simp] theorem State.placeTurn_outSize (t : Turn) (s : State) : (s.placeTurn t).outSize = s.outSize := rfl
@[simp] theorem State.placeTurn_progress (t : Turn) (s : State) : (s.placeTurn t).progress = s.progress := rfl
@[simp] theorem State.placeTurn_errCode (t : Turn) (s : State) : (s.placeTurn t).errCode = s.errCode := rfl
@[simp] theorem State.placeTurn_errOp (t : Turn) (s : State) : (s.placeTurn t).errOp = s.errOp := rfl
@[simp] theorem State.placeTurn_errState (t : Turn) (s : State) : (s.placeTurn t).errState = s.errState := rfl
@[simp] theorem State.placeTurn_fsm (t : Turn) (s : State) : (s.placeTurn t).fsm = s.fsm := rfl
@[simp] theorem State.placeTurn_done (t : Turn) (s : State) : (s.placeTurn t).done = s.done := rfl
@[simp] theorem State.placeTurn_err (t : Turn) (s : State) : (s.placeTurn t).err = s.err := rfl
@[simp] theorem State.placeTurn_rej (t : Turn) (s : State) : (s.placeTurn t).rej = s.rej := rfl
@[simp] theorem State.placeTurn_cfg (t : Turn) (s : State) : (s.placeTurn t).cfg = s.cfg := rfl
@[simp] theorem State.placeTurn_mode (t : Turn) (s : State) : (s.placeTurn t).mode = s.mode := rfl
@[simp] theorem State.placeTurn_op (t : Turn) (s : State) : (s.placeTurn t).op = s.op := rfl
@[simp] theorem State.placeTurn_skipLeft (t : Turn) (s : State) : (s.placeTurn t).skipLeft = s.skipLeft := rfl
@[simp] theorem State.placeTurn_n (t : Turn) (s : State) : (s.placeTurn t).n = s.n := rfl
@[simp] theorem State.placeTurn_c (t : Turn) (s : State) : (s.placeTurn t).c = s.c := rfl
@[simp] theorem State.placeTurn_rlist (t : Turn) (s : State) : (s.placeTurn t).rlist = s.rlist := rfl
@[simp] theorem State.placeTurn_ri (t : Turn) (s : State) : (s.placeTurn t).ri = s.ri := rfl
@[simp] theorem State.placeTurn_raw (t : Turn) (s : State) : (s.placeTurn t).raw = s.raw := rfl
@[simp] theorem State.placeTurn_win (t : Turn) (s : State) : (s.placeTurn t).win = s.win := rfl
@[simp] theorem State.placeTurn_strip (t : Turn) (s : State) : (s.placeTurn t).strip = s.strip := rfl
@[simp] theorem State.placeTurn_carry (t : Turn) (s : State) : (s.placeTurn t).carry = s.carry := rfl
@[simp] theorem State.placeTurn_look (t : Turn) (s : State) : (s.placeTurn t).look = s.look := rfl
@[simp] theorem State.placeTurn_inPos (t : Turn) (s : State) : (s.placeTurn t).inPos = s.inPos := rfl
@[simp] theorem State.placeTurn_outPos (t : Turn) (s : State) : (s.placeTurn t).outPos = s.outPos := rfl
@[simp] theorem State.placeTurn_ovf (t : Turn) (s : State) : (s.placeTurn t).ovf = s.ovf := rfl
@[simp] theorem State.placeTurn_engineOpen (t : Turn) (s : State) : (s.placeTurn t).engineOpen = s.engineOpen := rfl
@[simp] theorem State.placeTurn_mem (t : Turn) (s : State) : (s.placeTurn t).mem = s.mem := rfl
@[simp] theorem State.placeTurn_regions (t : Turn) (s : State) : (s.placeTurn t).regions = s.regions := rfl
@[simp] theorem State.placeTurn_renewed (t : Turn) (s : State) : (s.placeTurn t).renewed = s.renewed := rfl
@[simp] theorem State.placeTurn_source (t : Turn) (s : State) : (s.placeTurn t).source = s.source := rfl
@[simp] theorem State.placeTurn_sink (t : Turn) (s : State) : (s.placeTurn t).sink = s.sink := rfl
@[simp] theorem State.placeTurn_engine (t : Turn) (s : State) : (s.placeTurn t).engine = s.engine := rfl
@[simp] theorem State.placeTurn_events (t : Turn) (s : State) : (s.placeTurn t).events = s.events := rfl
@[simp] theorem State.placeTurn_turns (t : Turn) (s : State) : (s.placeTurn t).turns = t :: s.turns := rfl
@[simp] theorem State.placeTurn_hostData (t : Turn) (s : State) : (s.placeTurn t).hostData = s.hostData := rfl
@[simp] theorem State.placeTurn_dp (t : Turn) (s : State) : (s.placeTurn t).dp = s.dp := rfl
@[simp] theorem State.placeTurn_stale (t : Turn) (s : State) : (s.placeTurn t).stale = s.stale := rfl

/-! ## assertReset: reset is asserted -/

@[simp] theorem State.assertReset_regs (s : State) : s.assertReset.regs = State.reset.regs := rfl
@[simp] theorem State.assertReset_estBytes (s : State) : s.assertReset.estBytes = State.reset.estBytes := rfl
@[simp] theorem State.assertReset_outSize (s : State) : s.assertReset.outSize = State.reset.outSize := rfl
@[simp] theorem State.assertReset_progress (s : State) : s.assertReset.progress = State.reset.progress := rfl
@[simp] theorem State.assertReset_errCode (s : State) : s.assertReset.errCode = State.reset.errCode := rfl
@[simp] theorem State.assertReset_errOp (s : State) : s.assertReset.errOp = State.reset.errOp := rfl
@[simp] theorem State.assertReset_errState (s : State) : s.assertReset.errState = State.reset.errState := rfl
@[simp] theorem State.assertReset_fsm (s : State) : s.assertReset.fsm = State.reset.fsm := rfl
@[simp] theorem State.assertReset_done (s : State) : s.assertReset.done = State.reset.done := rfl
@[simp] theorem State.assertReset_err (s : State) : s.assertReset.err = State.reset.err := rfl
@[simp] theorem State.assertReset_rej (s : State) : s.assertReset.rej = State.reset.rej := rfl
@[simp] theorem State.assertReset_cfg (s : State) : s.assertReset.cfg = State.reset.cfg := rfl
@[simp] theorem State.assertReset_mode (s : State) : s.assertReset.mode = State.reset.mode := rfl
@[simp] theorem State.assertReset_op (s : State) : s.assertReset.op = State.reset.op := rfl
@[simp] theorem State.assertReset_skipLeft (s : State) : s.assertReset.skipLeft = State.reset.skipLeft := rfl
@[simp] theorem State.assertReset_n (s : State) : s.assertReset.n = State.reset.n := rfl
@[simp] theorem State.assertReset_c (s : State) : s.assertReset.c = State.reset.c := rfl
@[simp] theorem State.assertReset_rlist (s : State) : s.assertReset.rlist = State.reset.rlist := rfl
@[simp] theorem State.assertReset_ri (s : State) : s.assertReset.ri = State.reset.ri := rfl
@[simp] theorem State.assertReset_raw (s : State) : s.assertReset.raw = State.reset.raw := rfl
@[simp] theorem State.assertReset_win (s : State) : s.assertReset.win = State.reset.win := rfl
@[simp] theorem State.assertReset_strip (s : State) : s.assertReset.strip = State.reset.strip := rfl
@[simp] theorem State.assertReset_carry (s : State) : s.assertReset.carry = State.reset.carry := rfl
@[simp] theorem State.assertReset_look (s : State) : s.assertReset.look = State.reset.look := rfl
@[simp] theorem State.assertReset_inPos (s : State) : s.assertReset.inPos = State.reset.inPos := rfl
@[simp] theorem State.assertReset_outPos (s : State) : s.assertReset.outPos = State.reset.outPos := rfl
@[simp] theorem State.assertReset_ovf (s : State) : s.assertReset.ovf = State.reset.ovf := rfl
@[simp] theorem State.assertReset_engineOpen (s : State) : s.assertReset.engineOpen = State.reset.engineOpen := rfl
@[simp] theorem State.assertReset_mem (s : State) : s.assertReset.mem = s.memAfterReset := rfl
@[simp] theorem State.assertReset_regions (s : State) : s.assertReset.regions = s.regions := rfl
@[simp] theorem State.assertReset_renewed (s : State) : s.assertReset.renewed = s.renewedAfterReset := rfl
@[simp] theorem State.assertReset_source (s : State) : s.assertReset.source = s.source := rfl
@[simp] theorem State.assertReset_sink (s : State) : s.assertReset.sink = s.sink := rfl
@[simp] theorem State.assertReset_engine (s : State) : s.assertReset.engine = s.engine := rfl
@[simp] theorem State.assertReset_events (s : State) : s.assertReset.events = s.events := rfl
@[simp] theorem State.assertReset_turns (s : State) : s.assertReset.turns = s.turns := rfl
@[simp] theorem State.assertReset_hostData (s : State) : s.assertReset.hostData = s.hostData := rfl
@[simp] theorem State.assertReset_dp (s : State) : s.assertReset.dp = State.reset.dp := rfl
@[simp] theorem State.assertReset_stale (s : State) : s.assertReset.stale = s.stale + 1 := rfl

/-! ## setUnpacked: a datapath result is held -/

@[simp] theorem State.setUnpacked_regs (v : List Sample) (s : State) : (s.setUnpacked v).regs = s.regs := rfl
@[simp] theorem State.setUnpacked_estBytes (v : List Sample) (s : State) : (s.setUnpacked v).estBytes = s.estBytes := rfl
@[simp] theorem State.setUnpacked_outSize (v : List Sample) (s : State) : (s.setUnpacked v).outSize = s.outSize := rfl
@[simp] theorem State.setUnpacked_progress (v : List Sample) (s : State) : (s.setUnpacked v).progress = s.progress := rfl
@[simp] theorem State.setUnpacked_errCode (v : List Sample) (s : State) : (s.setUnpacked v).errCode = s.errCode := rfl
@[simp] theorem State.setUnpacked_errOp (v : List Sample) (s : State) : (s.setUnpacked v).errOp = s.errOp := rfl
@[simp] theorem State.setUnpacked_errState (v : List Sample) (s : State) : (s.setUnpacked v).errState = s.errState := rfl
@[simp] theorem State.setUnpacked_fsm (v : List Sample) (s : State) : (s.setUnpacked v).fsm = s.fsm := rfl
@[simp] theorem State.setUnpacked_done (v : List Sample) (s : State) : (s.setUnpacked v).done = s.done := rfl
@[simp] theorem State.setUnpacked_err (v : List Sample) (s : State) : (s.setUnpacked v).err = s.err := rfl
@[simp] theorem State.setUnpacked_rej (v : List Sample) (s : State) : (s.setUnpacked v).rej = s.rej := rfl
@[simp] theorem State.setUnpacked_cfg (v : List Sample) (s : State) : (s.setUnpacked v).cfg = s.cfg := rfl
@[simp] theorem State.setUnpacked_mode (v : List Sample) (s : State) : (s.setUnpacked v).mode = s.mode := rfl
@[simp] theorem State.setUnpacked_op (v : List Sample) (s : State) : (s.setUnpacked v).op = s.op := rfl
@[simp] theorem State.setUnpacked_skipLeft (v : List Sample) (s : State) : (s.setUnpacked v).skipLeft = s.skipLeft := rfl
@[simp] theorem State.setUnpacked_n (v : List Sample) (s : State) : (s.setUnpacked v).n = s.n := rfl
@[simp] theorem State.setUnpacked_c (v : List Sample) (s : State) : (s.setUnpacked v).c = s.c := rfl
@[simp] theorem State.setUnpacked_rlist (v : List Sample) (s : State) : (s.setUnpacked v).rlist = s.rlist := rfl
@[simp] theorem State.setUnpacked_ri (v : List Sample) (s : State) : (s.setUnpacked v).ri = s.ri := rfl
@[simp] theorem State.setUnpacked_raw (v : List Sample) (s : State) : (s.setUnpacked v).raw = s.raw := rfl
@[simp] theorem State.setUnpacked_win (v : List Sample) (s : State) : (s.setUnpacked v).win = s.win := rfl
@[simp] theorem State.setUnpacked_strip (v : List Sample) (s : State) : (s.setUnpacked v).strip = s.strip := rfl
@[simp] theorem State.setUnpacked_carry (v : List Sample) (s : State) : (s.setUnpacked v).carry = s.carry := rfl
@[simp] theorem State.setUnpacked_look (v : List Sample) (s : State) : (s.setUnpacked v).look = s.look := rfl
@[simp] theorem State.setUnpacked_inPos (v : List Sample) (s : State) : (s.setUnpacked v).inPos = s.inPos := rfl
@[simp] theorem State.setUnpacked_outPos (v : List Sample) (s : State) : (s.setUnpacked v).outPos = s.outPos := rfl
@[simp] theorem State.setUnpacked_ovf (v : List Sample) (s : State) : (s.setUnpacked v).ovf = s.ovf := rfl
@[simp] theorem State.setUnpacked_engineOpen (v : List Sample) (s : State) : (s.setUnpacked v).engineOpen = s.engineOpen := rfl
@[simp] theorem State.setUnpacked_mem (v : List Sample) (s : State) : (s.setUnpacked v).mem = s.mem := rfl
@[simp] theorem State.setUnpacked_regions (v : List Sample) (s : State) : (s.setUnpacked v).regions = s.regions := rfl
@[simp] theorem State.setUnpacked_renewed (v : List Sample) (s : State) : (s.setUnpacked v).renewed = s.renewed := rfl
@[simp] theorem State.setUnpacked_source (v : List Sample) (s : State) : (s.setUnpacked v).source = s.source := rfl
@[simp] theorem State.setUnpacked_sink (v : List Sample) (s : State) : (s.setUnpacked v).sink = s.sink := rfl
@[simp] theorem State.setUnpacked_engine (v : List Sample) (s : State) : (s.setUnpacked v).engine = s.engine := rfl
@[simp] theorem State.setUnpacked_events (v : List Sample) (s : State) : (s.setUnpacked v).events = s.events := rfl
@[simp] theorem State.setUnpacked_turns (v : List Sample) (s : State) : (s.setUnpacked v).turns = s.turns := rfl
@[simp] theorem State.setUnpacked_hostData (v : List Sample) (s : State) : (s.setUnpacked v).hostData = s.hostData := rfl
@[simp] theorem State.setUnpacked_dp (v : List Sample) (s : State) : (s.setUnpacked v).dp = { s.dp with u := v } := rfl
@[simp] theorem State.setUnpacked_stale (v : List Sample) (s : State) : (s.setUnpacked v).stale = s.stale := rfl

/-! ## setCorrected: a datapath result is held -/

@[simp] theorem State.setCorrected_regs (v : List Sample) (s : State) : (s.setCorrected v).regs = s.regs := rfl
@[simp] theorem State.setCorrected_estBytes (v : List Sample) (s : State) : (s.setCorrected v).estBytes = s.estBytes := rfl
@[simp] theorem State.setCorrected_outSize (v : List Sample) (s : State) : (s.setCorrected v).outSize = s.outSize := rfl
@[simp] theorem State.setCorrected_progress (v : List Sample) (s : State) : (s.setCorrected v).progress = s.progress := rfl
@[simp] theorem State.setCorrected_errCode (v : List Sample) (s : State) : (s.setCorrected v).errCode = s.errCode := rfl
@[simp] theorem State.setCorrected_errOp (v : List Sample) (s : State) : (s.setCorrected v).errOp = s.errOp := rfl
@[simp] theorem State.setCorrected_errState (v : List Sample) (s : State) : (s.setCorrected v).errState = s.errState := rfl
@[simp] theorem State.setCorrected_fsm (v : List Sample) (s : State) : (s.setCorrected v).fsm = s.fsm := rfl
@[simp] theorem State.setCorrected_done (v : List Sample) (s : State) : (s.setCorrected v).done = s.done := rfl
@[simp] theorem State.setCorrected_err (v : List Sample) (s : State) : (s.setCorrected v).err = s.err := rfl
@[simp] theorem State.setCorrected_rej (v : List Sample) (s : State) : (s.setCorrected v).rej = s.rej := rfl
@[simp] theorem State.setCorrected_cfg (v : List Sample) (s : State) : (s.setCorrected v).cfg = s.cfg := rfl
@[simp] theorem State.setCorrected_mode (v : List Sample) (s : State) : (s.setCorrected v).mode = s.mode := rfl
@[simp] theorem State.setCorrected_op (v : List Sample) (s : State) : (s.setCorrected v).op = s.op := rfl
@[simp] theorem State.setCorrected_skipLeft (v : List Sample) (s : State) : (s.setCorrected v).skipLeft = s.skipLeft := rfl
@[simp] theorem State.setCorrected_n (v : List Sample) (s : State) : (s.setCorrected v).n = s.n := rfl
@[simp] theorem State.setCorrected_c (v : List Sample) (s : State) : (s.setCorrected v).c = s.c := rfl
@[simp] theorem State.setCorrected_rlist (v : List Sample) (s : State) : (s.setCorrected v).rlist = s.rlist := rfl
@[simp] theorem State.setCorrected_ri (v : List Sample) (s : State) : (s.setCorrected v).ri = s.ri := rfl
@[simp] theorem State.setCorrected_raw (v : List Sample) (s : State) : (s.setCorrected v).raw = s.raw := rfl
@[simp] theorem State.setCorrected_win (v : List Sample) (s : State) : (s.setCorrected v).win = s.win := rfl
@[simp] theorem State.setCorrected_strip (v : List Sample) (s : State) : (s.setCorrected v).strip = s.strip := rfl
@[simp] theorem State.setCorrected_carry (v : List Sample) (s : State) : (s.setCorrected v).carry = s.carry := rfl
@[simp] theorem State.setCorrected_look (v : List Sample) (s : State) : (s.setCorrected v).look = s.look := rfl
@[simp] theorem State.setCorrected_inPos (v : List Sample) (s : State) : (s.setCorrected v).inPos = s.inPos := rfl
@[simp] theorem State.setCorrected_outPos (v : List Sample) (s : State) : (s.setCorrected v).outPos = s.outPos := rfl
@[simp] theorem State.setCorrected_ovf (v : List Sample) (s : State) : (s.setCorrected v).ovf = s.ovf := rfl
@[simp] theorem State.setCorrected_engineOpen (v : List Sample) (s : State) : (s.setCorrected v).engineOpen = s.engineOpen := rfl
@[simp] theorem State.setCorrected_mem (v : List Sample) (s : State) : (s.setCorrected v).mem = s.mem := rfl
@[simp] theorem State.setCorrected_regions (v : List Sample) (s : State) : (s.setCorrected v).regions = s.regions := rfl
@[simp] theorem State.setCorrected_renewed (v : List Sample) (s : State) : (s.setCorrected v).renewed = s.renewed := rfl
@[simp] theorem State.setCorrected_source (v : List Sample) (s : State) : (s.setCorrected v).source = s.source := rfl
@[simp] theorem State.setCorrected_sink (v : List Sample) (s : State) : (s.setCorrected v).sink = s.sink := rfl
@[simp] theorem State.setCorrected_engine (v : List Sample) (s : State) : (s.setCorrected v).engine = s.engine := rfl
@[simp] theorem State.setCorrected_events (v : List Sample) (s : State) : (s.setCorrected v).events = s.events := rfl
@[simp] theorem State.setCorrected_turns (v : List Sample) (s : State) : (s.setCorrected v).turns = s.turns := rfl
@[simp] theorem State.setCorrected_hostData (v : List Sample) (s : State) : (s.setCorrected v).hostData = s.hostData := rfl
@[simp] theorem State.setCorrected_dp (v : List Sample) (s : State) : (s.setCorrected v).dp = { s.dp with u' := v } := rfl
@[simp] theorem State.setCorrected_stale (v : List Sample) (s : State) : (s.setCorrected v).stale = s.stale := rfl

/-! ## setColor: a datapath result is held -/

@[simp] theorem State.setColor_regs (v : Color) (s : State) : (s.setColor v).regs = s.regs := rfl
@[simp] theorem State.setColor_estBytes (v : Color) (s : State) : (s.setColor v).estBytes = s.estBytes := rfl
@[simp] theorem State.setColor_outSize (v : Color) (s : State) : (s.setColor v).outSize = s.outSize := rfl
@[simp] theorem State.setColor_progress (v : Color) (s : State) : (s.setColor v).progress = s.progress := rfl
@[simp] theorem State.setColor_errCode (v : Color) (s : State) : (s.setColor v).errCode = s.errCode := rfl
@[simp] theorem State.setColor_errOp (v : Color) (s : State) : (s.setColor v).errOp = s.errOp := rfl
@[simp] theorem State.setColor_errState (v : Color) (s : State) : (s.setColor v).errState = s.errState := rfl
@[simp] theorem State.setColor_fsm (v : Color) (s : State) : (s.setColor v).fsm = s.fsm := rfl
@[simp] theorem State.setColor_done (v : Color) (s : State) : (s.setColor v).done = s.done := rfl
@[simp] theorem State.setColor_err (v : Color) (s : State) : (s.setColor v).err = s.err := rfl
@[simp] theorem State.setColor_rej (v : Color) (s : State) : (s.setColor v).rej = s.rej := rfl
@[simp] theorem State.setColor_cfg (v : Color) (s : State) : (s.setColor v).cfg = s.cfg := rfl
@[simp] theorem State.setColor_mode (v : Color) (s : State) : (s.setColor v).mode = s.mode := rfl
@[simp] theorem State.setColor_op (v : Color) (s : State) : (s.setColor v).op = s.op := rfl
@[simp] theorem State.setColor_skipLeft (v : Color) (s : State) : (s.setColor v).skipLeft = s.skipLeft := rfl
@[simp] theorem State.setColor_n (v : Color) (s : State) : (s.setColor v).n = s.n := rfl
@[simp] theorem State.setColor_c (v : Color) (s : State) : (s.setColor v).c = s.c := rfl
@[simp] theorem State.setColor_rlist (v : Color) (s : State) : (s.setColor v).rlist = s.rlist := rfl
@[simp] theorem State.setColor_ri (v : Color) (s : State) : (s.setColor v).ri = s.ri := rfl
@[simp] theorem State.setColor_raw (v : Color) (s : State) : (s.setColor v).raw = s.raw := rfl
@[simp] theorem State.setColor_win (v : Color) (s : State) : (s.setColor v).win = s.win := rfl
@[simp] theorem State.setColor_strip (v : Color) (s : State) : (s.setColor v).strip = s.strip := rfl
@[simp] theorem State.setColor_carry (v : Color) (s : State) : (s.setColor v).carry = s.carry := rfl
@[simp] theorem State.setColor_look (v : Color) (s : State) : (s.setColor v).look = s.look := rfl
@[simp] theorem State.setColor_inPos (v : Color) (s : State) : (s.setColor v).inPos = s.inPos := rfl
@[simp] theorem State.setColor_outPos (v : Color) (s : State) : (s.setColor v).outPos = s.outPos := rfl
@[simp] theorem State.setColor_ovf (v : Color) (s : State) : (s.setColor v).ovf = s.ovf := rfl
@[simp] theorem State.setColor_engineOpen (v : Color) (s : State) : (s.setColor v).engineOpen = s.engineOpen := rfl
@[simp] theorem State.setColor_mem (v : Color) (s : State) : (s.setColor v).mem = s.mem := rfl
@[simp] theorem State.setColor_regions (v : Color) (s : State) : (s.setColor v).regions = s.regions := rfl
@[simp] theorem State.setColor_renewed (v : Color) (s : State) : (s.setColor v).renewed = s.renewed := rfl
@[simp] theorem State.setColor_source (v : Color) (s : State) : (s.setColor v).source = s.source := rfl
@[simp] theorem State.setColor_sink (v : Color) (s : State) : (s.setColor v).sink = s.sink := rfl
@[simp] theorem State.setColor_engine (v : Color) (s : State) : (s.setColor v).engine = s.engine := rfl
@[simp] theorem State.setColor_events (v : Color) (s : State) : (s.setColor v).events = s.events := rfl
@[simp] theorem State.setColor_turns (v : Color) (s : State) : (s.setColor v).turns = s.turns := rfl
@[simp] theorem State.setColor_hostData (v : Color) (s : State) : (s.setColor v).hostData = s.hostData := rfl
@[simp] theorem State.setColor_dp (v : Color) (s : State) : (s.setColor v).dp = { s.dp with color := v } := rfl
@[simp] theorem State.setColor_stale (v : Color) (s : State) : (s.setColor v).stale = s.stale := rfl

/-! ## setRgb: a datapath result is held -/

@[simp] theorem State.setRgb_regs (v : Rgb16) (s : State) : (s.setRgb v).regs = s.regs := rfl
@[simp] theorem State.setRgb_estBytes (v : Rgb16) (s : State) : (s.setRgb v).estBytes = s.estBytes := rfl
@[simp] theorem State.setRgb_outSize (v : Rgb16) (s : State) : (s.setRgb v).outSize = s.outSize := rfl
@[simp] theorem State.setRgb_progress (v : Rgb16) (s : State) : (s.setRgb v).progress = s.progress := rfl
@[simp] theorem State.setRgb_errCode (v : Rgb16) (s : State) : (s.setRgb v).errCode = s.errCode := rfl
@[simp] theorem State.setRgb_errOp (v : Rgb16) (s : State) : (s.setRgb v).errOp = s.errOp := rfl
@[simp] theorem State.setRgb_errState (v : Rgb16) (s : State) : (s.setRgb v).errState = s.errState := rfl
@[simp] theorem State.setRgb_fsm (v : Rgb16) (s : State) : (s.setRgb v).fsm = s.fsm := rfl
@[simp] theorem State.setRgb_done (v : Rgb16) (s : State) : (s.setRgb v).done = s.done := rfl
@[simp] theorem State.setRgb_err (v : Rgb16) (s : State) : (s.setRgb v).err = s.err := rfl
@[simp] theorem State.setRgb_rej (v : Rgb16) (s : State) : (s.setRgb v).rej = s.rej := rfl
@[simp] theorem State.setRgb_cfg (v : Rgb16) (s : State) : (s.setRgb v).cfg = s.cfg := rfl
@[simp] theorem State.setRgb_mode (v : Rgb16) (s : State) : (s.setRgb v).mode = s.mode := rfl
@[simp] theorem State.setRgb_op (v : Rgb16) (s : State) : (s.setRgb v).op = s.op := rfl
@[simp] theorem State.setRgb_skipLeft (v : Rgb16) (s : State) : (s.setRgb v).skipLeft = s.skipLeft := rfl
@[simp] theorem State.setRgb_n (v : Rgb16) (s : State) : (s.setRgb v).n = s.n := rfl
@[simp] theorem State.setRgb_c (v : Rgb16) (s : State) : (s.setRgb v).c = s.c := rfl
@[simp] theorem State.setRgb_rlist (v : Rgb16) (s : State) : (s.setRgb v).rlist = s.rlist := rfl
@[simp] theorem State.setRgb_ri (v : Rgb16) (s : State) : (s.setRgb v).ri = s.ri := rfl
@[simp] theorem State.setRgb_raw (v : Rgb16) (s : State) : (s.setRgb v).raw = s.raw := rfl
@[simp] theorem State.setRgb_win (v : Rgb16) (s : State) : (s.setRgb v).win = s.win := rfl
@[simp] theorem State.setRgb_strip (v : Rgb16) (s : State) : (s.setRgb v).strip = s.strip := rfl
@[simp] theorem State.setRgb_carry (v : Rgb16) (s : State) : (s.setRgb v).carry = s.carry := rfl
@[simp] theorem State.setRgb_look (v : Rgb16) (s : State) : (s.setRgb v).look = s.look := rfl
@[simp] theorem State.setRgb_inPos (v : Rgb16) (s : State) : (s.setRgb v).inPos = s.inPos := rfl
@[simp] theorem State.setRgb_outPos (v : Rgb16) (s : State) : (s.setRgb v).outPos = s.outPos := rfl
@[simp] theorem State.setRgb_ovf (v : Rgb16) (s : State) : (s.setRgb v).ovf = s.ovf := rfl
@[simp] theorem State.setRgb_engineOpen (v : Rgb16) (s : State) : (s.setRgb v).engineOpen = s.engineOpen := rfl
@[simp] theorem State.setRgb_mem (v : Rgb16) (s : State) : (s.setRgb v).mem = s.mem := rfl
@[simp] theorem State.setRgb_regions (v : Rgb16) (s : State) : (s.setRgb v).regions = s.regions := rfl
@[simp] theorem State.setRgb_renewed (v : Rgb16) (s : State) : (s.setRgb v).renewed = s.renewed := rfl
@[simp] theorem State.setRgb_source (v : Rgb16) (s : State) : (s.setRgb v).source = s.source := rfl
@[simp] theorem State.setRgb_sink (v : Rgb16) (s : State) : (s.setRgb v).sink = s.sink := rfl
@[simp] theorem State.setRgb_engine (v : Rgb16) (s : State) : (s.setRgb v).engine = s.engine := rfl
@[simp] theorem State.setRgb_events (v : Rgb16) (s : State) : (s.setRgb v).events = s.events := rfl
@[simp] theorem State.setRgb_turns (v : Rgb16) (s : State) : (s.setRgb v).turns = s.turns := rfl
@[simp] theorem State.setRgb_hostData (v : Rgb16) (s : State) : (s.setRgb v).hostData = s.hostData := rfl
@[simp] theorem State.setRgb_dp (v : Rgb16) (s : State) : (s.setRgb v).dp = { s.dp with rgb := v } := rfl
@[simp] theorem State.setRgb_stale (v : Rgb16) (s : State) : (s.setRgb v).stale = s.stale := rfl

/-! ## setRgb8: a datapath result is held -/

@[simp] theorem State.setRgb8_regs (v : Rgb8) (s : State) : (s.setRgb8 v).regs = s.regs := rfl
@[simp] theorem State.setRgb8_estBytes (v : Rgb8) (s : State) : (s.setRgb8 v).estBytes = s.estBytes := rfl
@[simp] theorem State.setRgb8_outSize (v : Rgb8) (s : State) : (s.setRgb8 v).outSize = s.outSize := rfl
@[simp] theorem State.setRgb8_progress (v : Rgb8) (s : State) : (s.setRgb8 v).progress = s.progress := rfl
@[simp] theorem State.setRgb8_errCode (v : Rgb8) (s : State) : (s.setRgb8 v).errCode = s.errCode := rfl
@[simp] theorem State.setRgb8_errOp (v : Rgb8) (s : State) : (s.setRgb8 v).errOp = s.errOp := rfl
@[simp] theorem State.setRgb8_errState (v : Rgb8) (s : State) : (s.setRgb8 v).errState = s.errState := rfl
@[simp] theorem State.setRgb8_fsm (v : Rgb8) (s : State) : (s.setRgb8 v).fsm = s.fsm := rfl
@[simp] theorem State.setRgb8_done (v : Rgb8) (s : State) : (s.setRgb8 v).done = s.done := rfl
@[simp] theorem State.setRgb8_err (v : Rgb8) (s : State) : (s.setRgb8 v).err = s.err := rfl
@[simp] theorem State.setRgb8_rej (v : Rgb8) (s : State) : (s.setRgb8 v).rej = s.rej := rfl
@[simp] theorem State.setRgb8_cfg (v : Rgb8) (s : State) : (s.setRgb8 v).cfg = s.cfg := rfl
@[simp] theorem State.setRgb8_mode (v : Rgb8) (s : State) : (s.setRgb8 v).mode = s.mode := rfl
@[simp] theorem State.setRgb8_op (v : Rgb8) (s : State) : (s.setRgb8 v).op = s.op := rfl
@[simp] theorem State.setRgb8_skipLeft (v : Rgb8) (s : State) : (s.setRgb8 v).skipLeft = s.skipLeft := rfl
@[simp] theorem State.setRgb8_n (v : Rgb8) (s : State) : (s.setRgb8 v).n = s.n := rfl
@[simp] theorem State.setRgb8_c (v : Rgb8) (s : State) : (s.setRgb8 v).c = s.c := rfl
@[simp] theorem State.setRgb8_rlist (v : Rgb8) (s : State) : (s.setRgb8 v).rlist = s.rlist := rfl
@[simp] theorem State.setRgb8_ri (v : Rgb8) (s : State) : (s.setRgb8 v).ri = s.ri := rfl
@[simp] theorem State.setRgb8_raw (v : Rgb8) (s : State) : (s.setRgb8 v).raw = s.raw := rfl
@[simp] theorem State.setRgb8_win (v : Rgb8) (s : State) : (s.setRgb8 v).win = s.win := rfl
@[simp] theorem State.setRgb8_strip (v : Rgb8) (s : State) : (s.setRgb8 v).strip = s.strip := rfl
@[simp] theorem State.setRgb8_carry (v : Rgb8) (s : State) : (s.setRgb8 v).carry = s.carry := rfl
@[simp] theorem State.setRgb8_look (v : Rgb8) (s : State) : (s.setRgb8 v).look = s.look := rfl
@[simp] theorem State.setRgb8_inPos (v : Rgb8) (s : State) : (s.setRgb8 v).inPos = s.inPos := rfl
@[simp] theorem State.setRgb8_outPos (v : Rgb8) (s : State) : (s.setRgb8 v).outPos = s.outPos := rfl
@[simp] theorem State.setRgb8_ovf (v : Rgb8) (s : State) : (s.setRgb8 v).ovf = s.ovf := rfl
@[simp] theorem State.setRgb8_engineOpen (v : Rgb8) (s : State) : (s.setRgb8 v).engineOpen = s.engineOpen := rfl
@[simp] theorem State.setRgb8_mem (v : Rgb8) (s : State) : (s.setRgb8 v).mem = s.mem := rfl
@[simp] theorem State.setRgb8_regions (v : Rgb8) (s : State) : (s.setRgb8 v).regions = s.regions := rfl
@[simp] theorem State.setRgb8_renewed (v : Rgb8) (s : State) : (s.setRgb8 v).renewed = s.renewed := rfl
@[simp] theorem State.setRgb8_source (v : Rgb8) (s : State) : (s.setRgb8 v).source = s.source := rfl
@[simp] theorem State.setRgb8_sink (v : Rgb8) (s : State) : (s.setRgb8 v).sink = s.sink := rfl
@[simp] theorem State.setRgb8_engine (v : Rgb8) (s : State) : (s.setRgb8 v).engine = s.engine := rfl
@[simp] theorem State.setRgb8_events (v : Rgb8) (s : State) : (s.setRgb8 v).events = s.events := rfl
@[simp] theorem State.setRgb8_turns (v : Rgb8) (s : State) : (s.setRgb8 v).turns = s.turns := rfl
@[simp] theorem State.setRgb8_hostData (v : Rgb8) (s : State) : (s.setRgb8 v).hostData = s.hostData := rfl
@[simp] theorem State.setRgb8_dp (v : Rgb8) (s : State) : (s.setRgb8 v).dp = { s.dp with rgb8 := v } := rfl
@[simp] theorem State.setRgb8_stale (v : Rgb8) (s : State) : (s.setRgb8 v).stale = s.stale := rfl

/-! ## setYcc: a datapath result is held -/

@[simp] theorem State.setYcc_regs (v : Ycc) (s : State) : (s.setYcc v).regs = s.regs := rfl
@[simp] theorem State.setYcc_estBytes (v : Ycc) (s : State) : (s.setYcc v).estBytes = s.estBytes := rfl
@[simp] theorem State.setYcc_outSize (v : Ycc) (s : State) : (s.setYcc v).outSize = s.outSize := rfl
@[simp] theorem State.setYcc_progress (v : Ycc) (s : State) : (s.setYcc v).progress = s.progress := rfl
@[simp] theorem State.setYcc_errCode (v : Ycc) (s : State) : (s.setYcc v).errCode = s.errCode := rfl
@[simp] theorem State.setYcc_errOp (v : Ycc) (s : State) : (s.setYcc v).errOp = s.errOp := rfl
@[simp] theorem State.setYcc_errState (v : Ycc) (s : State) : (s.setYcc v).errState = s.errState := rfl
@[simp] theorem State.setYcc_fsm (v : Ycc) (s : State) : (s.setYcc v).fsm = s.fsm := rfl
@[simp] theorem State.setYcc_done (v : Ycc) (s : State) : (s.setYcc v).done = s.done := rfl
@[simp] theorem State.setYcc_err (v : Ycc) (s : State) : (s.setYcc v).err = s.err := rfl
@[simp] theorem State.setYcc_rej (v : Ycc) (s : State) : (s.setYcc v).rej = s.rej := rfl
@[simp] theorem State.setYcc_cfg (v : Ycc) (s : State) : (s.setYcc v).cfg = s.cfg := rfl
@[simp] theorem State.setYcc_mode (v : Ycc) (s : State) : (s.setYcc v).mode = s.mode := rfl
@[simp] theorem State.setYcc_op (v : Ycc) (s : State) : (s.setYcc v).op = s.op := rfl
@[simp] theorem State.setYcc_skipLeft (v : Ycc) (s : State) : (s.setYcc v).skipLeft = s.skipLeft := rfl
@[simp] theorem State.setYcc_n (v : Ycc) (s : State) : (s.setYcc v).n = s.n := rfl
@[simp] theorem State.setYcc_c (v : Ycc) (s : State) : (s.setYcc v).c = s.c := rfl
@[simp] theorem State.setYcc_rlist (v : Ycc) (s : State) : (s.setYcc v).rlist = s.rlist := rfl
@[simp] theorem State.setYcc_ri (v : Ycc) (s : State) : (s.setYcc v).ri = s.ri := rfl
@[simp] theorem State.setYcc_raw (v : Ycc) (s : State) : (s.setYcc v).raw = s.raw := rfl
@[simp] theorem State.setYcc_win (v : Ycc) (s : State) : (s.setYcc v).win = s.win := rfl
@[simp] theorem State.setYcc_strip (v : Ycc) (s : State) : (s.setYcc v).strip = s.strip := rfl
@[simp] theorem State.setYcc_carry (v : Ycc) (s : State) : (s.setYcc v).carry = s.carry := rfl
@[simp] theorem State.setYcc_look (v : Ycc) (s : State) : (s.setYcc v).look = s.look := rfl
@[simp] theorem State.setYcc_inPos (v : Ycc) (s : State) : (s.setYcc v).inPos = s.inPos := rfl
@[simp] theorem State.setYcc_outPos (v : Ycc) (s : State) : (s.setYcc v).outPos = s.outPos := rfl
@[simp] theorem State.setYcc_ovf (v : Ycc) (s : State) : (s.setYcc v).ovf = s.ovf := rfl
@[simp] theorem State.setYcc_engineOpen (v : Ycc) (s : State) : (s.setYcc v).engineOpen = s.engineOpen := rfl
@[simp] theorem State.setYcc_mem (v : Ycc) (s : State) : (s.setYcc v).mem = s.mem := rfl
@[simp] theorem State.setYcc_regions (v : Ycc) (s : State) : (s.setYcc v).regions = s.regions := rfl
@[simp] theorem State.setYcc_renewed (v : Ycc) (s : State) : (s.setYcc v).renewed = s.renewed := rfl
@[simp] theorem State.setYcc_source (v : Ycc) (s : State) : (s.setYcc v).source = s.source := rfl
@[simp] theorem State.setYcc_sink (v : Ycc) (s : State) : (s.setYcc v).sink = s.sink := rfl
@[simp] theorem State.setYcc_engine (v : Ycc) (s : State) : (s.setYcc v).engine = s.engine := rfl
@[simp] theorem State.setYcc_events (v : Ycc) (s : State) : (s.setYcc v).events = s.events := rfl
@[simp] theorem State.setYcc_turns (v : Ycc) (s : State) : (s.setYcc v).turns = s.turns := rfl
@[simp] theorem State.setYcc_hostData (v : Ycc) (s : State) : (s.setYcc v).hostData = s.hostData := rfl
@[simp] theorem State.setYcc_dp (v : Ycc) (s : State) : (s.setYcc v).dp = { s.dp with ycc := v } := rfl
@[simp] theorem State.setYcc_stale (v : Ycc) (s : State) : (s.setYcc v).stale = s.stale := rfl

/-! ## setChroma: a datapath result is held -/

@[simp] theorem State.setChroma_regs (v : Chroma) (s : State) : (s.setChroma v).regs = s.regs := rfl
@[simp] theorem State.setChroma_estBytes (v : Chroma) (s : State) : (s.setChroma v).estBytes = s.estBytes := rfl
@[simp] theorem State.setChroma_outSize (v : Chroma) (s : State) : (s.setChroma v).outSize = s.outSize := rfl
@[simp] theorem State.setChroma_progress (v : Chroma) (s : State) : (s.setChroma v).progress = s.progress := rfl
@[simp] theorem State.setChroma_errCode (v : Chroma) (s : State) : (s.setChroma v).errCode = s.errCode := rfl
@[simp] theorem State.setChroma_errOp (v : Chroma) (s : State) : (s.setChroma v).errOp = s.errOp := rfl
@[simp] theorem State.setChroma_errState (v : Chroma) (s : State) : (s.setChroma v).errState = s.errState := rfl
@[simp] theorem State.setChroma_fsm (v : Chroma) (s : State) : (s.setChroma v).fsm = s.fsm := rfl
@[simp] theorem State.setChroma_done (v : Chroma) (s : State) : (s.setChroma v).done = s.done := rfl
@[simp] theorem State.setChroma_err (v : Chroma) (s : State) : (s.setChroma v).err = s.err := rfl
@[simp] theorem State.setChroma_rej (v : Chroma) (s : State) : (s.setChroma v).rej = s.rej := rfl
@[simp] theorem State.setChroma_cfg (v : Chroma) (s : State) : (s.setChroma v).cfg = s.cfg := rfl
@[simp] theorem State.setChroma_mode (v : Chroma) (s : State) : (s.setChroma v).mode = s.mode := rfl
@[simp] theorem State.setChroma_op (v : Chroma) (s : State) : (s.setChroma v).op = s.op := rfl
@[simp] theorem State.setChroma_skipLeft (v : Chroma) (s : State) : (s.setChroma v).skipLeft = s.skipLeft := rfl
@[simp] theorem State.setChroma_n (v : Chroma) (s : State) : (s.setChroma v).n = s.n := rfl
@[simp] theorem State.setChroma_c (v : Chroma) (s : State) : (s.setChroma v).c = s.c := rfl
@[simp] theorem State.setChroma_rlist (v : Chroma) (s : State) : (s.setChroma v).rlist = s.rlist := rfl
@[simp] theorem State.setChroma_ri (v : Chroma) (s : State) : (s.setChroma v).ri = s.ri := rfl
@[simp] theorem State.setChroma_raw (v : Chroma) (s : State) : (s.setChroma v).raw = s.raw := rfl
@[simp] theorem State.setChroma_win (v : Chroma) (s : State) : (s.setChroma v).win = s.win := rfl
@[simp] theorem State.setChroma_strip (v : Chroma) (s : State) : (s.setChroma v).strip = s.strip := rfl
@[simp] theorem State.setChroma_carry (v : Chroma) (s : State) : (s.setChroma v).carry = s.carry := rfl
@[simp] theorem State.setChroma_look (v : Chroma) (s : State) : (s.setChroma v).look = s.look := rfl
@[simp] theorem State.setChroma_inPos (v : Chroma) (s : State) : (s.setChroma v).inPos = s.inPos := rfl
@[simp] theorem State.setChroma_outPos (v : Chroma) (s : State) : (s.setChroma v).outPos = s.outPos := rfl
@[simp] theorem State.setChroma_ovf (v : Chroma) (s : State) : (s.setChroma v).ovf = s.ovf := rfl
@[simp] theorem State.setChroma_engineOpen (v : Chroma) (s : State) : (s.setChroma v).engineOpen = s.engineOpen := rfl
@[simp] theorem State.setChroma_mem (v : Chroma) (s : State) : (s.setChroma v).mem = s.mem := rfl
@[simp] theorem State.setChroma_regions (v : Chroma) (s : State) : (s.setChroma v).regions = s.regions := rfl
@[simp] theorem State.setChroma_renewed (v : Chroma) (s : State) : (s.setChroma v).renewed = s.renewed := rfl
@[simp] theorem State.setChroma_source (v : Chroma) (s : State) : (s.setChroma v).source = s.source := rfl
@[simp] theorem State.setChroma_sink (v : Chroma) (s : State) : (s.setChroma v).sink = s.sink := rfl
@[simp] theorem State.setChroma_engine (v : Chroma) (s : State) : (s.setChroma v).engine = s.engine := rfl
@[simp] theorem State.setChroma_events (v : Chroma) (s : State) : (s.setChroma v).events = s.events := rfl
@[simp] theorem State.setChroma_turns (v : Chroma) (s : State) : (s.setChroma v).turns = s.turns := rfl
@[simp] theorem State.setChroma_hostData (v : Chroma) (s : State) : (s.setChroma v).hostData = s.hostData := rfl
@[simp] theorem State.setChroma_dp (v : Chroma) (s : State) : (s.setChroma v).dp = { s.dp with chroma := v } := rfl
@[simp] theorem State.setChroma_stale (v : Chroma) (s : State) : (s.setChroma v).stale = s.stale := rfl

/-! ## setLuma: a datapath result is held -/

@[simp] theorem State.setLuma_regs (v : Byte) (s : State) : (s.setLuma v).regs = s.regs := rfl
@[simp] theorem State.setLuma_estBytes (v : Byte) (s : State) : (s.setLuma v).estBytes = s.estBytes := rfl
@[simp] theorem State.setLuma_outSize (v : Byte) (s : State) : (s.setLuma v).outSize = s.outSize := rfl
@[simp] theorem State.setLuma_progress (v : Byte) (s : State) : (s.setLuma v).progress = s.progress := rfl
@[simp] theorem State.setLuma_errCode (v : Byte) (s : State) : (s.setLuma v).errCode = s.errCode := rfl
@[simp] theorem State.setLuma_errOp (v : Byte) (s : State) : (s.setLuma v).errOp = s.errOp := rfl
@[simp] theorem State.setLuma_errState (v : Byte) (s : State) : (s.setLuma v).errState = s.errState := rfl
@[simp] theorem State.setLuma_fsm (v : Byte) (s : State) : (s.setLuma v).fsm = s.fsm := rfl
@[simp] theorem State.setLuma_done (v : Byte) (s : State) : (s.setLuma v).done = s.done := rfl
@[simp] theorem State.setLuma_err (v : Byte) (s : State) : (s.setLuma v).err = s.err := rfl
@[simp] theorem State.setLuma_rej (v : Byte) (s : State) : (s.setLuma v).rej = s.rej := rfl
@[simp] theorem State.setLuma_cfg (v : Byte) (s : State) : (s.setLuma v).cfg = s.cfg := rfl
@[simp] theorem State.setLuma_mode (v : Byte) (s : State) : (s.setLuma v).mode = s.mode := rfl
@[simp] theorem State.setLuma_op (v : Byte) (s : State) : (s.setLuma v).op = s.op := rfl
@[simp] theorem State.setLuma_skipLeft (v : Byte) (s : State) : (s.setLuma v).skipLeft = s.skipLeft := rfl
@[simp] theorem State.setLuma_n (v : Byte) (s : State) : (s.setLuma v).n = s.n := rfl
@[simp] theorem State.setLuma_c (v : Byte) (s : State) : (s.setLuma v).c = s.c := rfl
@[simp] theorem State.setLuma_rlist (v : Byte) (s : State) : (s.setLuma v).rlist = s.rlist := rfl
@[simp] theorem State.setLuma_ri (v : Byte) (s : State) : (s.setLuma v).ri = s.ri := rfl
@[simp] theorem State.setLuma_raw (v : Byte) (s : State) : (s.setLuma v).raw = s.raw := rfl
@[simp] theorem State.setLuma_win (v : Byte) (s : State) : (s.setLuma v).win = s.win := rfl
@[simp] theorem State.setLuma_strip (v : Byte) (s : State) : (s.setLuma v).strip = s.strip := rfl
@[simp] theorem State.setLuma_carry (v : Byte) (s : State) : (s.setLuma v).carry = s.carry := rfl
@[simp] theorem State.setLuma_look (v : Byte) (s : State) : (s.setLuma v).look = s.look := rfl
@[simp] theorem State.setLuma_inPos (v : Byte) (s : State) : (s.setLuma v).inPos = s.inPos := rfl
@[simp] theorem State.setLuma_outPos (v : Byte) (s : State) : (s.setLuma v).outPos = s.outPos := rfl
@[simp] theorem State.setLuma_ovf (v : Byte) (s : State) : (s.setLuma v).ovf = s.ovf := rfl
@[simp] theorem State.setLuma_engineOpen (v : Byte) (s : State) : (s.setLuma v).engineOpen = s.engineOpen := rfl
@[simp] theorem State.setLuma_mem (v : Byte) (s : State) : (s.setLuma v).mem = s.mem := rfl
@[simp] theorem State.setLuma_regions (v : Byte) (s : State) : (s.setLuma v).regions = s.regions := rfl
@[simp] theorem State.setLuma_renewed (v : Byte) (s : State) : (s.setLuma v).renewed = s.renewed := rfl
@[simp] theorem State.setLuma_source (v : Byte) (s : State) : (s.setLuma v).source = s.source := rfl
@[simp] theorem State.setLuma_sink (v : Byte) (s : State) : (s.setLuma v).sink = s.sink := rfl
@[simp] theorem State.setLuma_engine (v : Byte) (s : State) : (s.setLuma v).engine = s.engine := rfl
@[simp] theorem State.setLuma_events (v : Byte) (s : State) : (s.setLuma v).events = s.events := rfl
@[simp] theorem State.setLuma_turns (v : Byte) (s : State) : (s.setLuma v).turns = s.turns := rfl
@[simp] theorem State.setLuma_hostData (v : Byte) (s : State) : (s.setLuma v).hostData = s.hostData := rfl
@[simp] theorem State.setLuma_dp (v : Byte) (s : State) : (s.setLuma v).dp = { s.dp with luma := v } := rfl
@[simp] theorem State.setLuma_stale (v : Byte) (s : State) : (s.setLuma v).stale = s.stale := rfl

/-! ## setRow: a datapath result is held -/

@[simp] theorem State.setRow_regs (v : List Byte) (s : State) : (s.setRow v).regs = s.regs := rfl
@[simp] theorem State.setRow_estBytes (v : List Byte) (s : State) : (s.setRow v).estBytes = s.estBytes := rfl
@[simp] theorem State.setRow_outSize (v : List Byte) (s : State) : (s.setRow v).outSize = s.outSize := rfl
@[simp] theorem State.setRow_progress (v : List Byte) (s : State) : (s.setRow v).progress = s.progress := rfl
@[simp] theorem State.setRow_errCode (v : List Byte) (s : State) : (s.setRow v).errCode = s.errCode := rfl
@[simp] theorem State.setRow_errOp (v : List Byte) (s : State) : (s.setRow v).errOp = s.errOp := rfl
@[simp] theorem State.setRow_errState (v : List Byte) (s : State) : (s.setRow v).errState = s.errState := rfl
@[simp] theorem State.setRow_fsm (v : List Byte) (s : State) : (s.setRow v).fsm = s.fsm := rfl
@[simp] theorem State.setRow_done (v : List Byte) (s : State) : (s.setRow v).done = s.done := rfl
@[simp] theorem State.setRow_err (v : List Byte) (s : State) : (s.setRow v).err = s.err := rfl
@[simp] theorem State.setRow_rej (v : List Byte) (s : State) : (s.setRow v).rej = s.rej := rfl
@[simp] theorem State.setRow_cfg (v : List Byte) (s : State) : (s.setRow v).cfg = s.cfg := rfl
@[simp] theorem State.setRow_mode (v : List Byte) (s : State) : (s.setRow v).mode = s.mode := rfl
@[simp] theorem State.setRow_op (v : List Byte) (s : State) : (s.setRow v).op = s.op := rfl
@[simp] theorem State.setRow_skipLeft (v : List Byte) (s : State) : (s.setRow v).skipLeft = s.skipLeft := rfl
@[simp] theorem State.setRow_n (v : List Byte) (s : State) : (s.setRow v).n = s.n := rfl
@[simp] theorem State.setRow_c (v : List Byte) (s : State) : (s.setRow v).c = s.c := rfl
@[simp] theorem State.setRow_rlist (v : List Byte) (s : State) : (s.setRow v).rlist = s.rlist := rfl
@[simp] theorem State.setRow_ri (v : List Byte) (s : State) : (s.setRow v).ri = s.ri := rfl
@[simp] theorem State.setRow_raw (v : List Byte) (s : State) : (s.setRow v).raw = s.raw := rfl
@[simp] theorem State.setRow_win (v : List Byte) (s : State) : (s.setRow v).win = s.win := rfl
@[simp] theorem State.setRow_strip (v : List Byte) (s : State) : (s.setRow v).strip = s.strip := rfl
@[simp] theorem State.setRow_carry (v : List Byte) (s : State) : (s.setRow v).carry = s.carry := rfl
@[simp] theorem State.setRow_look (v : List Byte) (s : State) : (s.setRow v).look = s.look := rfl
@[simp] theorem State.setRow_inPos (v : List Byte) (s : State) : (s.setRow v).inPos = s.inPos := rfl
@[simp] theorem State.setRow_outPos (v : List Byte) (s : State) : (s.setRow v).outPos = s.outPos := rfl
@[simp] theorem State.setRow_ovf (v : List Byte) (s : State) : (s.setRow v).ovf = s.ovf := rfl
@[simp] theorem State.setRow_engineOpen (v : List Byte) (s : State) : (s.setRow v).engineOpen = s.engineOpen := rfl
@[simp] theorem State.setRow_mem (v : List Byte) (s : State) : (s.setRow v).mem = s.mem := rfl
@[simp] theorem State.setRow_regions (v : List Byte) (s : State) : (s.setRow v).regions = s.regions := rfl
@[simp] theorem State.setRow_renewed (v : List Byte) (s : State) : (s.setRow v).renewed = s.renewed := rfl
@[simp] theorem State.setRow_source (v : List Byte) (s : State) : (s.setRow v).source = s.source := rfl
@[simp] theorem State.setRow_sink (v : List Byte) (s : State) : (s.setRow v).sink = s.sink := rfl
@[simp] theorem State.setRow_engine (v : List Byte) (s : State) : (s.setRow v).engine = s.engine := rfl
@[simp] theorem State.setRow_events (v : List Byte) (s : State) : (s.setRow v).events = s.events := rfl
@[simp] theorem State.setRow_turns (v : List Byte) (s : State) : (s.setRow v).turns = s.turns := rfl
@[simp] theorem State.setRow_hostData (v : List Byte) (s : State) : (s.setRow v).hostData = s.hostData := rfl
@[simp] theorem State.setRow_dp (v : List Byte) (s : State) : (s.setRow v).dp = { s.dp with row := v } := rfl
@[simp] theorem State.setRow_stale (v : List Byte) (s : State) : (s.setRow v).stale = s.stale := rfl

end Sys2Proof.Machine
end

