-- ==== Sys2Proof/Laws/Memory.lean ====
section
/-! SUPPORT. The laws of data by number and of bus memory: which addresses answer, read after write, and
the canonical form, which every operation keeps. -/

namespace Sys2Proof.Machine

variable {α : Type}

/-! ## Read after write -/

theorem Table.get_put_same (k : Nat) (v : α) (t : Table α) : Table.get k (Table.put k v t) = some v := by
  induction t with
  | nil => simp [Table.put, Table.get]
  | cons hd tl ih =>
    obtain ⟨a, w⟩ := hd
    simp only [Table.put]
    split
    · simp [Table.get]
    · split
      · simp [Table.get]
      · rename_i h1 h2
        simp only [Table.get]
        rw [if_neg (fun h => h2 h.symm), ih]

theorem Table.get_put_other (k j : Nat) (v : α) (t : Table α) (h : j ≠ k) :
    Table.get j (Table.put k v t) = Table.get j t := by
  induction t with
  | nil => simp [Table.put, Table.get, Ne.symm h]
  | cons hd tl ih =>
    obtain ⟨a, w⟩ := hd
    simp only [Table.put]
    split
    · simp [Table.get, Ne.symm h]
    · split
      · rename_i h1 h2
        subst h2
        simp [Table.get, Ne.symm h]
      · simp only [Table.get]
        rw [ih]

theorem Table.get_put (k j : Nat) (v : α) (t : Table α) :
    Table.get j (Table.put k v t) = if j = k then some v else Table.get j t := by
  split
  · rename_i h; subst h; exact Table.get_put_same ..
  · rename_i h; exact Table.get_put_other _ _ _ _ h

/-! ## The canonical form -/

/-- Every number of the data is above a bound. -/
theorem Table.sorted_tail {a : Nat} {v : α} {t : Table α} (h : Table.sorted ((a, v) :: t) = true) :
    Table.sorted t = true := by
  cases t with
  | nil => rfl
  | cons hd tl =>
    simp only [Table.sorted, Bool.and_eq_true] at h
    exact h.2

theorem Table.sorted_head_lt {a : Nat} {v : α} {t : Table α} (h : Table.sorted ((a, v) :: t) = true) :
    ∀ c ∈ t, a < c.1 := by
  induction t generalizing a v with
  | nil => simp
  | cons hd tl ih =>
    obtain ⟨b, w⟩ := hd
    simp only [Table.sorted, Bool.and_eq_true, decide_eq_true_eq] at h
    intro c hc
    rcases List.mem_cons.1 hc with rfl | hc
    · exact h.1
    · exact Nat.lt_trans h.1 (ih h.2 c hc)

theorem Table.sorted_cons {a : Nat} {v : α} {t : Table α} (h : ∀ c ∈ t, a < c.1)
    (ht : Table.sorted t = true) : Table.sorted ((a, v) :: t) = true := by
  cases t with
  | nil => rfl
  | cons hd tl =>
    simp only [Table.sorted, Bool.and_eq_true, decide_eq_true_eq]
    exact ⟨h hd (List.mem_cons_self ..), ht⟩

theorem Table.mem_put {k : Nat} {v : α} {t : Table α} {c : Nat × α} (h : c ∈ Table.put k v t) :
    c = (k, v) ∨ c ∈ t := by
  induction t with
  | nil => simpa [Table.put] using h
  | cons hd tl ih =>
    obtain ⟨a, w⟩ := hd
    simp only [Table.put] at h
    split at h
    · simpa using h
    · split at h
      · rcases List.mem_cons.1 h with h | h
        · exact .inl h
        · exact .inr (List.mem_cons_of_mem _ h)
      · rcases List.mem_cons.1 h with h | h
        · exact .inr (h ▸ List.mem_cons_self ..)
        · rcases ih h with h | h
          · exact .inl h
          · exact .inr (List.mem_cons_of_mem _ h)

/-- Setting an entry keeps the canonical form. -/
theorem Table.put_sorted (k : Nat) (v : α) (t : Table α) (h : Table.sorted t = true) :
    Table.sorted (Table.put k v t) = true := by
  induction t with
  | nil => rfl
  | cons hd tl ih =>
    obtain ⟨a, w⟩ := hd
    have hlt := Table.sorted_head_lt h
    simp only [Table.put]
    split
    · rename_i hk
      exact Table.sorted_cons
        (fun c hc => by
          rcases List.mem_cons.1 hc with rfl | hc
          · exact hk
          · exact Nat.lt_trans hk (hlt c hc)) h
    · split
      · rename_i _ hk
        subst hk
        exact Table.sorted_cons hlt (Table.sorted_tail h)
      · rename_i h1 h2
        refine Table.sorted_cons (fun c hc => ?_) (ih (Table.sorted_tail h))
        rcases Table.mem_put hc with rfl | hc
        · exact Nat.lt_of_le_of_ne (Nat.le_of_not_lt h1) (Ne.symm h2)
        · exact hlt c hc

/-- Leaving entries out keeps the canonical form. -/
theorem Table.filter_sorted (p : Nat × α → Bool) (t : Table α) (h : Table.sorted t = true) :
    Table.sorted (t.filter p) = true := by
  induction t with
  | nil => rfl
  | cons hd tl ih =>
    have ht := ih (Table.sorted_tail h)
    simp only [List.filter_cons]
    split
    · exact Table.sorted_cons (fun c hc => Table.sorted_head_lt h c (List.mem_filter.1 hc).1) ht
    · exact ht

/-- Leaving entries out by their number: the others stay. -/
theorem Table.get_filter (p : Nat → Bool) (k : Nat) (t : Table α) :
    Table.get k (t.filter fun c => p c.1) = if p k then Table.get k t else none := by
  induction t with
  | nil => simp [Table.get]
  | cons hd tl ih =>
    obtain ⟨a, v⟩ := hd
    by_cases ha : a = k
    · subst ha
      cases hp : p a <;> simp [hp, Table.get, ih]
    · cases hp : p a <;> simp [hp, Table.get, ha, ih]

/-! ## Which addresses answer -/

/-- A range that meets no region without the access, and ends within 2^32, answers at each of its
addresses. -/
theorem answersAt_of_rangeAnswers {ok : MemRegion → Bool} {regions : List MemRegion} {base size a : Nat}
    (h : rangeAnswers ok regions base size = true) (he : base + size ≤ 2 ^ 32)
    (ha : base ≤ a ∧ a < base + size) : answersAt ok regions a = true := by
  simp only [rangeAnswers, List.all_eq_true, Bool.or_eq_true, disjoint, decide_eq_true_eq] at h
  simp only [answersAt, Bool.and_eq_true, decide_eq_true_eq, List.all_eq_true, Bool.or_eq_true,
    Bool.not_eq_true', MemRegion.covers, decide_eq_false_iff_not]
  refine ⟨by omega, fun r hr => ?_⟩
  rcases h r hr with h | h
  · exact .inl h
  · exact .inr (by omega)

/-- A range each of whose addresses answers meets no region without the access. -/
theorem rangeAnswers_of_answersAt {ok : MemRegion → Bool} {regions : List MemRegion} {base size : Nat}
    (h : ∀ a, base ≤ a → a < base + size → answersAt ok regions a = true) :
    rangeAnswers ok regions base size = true := by
  simp only [rangeAnswers, List.all_eq_true, Bool.or_eq_true, disjoint, decide_eq_true_eq]
  intro r hr
  by_cases hok : ok r = true
  · exact .inl hok
  · refine .inr ?_
    by_contra hn
    have := h (max base r.base) (by omega) (by omega)
    simp only [answersAt, Bool.and_eq_true, decide_eq_true_eq, List.all_eq_true, Bool.or_eq_true,
      Bool.not_eq_true', MemRegion.covers, decide_eq_false_iff_not] at this
    rcases this.2 r hr with h1 | h1
    · exact hok h1
    · omega

/-! ## Bus memory -/

/-- A stored byte reads back, every other address holds what it held. -/
theorem Memory.byteAt_store (unlisted : Nat → Byte) (a b : Nat) (v : Byte) (m : Memory) :
    Memory.byteAt unlisted (Memory.store unlisted a v m) b
      = if b = a then v else Memory.byteAt unlisted m b := by
  unfold Memory.byteAt Memory.store
  by_cases hv : v = unlisted a
  · rw [if_pos hv, Table.get_filter (fun k => decide (k ≠ a))]
    by_cases hb : b = a
    · subst hb; simp [hv]
    · simp [hb]
  · rw [if_neg hv, Table.get_put]
    by_cases hb : b = a <;> simp [hb]

/-- Storing one byte keeps the canonical form. -/
theorem Memory.store_wf (unlisted : Nat → Byte) (a : Nat) (v : Byte) (m : Memory)
    (h : Memory.wf unlisted m = true) : Memory.wf unlisted (Memory.store unlisted a v m) = true := by
  simp only [Memory.wf, Bool.and_eq_true, List.all_eq_true, decide_eq_true_eq] at h ⊢
  unfold Memory.store
  split
  · exact ⟨Table.filter_sorted _ m h.1, fun c hc => h.2 c (List.mem_filter.1 hc).1⟩
  · refine ⟨Table.put_sorted a v m h.1, fun c hc => ?_⟩
    rcases Table.mem_put hc with rfl | hc
    · assumption
    · exact h.2 c hc

/-- Storing bytes keeps the canonical form. -/
theorem storeBytes_wf (writable : Nat → Bool) (unlisted : Nat → Byte) (bytes : List Byte) :
    ∀ (a : Nat) (m m' : Memory), storeBytes writable unlisted a m bytes = .ok m' →
      Memory.wf unlisted m = true → Memory.wf unlisted m' = true := by
  induction bytes with
  | nil => intro a m m' h hm; cases h; exact hm
  | cons v vs ih =>
    intro a m m' h hm
    simp only [storeBytes] at h
    split at h
    · exact ih _ _ _ h (Memory.store_wf unlisted a v m hm)
    · cases h

/-- What an unlisted address holds outside the output range of an abandoned encode is not touched by
reset. -/
theorem State.unlistedByte_assertReset (s : State) (a : Nat)
    (h : ¬ (s.abandonsBuffer = true ∧ s.cfg.inOutput a = true)) :
    s.assertReset.unlistedByte a = s.unlistedByte a := by
  show Config.memByte (generationAt s.renewedAfterReset a) a = _
  unfold State.renewedAfterReset
  split
  · rename_i hb
    have : ¬ (s.cfg.outAddr.toNat ≤ a ∧ a < s.cfg.outAddr.toNat + s.cfg.outCap.toNat) := fun hc =>
      h ⟨hb, decide_eq_true hc⟩
    simp only [generationAt, if_neg this, State.unlistedByte]
  · rfl

/-- Outside the output range of an abandoned encode reset leaves bus memory as it is. -/
theorem State.byteAt_assertReset (s : State) (a : Nat)
    (h : ¬ (s.abandonsBuffer = true ∧ s.cfg.inOutput a = true)) :
    s.assertReset.byteAt a = s.byteAt a := by
  unfold State.byteAt Memory.byteAt
  rw [State.unlistedByte_assertReset s a h]
  have hg : Table.get a s.memAfterReset = Table.get a s.mem := by
    unfold State.memAfterReset
    split
    · rename_i hb
      have : s.cfg.inOutput a = false := by
        cases hc : s.cfg.inOutput a
        · rfl
        · exact absurd ⟨hb, hc⟩ h
      rw [Table.get_filter (fun k => !s.cfg.inOutput k), this]
      rfl
    · rfl
  rw [State.assertReset_mem, hg]

/-- Reset keeps the canonical form of bus memory. -/
theorem State.assertReset_wf (s : State) (h : Memory.wf s.unlistedByte s.mem = true) :
    Memory.wf s.assertReset.unlistedByte s.assertReset.mem = true := by
  simp only [Memory.wf, Bool.and_eq_true, List.all_eq_true, decide_eq_true_eq] at h ⊢
  show Table.sorted s.memAfterReset = true ∧ ∀ c ∈ s.memAfterReset, _
  unfold State.memAfterReset
  split
  · refine ⟨Table.filter_sorted _ _ h.1, fun c hc => ?_⟩
    obtain ⟨hc, ho⟩ := List.mem_filter.1 hc
    rw [State.unlistedByte_assertReset s c.1 (fun hx => by simp [hx.2] at ho)]
    exact h.2 c hc
  · rename_i hb
    refine ⟨h.1, fun c hc => ?_⟩
    rw [State.unlistedByte_assertReset s c.1 (fun hx => hb hx.1)]
    exact h.2 c hc

/-- The memory after reset has the canonical form. -/
theorem State.reset_mem_wf : Memory.wf State.reset.unlistedByte State.reset.mem = true := rfl

/-- Bytes whose addresses all answer are stored. -/
theorem storeBytes_answers (writable : Nat → Bool) (unlisted : Nat → Byte) (bytes : List Byte) :
    ∀ (a : Nat) (m : Memory), (∀ i, i < bytes.length → writable (a + i) = true) →
      ∃ m', storeBytes writable unlisted a m bytes = .ok m' := by
  induction bytes with
  | nil => intro a m _; exact ⟨m, rfl⟩
  | cons v vs ih =>
    intro a m h
    have h0 : writable a = true := h 0 (Nat.succ_pos _)
    obtain ⟨m', hm⟩ := ih (a + 1) (Memory.store unlisted a v m) fun i hi => by
      have := h (i + 1) (Nat.succ_lt_succ hi)
      rwa [show a + 1 + i = a + (i + 1) by omega]
    exact ⟨m', by simp only [storeBytes, h0, if_true, hm]⟩

/-- Stored bytes are the only change: an address outside them holds what it held. -/
theorem storeBytes_byteAt_other (writable : Nat → Bool) (unlisted : Nat → Byte) (bytes : List Byte) :
    ∀ (a : Nat) (m m' : Memory) (b : Nat), storeBytes writable unlisted a m bytes = .ok m' →
      (b < a ∨ a + bytes.length ≤ b) → Memory.byteAt unlisted m' b = Memory.byteAt unlisted m b := by
  induction bytes with
  | nil => intro a m m' b h _; cases h; rfl
  | cons v vs ih =>
    intro a m m' b h hb
    simp only [List.length_cons] at hb
    simp only [storeBytes] at h
    split at h
    · rw [ih _ _ _ b h (by omega), Memory.byteAt_store, if_neg (by omega)]
    · cases h

/-- A stored byte reads back. -/
theorem storeBytes_byteAt_stored (writable : Nat → Bool) (unlisted : Nat → Byte) (bytes : List Byte) :
    ∀ (a : Nat) (m m' : Memory) (i : Nat), storeBytes writable unlisted a m bytes = .ok m' →
      (h : i < bytes.length) → Memory.byteAt unlisted m' (a + i) = bytes[i] := by
  induction bytes with
  | nil => intro a m m' i _ h; exact absurd h (Nat.not_lt_zero _)
  | cons v vs ih =>
    intro a m m' i h hi
    simp only [storeBytes] at h
    split at h
    · cases i with
      | zero =>
        rw [Nat.add_zero, storeBytes_byteAt_other _ _ _ _ _ _ a h (.inl (Nat.lt_succ_self a)),
          Memory.byteAt_store, if_pos rfl]
        rfl
      | succ j =>
        have := ih (a + 1) _ m' j h (Nat.lt_of_succ_lt_succ hi)
        rw [show a + (j + 1) = a + 1 + j by omega, this]
        rfl
    · cases h

/-- Bytes whose addresses all answer are read, each as memory holds it. -/
theorem State.readBytes_answers (s : State) :
    ∀ (n a : Nat), (∀ i, i < n → s.readable (a + i) = true) →
      s.readBytes a n = .ok ((List.range n).map fun i => s.byteAt (a + i)) := by
  intro n
  induction n with
  | zero => intro a _; rfl
  | succ n ih =>
    intro a h
    have h0 : s.readable a = true := h 0 (Nat.succ_pos _)
    have ht := ih (a + 1) fun i hi => by
      have := h (i + 1) (Nat.succ_lt_succ hi)
      rwa [show a + 1 + i = a + (i + 1) by omega]
    simp only [State.readBytes, State.readByte, h0, if_true, ht, List.range_succ_eq_map,
      List.map_cons, List.map_map, Nat.add_zero]
    congr 2
    exact List.map_congr_left fun i _ => by
      show s.byteAt (a + 1 + i) = s.byteAt (a + (i + 1))
      rw [show a + 1 + i = a + (i + 1) by omega]

/-- Bytes that are read are as many as asked. -/
theorem State.readBytes_length (s : State) :
    ∀ (n a : Nat) (bs : List Byte), s.readBytes a n = .ok bs → bs.length = n := by
  intro n
  induction n with
  | zero => intro a bs h; cases h; rfl
  | succ n ih =>
    intro a bs h
    simp only [State.readBytes] at h
    split at h
    · cases h
    · split at h
      · cases h
      · rename_i vs hvs
        cases h
        simp [ih _ _ hvs]

end Sys2Proof.Machine
end

