-- ==== Sys2Proof/Laws/PerInstr.lean ====
section
/-! SUPPORT. Statements made for every instruction, one lemma per constructor: the word the encoder writes
fits a row of spec/opcode_table.json of the instruction's mnemonic. -/

namespace Sys2Proof.Laws

/-- The word of a presented form that the opcode table's match and mask are about: the CTRL word, the
FORMAT word, the pixel class, the STATUS word; a host access has no such word. -/
def tableWord : Presented → Nat
  | .cmd data => data.toNat
  | .bus _ => 0
  | .fmtsel _ format _ => format.toNat
  | .cls code _ _ => code.toNat
  | .state status => status.toNat

/-- The (match, mask) pairs of the table's rows for an instruction; a host access, whose rows have none,
is checked by its kind, width and alignment instead. -/
def tableRows : Instr → List (Nat × Nat)
  | .nop => [(0x0, 0xf)]
  | .encodeStream => [(0x1, 0xf)]
  | .encodeBuffer => [(0x2, 0xf)]
  | .estimate => [(0x3, 0xf)]
  | .cmdReserved _ => [(0x4, 0xc), (0x8, 0x8)]
  | .hostRead _ => []
  | .hostWrite _ _ => []
  | .unpackRaw8 _ => [(0x0, 0x7)]
  | .unpackRaw10p _ => [(0x1, 0x7)]
  | .unpackRaw12p _ => [(0x2, 0x7)]
  | .unpackRaw10 _ => [(0x3, 0x7)]
  | .unpackRaw12 _ => [(0x4, 0x7)]
  | .unpackRaw16 _ => [(0x5, 0x7)]
  | .pixfmtReserved _ => [(0x6, 0x6)]
  | .blcBypass _ => [(0x0, 0x40000)]
  | .blcSub _ => [(0x40000, 0x40000)]
  | .blcSub2 _ => [(0x40000, 0x40000)]
  | .cfaColor _ _ => [(0x0, 0x0)]
  | .wbNorm _ => [(0x10000, 0x10000)]
  | .cscPixel _ => [(0x10000, 0x10000)]
  | .pairChroma _ _ => [(0x10000, 0x10000)]
  | .ref _ _ => [(0x0, 0x10000)]
  | .csc444 _ => [(0x0, 0x300)]
  | .csc422 _ => [(0x100, 0x300)]
  | .csc420Even _ => [(0x200, 0x300)]
  | .csc420Odd _ => [(0x200, 0x300)]
  | .subsampReserved => [(0x300, 0x300)]
  | .toneLut _ => [(0x0, 0x0)]
  | .dmR _ _ => [(0x0, 0x3)]
  | .dmB _ _ => [(0x2, 0x3)]
  | .dmGRrow _ _ => [(0x5, 0x7)]
  | .dmGBrow _ _ => [(0x1, 0x7)]
  | .stepPreflight => [(0x100, 0xf00)]
  | .stepSkip => [(0x200, 0xf00)]
  | .stepBegin => [(0x300, 0xf00)]
  | .stepAwait => [(0x400, 0xf00)]
  | .stepRead => [(0x500, 0xf00)]
  | .stepUnpack => [(0x600, 0xf00)]
  | .stepDemosaic => [(0x700, 0xf00)]
  | .stepEmit => [(0x800, 0xf00)]
  | .stepFinish => [(0x900, 0xf00)]
  | .wait _ => [(0x0, 0xf00), (0xa00, 0xf00), (0xb00, 0xf00)]

/-- A word fits a row: its bits under the mask are the match. -/
def fits (w : Nat) (row : Nat × Nat) : Bool := decide (w &&& row.2 = row.1)

/-- A host access is well formed and of the kind (write or not) of its row. -/
def busFits (write : Bool) : Presented → Bool
  | .bus a => decide (a.write = write ∧ a.width = 32 ∧ a.offset % 4 = 0 ∧ a.offset < 256)
  | .cmd _ => false
  | .fmtsel _ _ _ => false
  | .cls _ _ _ => false
  | .state _ => false

/-- The encoded word of an instruction fits a row of its mnemonic. -/
def fitsTable (i : Instr) : Bool :=
  match i with
  | .hostRead _ => busFits false (encode i)
  | .hostWrite _ _ => busFits true (encode i)
  | .nop => (tableRows i).any (fits (tableWord (encode i)))
  | .encodeStream => (tableRows i).any (fits (tableWord (encode i)))
  | .encodeBuffer => (tableRows i).any (fits (tableWord (encode i)))
  | .estimate => (tableRows i).any (fits (tableWord (encode i)))
  | .cmdReserved _ => (tableRows i).any (fits (tableWord (encode i)))
  | .unpackRaw8 _ => (tableRows i).any (fits (tableWord (encode i)))
  | .unpackRaw10p _ => (tableRows i).any (fits (tableWord (encode i)))
  | .unpackRaw12p _ => (tableRows i).any (fits (tableWord (encode i)))
  | .unpackRaw10 _ => (tableRows i).any (fits (tableWord (encode i)))
  | .unpackRaw12 _ => (tableRows i).any (fits (tableWord (encode i)))
  | .unpackRaw16 _ => (tableRows i).any (fits (tableWord (encode i)))
  | .pixfmtReserved _ => (tableRows i).any (fits (tableWord (encode i)))
  | .blcBypass _ => (tableRows i).any (fits (tableWord (encode i)))
  | .blcSub _ => (tableRows i).any (fits (tableWord (encode i)))
  | .blcSub2 _ => (tableRows i).any (fits (tableWord (encode i)))
  | .cfaColor _ _ => (tableRows i).any (fits (tableWord (encode i)))
  | .wbNorm _ => (tableRows i).any (fits (tableWord (encode i)))
  | .cscPixel _ => (tableRows i).any (fits (tableWord (encode i)))
  | .pairChroma _ _ => (tableRows i).any (fits (tableWord (encode i)))
  | .ref _ _ => (tableRows i).any (fits (tableWord (encode i)))
  | .csc444 _ => (tableRows i).any (fits (tableWord (encode i)))
  | .csc422 _ => (tableRows i).any (fits (tableWord (encode i)))
  | .csc420Even _ => (tableRows i).any (fits (tableWord (encode i)))
  | .csc420Odd _ => (tableRows i).any (fits (tableWord (encode i)))
  | .subsampReserved => (tableRows i).any (fits (tableWord (encode i)))
  | .toneLut _ => (tableRows i).any (fits (tableWord (encode i)))
  | .dmR _ _ => (tableRows i).any (fits (tableWord (encode i)))
  | .dmB _ _ => (tableRows i).any (fits (tableWord (encode i)))
  | .dmGRrow _ _ => (tableRows i).any (fits (tableWord (encode i)))
  | .dmGBrow _ _ => (tableRows i).any (fits (tableWord (encode i)))
  | .stepPreflight => (tableRows i).any (fits (tableWord (encode i)))
  | .stepSkip => (tableRows i).any (fits (tableWord (encode i)))
  | .stepBegin => (tableRows i).any (fits (tableWord (encode i)))
  | .stepAwait => (tableRows i).any (fits (tableWord (encode i)))
  | .stepRead => (tableRows i).any (fits (tableWord (encode i)))
  | .stepUnpack => (tableRows i).any (fits (tableWord (encode i)))
  | .stepDemosaic => (tableRows i).any (fits (tableWord (encode i)))
  | .stepEmit => (tableRows i).any (fits (tableWord (encode i)))
  | .stepFinish => (tableRows i).any (fits (tableWord (encode i)))
  | .wait _ => (tableRows i).any (fits (tableWord (encode i)))

namespace OpcodeTable

/-- A well-formed instruction is encoded by a word that fits its row of spec/opcode_table.json. -/
def Statement (i : Instr) : Prop := i.wellFormed = true → fitsTable i = true

theorem nop : Statement .nop := by intro _; decide
theorem encodeStream : Statement .encodeStream := by intro _; decide
theorem encodeBuffer : Statement .encodeBuffer := by intro _; decide
theorem estimate : Statement .estimate := by intro _; decide
theorem cmdReserved (code : BitVec 4) : Statement (.cmdReserved code) := by revert code; unfold Statement; decide
theorem hostRead (offset : BitVec 8) : Statement (.hostRead offset) := by
  intro h
  have hw : offset.toNat % 4 = 0 := of_decide_eq_true h
  have hl : offset.toNat < 256 := offset.isLt
  simp [fitsTable, busFits, encode, hw, hl]
theorem hostWrite (offset : BitVec 8) (data : Word) : Statement (.hostWrite offset data) := by
  intro h
  have hw : offset.toNat % 4 = 0 := of_decide_eq_true h
  have hl : offset.toNat < 256 := offset.isLt
  simp [fitsTable, busFits, encode, hw, hl]
theorem unpackRaw8 (b : List Byte) : Statement (.unpackRaw8 b) := by
  intro _; simp only [fitsTable, tableRows, encode, tableWord]; decide
theorem unpackRaw10p (b : List Byte) : Statement (.unpackRaw10p b) := by
  intro _; simp only [fitsTable, tableRows, encode, tableWord]; decide
theorem unpackRaw12p (b : List Byte) : Statement (.unpackRaw12p b) := by
  intro _; simp only [fitsTable, tableRows, encode, tableWord]; decide
theorem unpackRaw10 (b : List Byte) : Statement (.unpackRaw10 b) := by
  intro _; simp only [fitsTable, tableRows, encode, tableWord]; decide
theorem unpackRaw12 (b : List Byte) : Statement (.unpackRaw12 b) := by
  intro _; simp only [fitsTable, tableRows, encode, tableWord]; decide
theorem unpackRaw16 (b : List Byte) : Statement (.unpackRaw16 b) := by
  intro _; simp only [fitsTable, tableRows, encode, tableWord]; decide
theorem pixfmtReserved (code : BitVec 3) : Statement (.pixfmtReserved code) := by revert code; unfold Statement; decide
theorem blcBypass (u : List Sample) : Statement (.blcBypass u) := by
  intro _; simp only [fitsTable, tableRows, encode, tableWord]; decide
theorem blcSub (u : List Sample) : Statement (.blcSub u) := by
  intro _; simp only [fitsTable, tableRows, encode, tableWord]; decide
theorem blcSub2 (u : List Sample) : Statement (.blcSub2 u) := by
  intro _; simp only [fitsTable, tableRows, encode, tableWord]; decide
theorem cfaColor (x : Nat) (y : Nat) : Statement (.cfaColor x y) := by
  intro _; simp only [fitsTable, tableRows, encode, tableWord]; decide
theorem wbNorm (p : Rgb16) : Statement (.wbNorm p) := by
  intro _; simp only [fitsTable, tableRows, encode, tableWord]; decide
theorem cscPixel (p : Rgb8) : Statement (.cscPixel p) := by
  intro _; simp only [fitsTable, tableRows, encode, tableWord]; decide
theorem pairChroma (p0 : Rgb8) (p1 : Rgb8) : Statement (.pairChroma p0 p1) := by
  intro _; simp only [fitsTable, tableRows, encode, tableWord]; decide
theorem ref (x : Nat) (y : Nat) : Statement (.ref x y) := by
  intro _; simp only [fitsTable, tableRows, encode, tableWord]; decide
theorem csc444 (y : Nat) : Statement (.csc444 y) := by
  intro _; simp only [fitsTable, tableRows, encode, tableWord]; decide
theorem csc422 (y : Nat) : Statement (.csc422 y) := by
  intro _; simp only [fitsTable, tableRows, encode, tableWord]; decide
theorem csc420Even (y : Nat) : Statement (.csc420Even y) := by
  intro _; simp only [fitsTable, tableRows, encode, tableWord]; decide
theorem csc420Odd (y : Nat) : Statement (.csc420Odd y) := by
  intro _; simp only [fitsTable, tableRows, encode, tableWord]; decide
theorem subsampReserved : Statement .subsampReserved := by intro _; decide
theorem toneLut (l : Byte) : Statement (.toneLut l) := by
  intro _; simp only [fitsTable, tableRows, encode, tableWord]; decide
theorem dmR (x : Nat) (y : Nat) : Statement (.dmR x y) := by
  intro _; simp only [fitsTable, tableRows, encode, tableWord]; decide
theorem dmB (x : Nat) (y : Nat) : Statement (.dmB x y) := by
  intro _; simp only [fitsTable, tableRows, encode, tableWord]; decide
theorem dmGRrow (x : Nat) (y : Nat) : Statement (.dmGRrow x y) := by
  intro _; simp only [fitsTable, tableRows, encode, tableWord]; decide
theorem dmGBrow (x : Nat) (y : Nat) : Statement (.dmGBrow x y) := by
  intro _; simp only [fitsTable, tableRows, encode, tableWord]; decide
theorem stepPreflight : Statement .stepPreflight := by intro _; decide
theorem stepSkip : Statement .stepSkip := by intro _; decide
theorem stepBegin : Statement .stepBegin := by intro _; decide
theorem stepAwait : Statement .stepAwait := by intro _; decide
theorem stepRead : Statement .stepRead := by intro _; decide
theorem stepUnpack : Statement .stepUnpack := by intro _; decide
theorem stepDemosaic : Statement .stepDemosaic := by intro _; decide
theorem stepEmit : Statement .stepEmit := by intro _; decide
theorem stepFinish : Statement .stepFinish := by intro _; decide
theorem wait (code : BitVec 4) : Statement (.wait code) := by revert code; unfold Statement; decide

end OpcodeTable

end Sys2Proof.Laws
end

