-- ==== Sys2Proof/Laws/Ports.lean ====
section
/-! SUPPORT. What the shared port operations can do: one lemma per operation that says, once, everything
that follows from an answer. -/

namespace Sys2Proof.Machine

/-! ## Answers -/

theorem Io.bind_eq_done {α β : Type} {x : Io α} {k : α → Io β} {b : β} :
    x.bind k = .done b ↔ ∃ a, x = .done a ∧ k a = .done b := by
  cases x <;> simp [Io.bind]

/-- A step whose outcome is a next state: either the answers came, or the core waits where it is. -/
theorem Io.outcome_eq_next {s t : State} {x : Io State} :
    x.outcome s = .next t ↔ x = .done t ∨ (x = .wait ∧ t = s) := by
  cases x <;> simp [Io.outcome, eq_comm]

/-! ## Bus writes -/

/-- `MemWrite`: the bytes are stored and the event recorded, nothing else changes. -/
theorem State.memWrite_done {a : Nat} {bytes : List Byte} {s t : State}
    (h : s.memWrite a bytes = .done t) :
    ∃ m, storeBytes s.writable s.unlistedByte a s.mem bytes = .ok m ∧
      t = { s with mem := m, events := s.events ++ [.memWrite a bytes] } := by
  unfold State.memWrite at h
  split at h
  · cases h
  · rename_i m hm
    cases h
    exact ⟨m, hm, rfl⟩

/-- `MemWrite` where every address answers: the bytes are stored. -/
theorem State.memWrite_answers {a : Nat} {bytes : List Byte} {s : State}
    (h : ∀ i, i < bytes.length → s.writable (a + i) = true) :
    ∃ m, storeBytes s.writable s.unlistedByte a s.mem bytes = .ok m ∧
      s.memWrite a bytes = .done { s with mem := m, events := s.events ++ [.memWrite a bytes] } := by
  obtain ⟨m, hm⟩ := storeBytes_answers s.writable s.unlistedByte bytes a s.mem h
  exact ⟨m, hm, by simp only [State.memWrite, hm]; rfl⟩

/-! ## Requests -/

/-- `StreamRead` in stream mode: the source's oldest answer, at most n bytes. -/
theorem State.streamReadPort_done {n : Nat} {s t : State} {b : List Byte}
    (h : s.streamReadPort n = .done (b, t)) :
    ∃ rest, s.source = b :: rest ∧ b.length ≤ n ∧
      t = { s with source := rest, events := s.events ++ [.streamRead n b] } := by
  unfold State.streamReadPort at h
  split at h
  · cases h
  · rename_i b' rest hs
    split at h
    · cases h
      exact ⟨rest, hs, ‹_›, rfl⟩
    · cases h

/-- `StreamRead` in buffer mode: the input range is used up, or the bytes come from bus memory. -/
theorem State.streamReadBuffer_done {n : Nat} {s t : State} {b : List Byte}
    (h : s.streamReadBuffer n = .done (b, t)) :
    (min n (s.cfg.inLen.toNat - s.inPos.toNat) = 0 ∧ b = [] ∧
      t = { s with events := s.events ++ [.streamRead n []] }) ∨
    (min n (s.cfg.inLen.toNat - s.inPos.toNat) ≠ 0 ∧
      s.readBytes (s.cfg.inAddr.toNat + s.inPos.toNat) (min n (s.cfg.inLen.toNat - s.inPos.toNat))
        = .ok b ∧
      t = { s with
            inPos := BitVec.ofNat 32
              (s.inPos.toNat + min n (s.cfg.inLen.toNat - s.inPos.toNat)),
            events := s.events ++ [.streamRead n b]
              ++ [.memRead (s.cfg.inAddr.toNat + s.inPos.toNat) b] }) := by
  simp only [State.streamReadBuffer] at h
  split at h
  · rename_i hk
    cases h
    exact .inl ⟨hk, rfl, rfl⟩
  · rename_i hk
    split at h
    · cases h
    · rename_i bytes hb
      cases h
      exact .inr ⟨hk, hb, rfl⟩

/-- What a request can change: the source, the input position and the event history. -/
theorem State.streamRead_done {n : Nat} {s t : State} {b : List Byte}
    (h : s.streamRead n = .done (b, t)) :
    ∃ src pos ev, t = { s with source := src, inPos := pos, events := ev } ∧ b.length ≤ n ∧
      (pos = s.inPos ∨ (s.mode = .buffer ∧ pos.toNat ≤ s.cfg.inLen.toNat)) := by
  unfold State.streamRead at h
  split at h
  · obtain ⟨rest, _, hb, rfl⟩ := State.streamReadPort_done h
    exact ⟨_, s.inPos, _, rfl, hb, .inl rfl⟩
  · rename_i hm
    rcases State.streamReadBuffer_done h with ⟨_, rfl, rfl⟩ | ⟨hk, hb, rfl⟩
    · exact ⟨_, _, _, rfl, Nat.zero_le _, .inl rfl⟩
    · have hl := State.readBytes_length s _ _ _ hb
      refine ⟨s.source, _, _, rfl, by omega, .inr ⟨hm, ?_⟩⟩
      have := s.cfg.inLen.isLt
      rw [BitVec.toNat_ofNat, Nat.mod_eq_of_lt (by omega)]
      omega

/-! ## Output writes -/

/-- `OutWrite` in stream mode: the sink's oldest count, at most the length. -/
theorem State.outWritePort_done {b : List Byte} {s t : State} (h : s.outWritePort b = .done t) :
    ∃ k rest, s.sink = k :: rest ∧ k ≤ b.length ∧
      t = { s with sink := rest, events := s.events ++ [.outWrite b k] } := by
  unfold State.outWritePort at h
  split at h
  · cases h
  · rename_i k rest hs
    split at h
    · cases h
      exact ⟨k, rest, hs, ‹_›, rfl⟩
    · cases h

/-- `OutWrite` in buffer mode: as many bytes as fit are stored at the output position. -/
theorem State.outWriteBuffer_done {b : List Byte} {s t : State} (h : s.outWriteBuffer b = .done t) :
    ∃ k m ev, k = min b.length (s.cfg.outCap.toNat - s.outPos.toNat) ∧
      storeBytes s.writable s.unlistedByte (s.cfg.outAddr.toNat + s.outPos.toNat) s.mem (b.take k)
        = .ok m ∧
      ev = (if k = 0 then s.events ++ [.outWrite b k]
        else s.events ++ [.outWrite b k] ++ [.memWrite (s.cfg.outAddr.toNat + s.outPos.toNat) (b.take k)]) ∧
      t = { s with
            mem := m, events := ev, outPos := BitVec.ofNat 32 (s.outPos.toNat + k),
            ovf := s.ovf || decide (k < b.length) } := by
  simp only [State.outWriteBuffer] at h
  split at h
  · rename_i hk
    cases h
    exact ⟨_, s.mem, _, rfl, by rw [hk]; rfl, rfl, by rw [if_pos hk]; rfl⟩
  · rename_i hk
    obtain ⟨m, hm, rfl⟩ := State.memWrite_done h
    exact ⟨_, m, _, rfl, hm, rfl, by rw [if_neg hk]; rfl⟩

/-- `OutWrite` in buffer mode where every address of the bytes that fit answers: it completes. -/
theorem State.outWriteBuffer_answers {b : List Byte} {s : State}
    (h : ∀ i, i < min b.length (s.cfg.outCap.toNat - s.outPos.toNat) →
      s.writable (s.cfg.outAddr.toNat + s.outPos.toNat + i) = true) :
    ∃ t, s.outWriteBuffer b = .done t := by
  simp only [State.outWriteBuffer]
  split
  · exact ⟨_, rfl⟩
  · obtain ⟨_, _, ht⟩ := State.memWrite_answers
      (s := State.log (.outWrite b (min b.length (s.cfg.outCap.toNat - s.outPos.toNat)))
        { s with
          outPos := BitVec.ofNat 32 (s.outPos.toNat + min b.length (s.cfg.outCap.toNat - s.outPos.toNat)),
          ovf := s.ovf || decide (min b.length (s.cfg.outCap.toNat - s.outPos.toNat) < b.length) })
      (a := s.cfg.outAddr.toNat + s.outPos.toNat)
      (bytes := b.take (min b.length (s.cfg.outCap.toNat - s.outPos.toNat)))
      fun i hi => h i (by rw [List.length_take] at hi; omega)
    exact ⟨_, ht⟩

/-- What the writes of an engine call can change: memory, the sink, the event history, the output position
and the overflow bit. -/
theorem State.outWrites_done :
    ∀ (ws : List (List Byte)) {s t : State}, State.outWrites ws s = .done t →
      ∃ mem sink ev pos ovf,
        t = { s with mem := mem, sink := sink, events := ev, outPos := pos, ovf := ovf } := by
  intro ws
  induction ws with
  | nil => intro s t h; cases h; exact ⟨_, _, _, _, _, rfl⟩
  | cons b bs ih =>
    intro s t h
    obtain ⟨s1, h1, h2⟩ := Io.bind_eq_done.1 h
    obtain ⟨m2, k2, e2, p2, o2, rfl⟩ := ih h2
    unfold State.outWrite at h1
    split at h1
    · obtain ⟨_, _, _, _, rfl⟩ := State.outWritePort_done h1
      exact ⟨_, _, _, _, _, rfl⟩
    · obtain ⟨_, _, _, _, _, _, rfl⟩ := State.outWriteBuffer_done h1
      exact ⟨_, _, _, _, _, rfl⟩

/-- One engine call: the oldest answer of the engine, the event, then its writes. -/
theorem State.engineCall_done {event : Bool → Event} {s t : State} {ok : Bool}
    (h : s.engineCall event = .done (ok, t)) :
    ∃ a rest, s.engine = a :: rest ∧ a.ok = ok ∧
      State.outWrites a.writes { s with engine := rest, events := s.events ++ [event a.ok] }
        = .done t := by
  unfold State.engineCall at h
  split at h
  · cases h
  · rename_i a rest hs
    obtain ⟨t', h1, h2⟩ := Io.bind_eq_done.1 h
    cases h2
    exact ⟨a, rest, hs, rfl, h1⟩

/-- What an engine call can change. -/
theorem State.engineCall_frame {event : Bool → Event} {s t : State} {ok : Bool}
    (h : s.engineCall event = .done (ok, t)) :
    ∃ mem sink eng ev pos ovf,
      t = { s with mem := mem, sink := sink, engine := eng, events := ev, outPos := pos, ovf := ovf } := by
  obtain ⟨a, rest, _, _, h1⟩ := State.engineCall_done h
  obtain ⟨_, _, _, _, _, rfl⟩ := State.outWrites_done _ h1
  exact ⟨_, _, _, _, _, _, rfl⟩

end Sys2Proof.Machine
end

