-- ==== Sys2Proof/Laws/Steps.lean ====
section
/-! SUPPORT. What each instruction can do: one inversion lemma per orchestrator step and one for the host's
instructions, each saying once every next state there can be. -/

namespace Sys2Proof.Machine

/-! ## The host's instructions -/

/-- An encode command: rejected while busy, accepted otherwise. -/
theorem startEncode_cases (m : Mode) (o : EncOp) (s : State) :
    (s.busy = true ∧ startEncode m o s = s.reject)
    ∨ (s.busy = false ∧ startEncode m o s = s.acceptEncode m o) := by
  unfold startEncode
  cases s.busy <;> simp

/-- What a word written to CTRL can do. -/
theorem presentCommand_next {data : Word} {s t : State} (h : presentCommand data s = .next t) :
    t = s ∨ t = s.reject
    ∨ (s.busy = false ∧ (t = s.acceptEncode .stream .encodeStream
      ∨ t = s.acceptEncode .buffer .encodeBuffer ∨ t = s.acceptEstimate)) := by
  unfold presentCommand at h
  split at h
  · cases h; exact .inl rfl
  · cases h
    rcases startEncode_cases .stream .encodeStream s with ⟨_, e⟩ | ⟨b, e⟩
    · exact .inr (.inl e)
    · exact .inr (.inr ⟨b, .inl e⟩)
  · cases h
    rcases startEncode_cases .buffer .encodeBuffer s with ⟨_, e⟩ | ⟨b, e⟩
    · exact .inr (.inl e)
    · exact .inr (.inr ⟨b, .inr (.inl e)⟩)
  · cases h
    cases hb : s.busy
    · exact .inr (.inr ⟨rfl, .inr (.inr (by simp))⟩)
    · exact .inr (.inl (by simp))
  · cases h; exact .inr (.inl rfl)

/-- What a host write can do. -/
theorem execHostWrite_next {offset : BitVec 8} {data : Word} {s t : State}
    (h : execHostWrite offset data s = .next t) :
    (offset = 0x00#8 ∧ presentCommand data s = .next t)
    ∨ (offset ≠ 0x00#8 ∧ t = { s with regs := s.regs.write offset data }) := by
  unfold execHostWrite at h
  split at h
  · split at h
    · exact .inl ⟨‹_›, h⟩
    · cases h; exact .inr ⟨‹_›, rfl⟩
  · cases h

/-- What a host read can do. -/
theorem execHostRead_next {offset : BitVec 8} {s t : State} (h : execHostRead offset s = .next t) :
    t = { s with hostData := s.readReg offset } := by
  unfold execHostRead at h
  split at h
  · cases h; rfl
  · cases h

/-- A reserved PIXFMT or SUBSAMP code raises an error in PREFLIGHT and does nothing elsewhere. -/
theorem reservedCode_cases (s : State) :
    reservedCode s = s ∨ (s.fsm = .preflight ∧
      ((∃ e, bufferArgError s.mode s.cfg = some e ∧ reservedCode s = s.raiseErr e)
        ∨ reservedCode s = s.raiseErr .invalidArguments)) := by
  unfold reservedCode
  split
  · rename_i hf
    split
    · rename_i e he; exact .inr ⟨hf, .inl ⟨e, he, rfl⟩⟩
    · exact .inr ⟨hf, .inr rfl⟩
  · exact .inl rfl

/-! ## Pre-flight -/

/-- The errors of the buffer-mode arguments. -/
theorem bufferArgError_some {m : Mode} {cfg : CfgRegs} {e : ErrCode} (h : bufferArgError m cfg = some e) :
    m = .buffer ∧ (e = .nullOutSize ∨ e = .nullInput ∨ e = .nullOutput ∨ e = .zeroCapacity) := by
  unfold bufferArgError at h
  cases m
  · simp at h
  · refine ⟨rfl, ?_⟩
    simp only [reduceCtorEq, if_false] at h
    split at h
    · cases h; simp
    · split at h
      · cases h; simp
      · split at h
        · cases h; simp
        · split at h
          · cases h; simp
          · cases h

/-- The errors of the checks up to the stride. -/
theorem configError_some {m : Mode} {cfg : CfgRegs} {e : ErrCode} (h : configError m cfg = some e) :
    bufferArgError m cfg = some e ∨ e = .invalidArguments ∨ e = .invalidDimensions ∨ e = .invalidStride := by
  unfold configError at h
  split at h
  · cases h; exact .inl ‹_›
  · split at h
    · cases h; simp
    · split at h
      · cases h; simp
      · split at h
        · cases h; simp
        · split at h
          · cases h; simp
          · cases h

/-- What the checks up to the stride leave true. -/
theorem configError_none {m : Mode} {cfg : CfgRegs} (h : configError m cfg = none) :
    cfg.codesValid = true ∧ 1 ≤ cfg.w ∧ 1 ≤ cfg.h ∧ cfg.strideValid = true
      ∧ (m = .buffer → cfg.rangesOk = true) := by
  unfold configError at h
  split at h
  · cases h
  · split at h
    · cases h
    · split at h
      · cases h
      · split at h
        · cases h
        · split at h
          · cases h
          · rename_i h1 h2 h3 h4
            refine ⟨by simpa using h1, by omega, by omega, by simpa using h4, ?_⟩
            intro hm
            simpa [hm] using h2

/-- The errors of the memory ceiling and the capacities. -/
theorem resourceError_some {cfg : CfgRegs} {e : ErrCode} (h : resourceError cfg = some e) :
    e = .memoryCeiling ∨ e = .allocRaw ∨ e = .allocUnpack ∨ e = .allocOut ∨ e = .allocCarry
      ∨ e = .allocLook := by
  unfold resourceError at h
  split at h
  · cases h; simp
  · split at h
    · cases h; simp
    · split at h
      · cases h; simp
      · split at h
        · cases h; simp
        · split at h
          · cases h; simp
          · split at h
            · cases h; simp
            · cases h

theorem execStepPreflight_next {s t : State} (h : execStepPreflight s = .next t) :
    (∃ e, configError s.mode s.cfg = some e ∧ t = s.raiseErr e)
    ∨ (∃ e, configError s.mode s.cfg = none ∧ resourceError s.cfg = some e
        ∧ t = s.writeEst.raiseErr e)
    ∨ (configError s.mode s.cfg = none ∧ resourceError s.cfg = none
        ∧ (s.mode = .buffer → s.cfg.rangesDisjoint = true ∧ s.rangesMapped = true)
        ∧ t = { s.writeEst with skipLeft := s.cfg.skipLines, fsm := .skip }) := by
  unfold execStepPreflight at h
  split at h
  · cases h; exact .inl ⟨_, ‹_›, rfl⟩
  · split at h
    · cases h; exact .inr (.inl ⟨_, ‹_›, ‹_›, rfl⟩)
    · split at h
      · cases h
      · rename_i hd
        split at h
        · cases h
        · rename_i hp
          cases h
          exact .inr (.inr ⟨‹_›, ‹_›, fun hm => ⟨by simpa [hm] using hd, by simpa [hm] using hp⟩, rfl⟩)

/-! ## Leading lines and the engine session -/

theorem execStepSkip_next {s t : State} (h : execStepSkip s = .next t) :
    (s.skipLeft = 0#32 ∧ t = { s with fsm := .begin })
    ∨ (s.skipLeft ≠ 0#32 ∧ (t = s ∨ ∃ b s1, s.streamRead s.cfg.stride = .done (b, s1) ∧
        ((b.length < s.cfg.stride ∧ t = s1.raiseErr .skipEndOfInput)
          ∨ (s.cfg.stride ≤ b.length ∧ t = { s1 with skipLeft := s1.skipLeft - 1#32 })))) := by
  unfold execStepSkip at h
  split at h
  · cases h; exact .inl ⟨‹_›, rfl⟩
  · refine .inr ⟨‹_›, ?_⟩
    rcases Io.outcome_eq_next.1 h with h | ⟨_, rfl⟩
    · obtain ⟨⟨b, s1⟩, h1, h2⟩ := Io.bind_eq_done.1 h
      refine .inr ⟨b, s1, h1, ?_⟩
      dsimp only at h2
      split at h2
      · cases h2; exact .inl ⟨‹_›, rfl⟩
      · cases h2; exact .inr ⟨Nat.le_of_not_lt ‹_›, rfl⟩
    · exact .inl rfl

theorem execStepBegin_next {s t : State} (h : execStepBegin s = .next t) :
    t = s ∨ ∃ ok s1, s.engineCall (beginEvent s.cfg) = .done (ok, s1) ∧
      ((ok = true ∧ t = { s1 with n := 0, engineOpen := true, fsm := .await })
        ∨ (ok = false ∧ t = s1.raiseErr .engineInit)) := by
  unfold execStepBegin at h
  split at h
  · cases h
  · rcases Io.outcome_eq_next.1 h with h | ⟨_, rfl⟩
    · obtain ⟨⟨ok, s1⟩, h1, h2⟩ := Io.bind_eq_done.1 h
      refine .inr ⟨ok, s1, h1, ?_⟩
      cases ok
      · cases h2; exact .inr ⟨rfl, rfl⟩
      · cases h2; exact .inl ⟨rfl, rfl⟩
    · exact .inl rfl

/-! ## The block-row state machine -/

/-- The members of a range of rows. -/
theorem mem_rowsFrom (a b r : Nat) : r ∈ rowsFrom a b ↔ a ≤ r ∧ r < b := by
  simp only [rowsFrom, List.mem_map, List.mem_range]
  constructor
  · rintro ⟨i, h, rfl⟩; omega
  · rintro ⟨h1, h2⟩; exact ⟨r - a, by omega, by omega⟩

theorem length_rowsFrom (a b : Nat) : (rowsFrom a b).length = b - a := by simp [rowsFrom]

/-- The first row to read, from the lookahead. -/
theorem State.firstRow_eq (s : State) :
    s.firstRow = s.cfg.y0 s.n + (if s.look = none then 0 else 1) := by
  unfold State.firstRow
  cases s.look <;> simp

/-- The members of the read list. -/
theorem State.mem_readList (s : State) (r : Nat) :
    r ∈ s.readList ↔ (s.firstRow ≤ r ∧ r < s.cfg.y1 s.n) ∨ (r = s.cfg.y1 s.n ∧ s.cfg.y1 s.n < s.cfg.h) := by
  simp only [State.readList, List.mem_append, mem_rowsFrom]
  split <;> rename_i h <;> simp [h]

theorem execStepRead_next {s t : State} (h : execStepRead s = .next t) :
    (s.rlist[s.ri]? = none ∧ t = { s with fsm := .unpacking })
    ∨ t = s
    ∨ ∃ r b s1, s.rlist[s.ri]? = some r ∧ s.streamRead s.cfg.stride = .done (b, s1)
        ∧ t = s1.storeRow r b := by
  unfold execStepRead at h
  split at h
  · cases h; exact .inl ⟨‹_›, rfl⟩
  · rename_i r hr
    rcases Io.outcome_eq_next.1 h with h | ⟨_, rfl⟩
    · obtain ⟨⟨b, s1⟩, h1, h2⟩ := Io.bind_eq_done.1 h
      cases h2
      exact .inr (.inr ⟨r, b, s1, hr, h1, rfl⟩)
    · exact .inr (.inl rfl)

/-- The window after several rows are set. -/
theorem foldl_put_get {α : Type} (f : Nat → α) (l : List Nat) : ∀ (w : Table α) (r : Nat),
    Table.get r (l.foldl (fun w r => Table.put r (f r) w) w)
      = if r ∈ l then some (f r) else Table.get r w := by
  induction l with
  | nil => intro w r; simp
  | cons a t ih =>
    intro w r
    simp only [List.foldl_cons, ih, List.mem_cons]
    by_cases h : r ∈ t
    · simp [h]
    · simp only [h, if_false, or_false, Table.get_put]
      by_cases h2 : r = a
      · subst h2; simp
      · simp [h2]

/-- The window rows after STEP_UNPACK. -/
theorem State.unpackInto_get (s : State) (r : Nat) :
    Table.get r (s.rlist.foldl s.unpackInto s.win)
      = if r ∈ s.rlist then some (correctedRow s.cfg s.stale (s.rawRow r)) else Table.get r s.win :=
  foldl_put_get (fun r => correctedRow s.cfg s.stale (s.rawRow r)) s.rlist s.win r

/-- A corrected row has W samples. -/
theorem correctedRow_length (cfg : CfgRegs) (stale : Nat) (b : List Byte) :
    (correctedRow cfg stale b).length = cfg.w := by
  have hu : (unpackRow cfg stale b).length = cfg.w := by
    unfold unpackRow
    split <;> simp [unpackWith]
  unfold correctedRow blcRow
  split
  · exact hu
  · simp [blcScalar, hu]

/-- Groups of one length, joined. -/
theorem length_flatMap_range {α : Type} (f : Nat → List α) (m : Nat) (hf : ∀ i, (f i).length = m) :
    ∀ n, ((List.range n).flatMap f).length = m * n := by
  intro n
  induction n with
  | zero => simp
  | succ n ih =>
    rw [List.range_succ, List.flatMap_append, List.length_append, ih]
    simp [hf, Nat.mul_succ]

/-- An element of groups of one length, joined. -/
theorem getElem?_flatMap_range {α : Type} (f : Nat → List α) (m : Nat) (hf : ∀ i, (f i).length = m)
    (j : Nat) (hj : j < m) :
    ∀ n i, i < n → ((List.range n).flatMap f)[m * i + j]? = (f i)[j]? := by
  intro n
  induction n with
  | zero => intro i h; omega
  | succ n ih =>
    intro i hi
    rw [List.range_succ, List.flatMap_append]
    by_cases h : i < n
    · rw [List.getElem?_append_left, ih i h]
      rw [length_flatMap_range f m hf]
      calc m * i + j < m * i + m := by omega
        _ = m * (i + 1) := by ring
        _ ≤ m * n := Nat.mul_le_mul_left _ h
    · have : i = n := by omega
      subst this
      rw [List.getElem?_append_right (by rw [length_flatMap_range f m hf]; omega),
        length_flatMap_range f m hf]
      simp

/-- An output row has `pitch` bytes. -/
theorem State.outRow_length (s : State) (y : Nat) (above : List Byte) :
    (s.outRow y above).length = s.cfg.pitch := by
  have hg : s.cfg.geometry = geometryOf s.cfg.subsamp := rfl
  have h422 : (s.row422 y).length = 4 * (s.cfg.wpad / 2) := length_flatMap_range _ 4 (fun _ => rfl) _
  have h420 : (s.row420Odd y above).length = 4 * (s.cfg.wpad / 2) :=
    length_flatMap_range _ 4 (fun _ => rfl) _
  have h444 : (s.row444 y).length = 3 * s.cfg.wpad := length_flatMap_range _ 3 (fun _ => rfl) _
  unfold State.outRow
  split
  · rename_i e
    rw [e] at hg
    rw [h444]; simp only [CfgRegs.pitch, CfgRegs.bpp, hg, geometryOf]; omega
  · rename_i e
    rw [e] at hg
    rw [h422]
    simp only [CfgRegs.pitch, CfgRegs.wpad, CfgRegs.mw, CfgRegs.bpp, hg, geometryOf]; omega
  · rename_i e
    rw [e] at hg
    split
    · rw [h422]
      simp only [CfgRegs.pitch, CfgRegs.wpad, CfgRegs.mw, CfgRegs.bpp, hg, geometryOf]; omega
    · rw [h420]
      simp only [CfgRegs.pitch, CfgRegs.wpad, CfgRegs.mw, CfgRegs.bpp, hg, geometryOf]; omega
  · simp

theorem State.outRows_length (s : State) : ∀ k, (s.outRows k).length = k := by
  intro k
  induction k with
  | zero => rfl
  | succ k ih => simp [State.outRows, ih]

/-- A strip row that STEP_DEMOSAIC makes has `pitch` bytes. -/
theorem State.outRows_row_length (s : State) :
    ∀ k, ∀ row ∈ s.outRows k, row.length = s.cfg.pitch := by
  intro k
  induction k with
  | zero => intro row hr; simp [State.outRows] at hr
  | succ k ih =>
    intro row hr
    simp only [State.outRows, List.mem_append, List.mem_singleton] at hr
    rcases hr with hr | rfl
    · exact ih row hr
    · exact s.outRow_length _ _

theorem execStepEmit_next {s t : State} (h : execStepEmit s = .next t) :
    t = s ∨ ∃ ok s1, s.engineCall (fun _ => .engineAddBlock s.block s.cfg.pitch) = .done (ok, s1)
      ∧ t = s1.blockSent := by
  unfold execStepEmit at h
  rcases Io.outcome_eq_next.1 h with h | ⟨_, rfl⟩
  · obtain ⟨⟨ok, s1⟩, h1, h2⟩ := Io.bind_eq_done.1 h
    cases h2
    exact .inr ⟨ok, s1, h1, rfl⟩
  · exact .inl rfl

/-! ## End of an encode -/

theorem State.bufferResult_done {s t : State} (h : s.bufferResult = .done t) :
    (s.ovf = true ∧ t = s.raiseErr .outputOverflow)
    ∨ (s.ovf = false ∧ ∃ m,
        storeBytes s.writable s.unlistedByte s.cfg.outSizeAddr.toNat s.mem (leBytes s.outPos) = .ok m
        ∧ t = { s with
                outSize := s.outPos, mem := m, done := true, fsm := .done,
                events := s.events ++ [.memWrite s.cfg.outSizeAddr.toNat (leBytes s.outPos)] }) := by
  unfold State.bufferResult at h
  split at h
  · cases h; exact .inl ⟨‹_›, rfl⟩
  · rename_i ho
    obtain ⟨s', h1, h2⟩ := Io.bind_eq_done.1 h
    obtain ⟨m, hm, rfl⟩ := State.memWrite_done h1
    cases h2
    exact .inr ⟨by simpa using ho, m, hm, rfl⟩

/-- The buffer-mode result completes where the OUT_SIZE word is writable. -/
theorem State.bufferResult_answers {s : State}
    (h : ∀ i, i < 4 → s.writable (s.cfg.outSizeAddr.toNat + i) = true) :
    ∃ t, s.bufferResult = .done t := by
  unfold State.bufferResult
  split
  · exact ⟨_, rfl⟩
  · obtain ⟨m, _, hm⟩ := State.memWrite_answers (s := { s with outSize := s.outPos })
      (a := s.cfg.outSizeAddr.toNat) (bytes := leBytes s.outPos) h
    rw [hm]
    exact ⟨_, rfl⟩

theorem execStepFinish_next {s t : State} (h : execStepFinish s = .next t) :
    t = s ∨ ∃ ok s1, s.engineCall (fun _ => .engineEnd) = .done (ok, s1) ∧
      ((s1.mode = .stream ∧ t = s1.complete) ∨ (s1.mode = .buffer ∧ s1.bufferResult = .done t)) := by
  unfold execStepFinish at h
  rcases Io.outcome_eq_next.1 h with h | ⟨_, rfl⟩
  · obtain ⟨⟨ok, s1⟩, h1, h2⟩ := Io.bind_eq_done.1 h
    refine .inr ⟨ok, s1, h1, ?_⟩
    dsimp only at h2
    split at h2
    · cases h2; exact .inl ⟨‹_›, rfl⟩
    · exact .inr ⟨‹_›, h2⟩
  · exact .inl rfl

end Sys2Proof.Machine
end

