-- ==== Sys2Proof/Tests/Slice0.lean ====
section
/-! SUPPORT. Tests of one step each, expected values from spec/95_test_vectors.md or worked by hand from the
rules named; words written out from 30_encoding.md; ill-formed terms that the checks refuse; and, for each
obligation with hypotheses, a concrete instance that meets them. -/

namespace Sys2Proof.Tests

open Sys2Proof.Machine

/-! ## Helpers -/

def bytes (l : List Nat) : List Byte := l.map (BitVec.ofNat 8)

def samples (l : List Nat) : List Sample := l.map (BitVec.ofNat 16)

/-- A configuration of width, height and FORMAT, the rest at reset. -/
def cfg0 (w h format : Nat) : CfgRegs :=
  { CfgRegs.reset with
    width := BitVec.ofNat 32 w, height := BitVec.ofNat 32 h, format := BitVec.ofNat 32 format }

/-- A state with that configuration latched. -/
def with0 (w h format : Nat) : State := { State.reset with cfg := cfg0 w h format }

/-- The same with the window holding rows 0, 1, … -/
def image (w h format : Nat) (rows : List (List Nat)) : State :=
  { with0 w h format with win := rows.zipIdx.map fun r => (r.2, samples r.1) }

/-- A field of the next state, none where there is no next state. -/
def get {α : Type} (r : Result) (f : State → α) : Option α :=
  match r with
  | .next s => some (f s)
  | _ => none

def rgbNat (s : State) : Nat × Nat × Nat := (s.dp.rgb.r.toNat, s.dp.rgb.g.toNat, s.dp.rgb.b.toNat)

def rgb8Nat (s : State) : Nat × Nat × Nat := (s.dp.rgb8.r.toNat, s.dp.rgb8.g.toNat, s.dp.rgb8.b.toNat)

def yccNat (s : State) : Nat × Nat × Nat := (s.dp.ycc.y.toNat, s.dp.ycc.cb.toNat, s.dp.ycc.cr.toNat)

def chromaNat (s : State) : Nat × Nat := (s.dp.chroma.cb.toNat, s.dp.chroma.cr.toNat)

def rgb8 (r g b : Nat) : Rgb8 := ⟨BitVec.ofNat 8 r, BitVec.ofNat 8 g, BitVec.ofNat 8 b⟩

def status (s : State) : Nat := s.statusWord.toNat

/-- A state that an encode is in. -/
def running (m : Mode) (o : EncOp) (f : Fsm) (cfg : CfgRegs) : State :=
  { State.reset with cfg := cfg, mode := m, op := o, fsm := f }

/-- P3's configuration: 4×4, RAW8, RGGB, 4:4:4, FAST. -/
def cfgP3 : CfgRegs := cfg0 4 4 0x00010000

/-- A buffer-mode configuration with three small disjoint ranges. -/
def cfgBuf : CfgRegs :=
  { cfgP3 with
    inAddr := 0x100#32, inLen := 16#32, outAddr := 0x200#32, outCap := 4#32, outSizeAddr := 0x300#32 }

def tile : List (List Nat) :=
  [[200, 100, 200, 100], [100, 50, 100, 50], [200, 100, 200, 100], [100, 50, 100, 50]]

/-! ## Ill-formed terms that WellFormed refuses -/

theorem test_wellFormed_cmdReserved : (Instr.cmdReserved 3#4).wellFormed = false := by decide
theorem test_wellFormed_hostRead : (Instr.hostRead 0x06#8).wellFormed = false := by decide
theorem test_wellFormed_hostWrite : (Instr.hostWrite 0x11#8 0#32).wellFormed = false := by decide
theorem test_wellFormed_pixfmtReserved : (Instr.pixfmtReserved 5#3).wellFormed = false := by decide
theorem test_wellFormed_csc420Even : (Instr.csc420Even 1).wellFormed = false := by decide
theorem test_wellFormed_csc420Odd : (Instr.csc420Odd 2).wellFormed = false := by decide
theorem test_wellFormed_wait : (Instr.wait 5#4).wellFormed = false := by decide

/-! ## Words written out from 30_encoding.md, one for each constructor -/

theorem test_decode_commands :
    [decode (.cmd 0b11111111111111111111111111110000#32),
     decode (.cmd 0b00000000000000000000000000000001#32),
     decode (.cmd 0b10000000000000000000000000000010#32),
     decode (.cmd 0b00000000000000000000000000010011#32),
     decode (.cmd 0b00000000000000000000000000000100#32),
     decode (.cmd 0b00000000000000000000000000001111#32)]
    = [.ok .nop, .ok .encodeStream, .ok .encodeBuffer, .ok .estimate, .ok (.cmdReserved 4#4),
       .ok (.cmdReserved 15#4)] := by decide

theorem test_decode_bus :
    [decode (.bus ⟨false, 0x04, 32, 0#32⟩), decode (.bus ⟨true, 0x10, 32, 640#32⟩),
     decode (.bus ⟨true, 0xFC, 32, 1#32⟩), decode (.bus ⟨true, 0x12, 32, 0#32⟩),
     decode (.bus ⟨false, 0x10, 16, 0#32⟩), decode (.bus ⟨false, 0x100, 32, 0#32⟩)]
    = [.ok (.hostRead 0x04#8), .ok (.hostWrite 0x10#8 640#32), .ok (.hostWrite 0xFC#8 1#32),
       .error .malformedHostAccess, .error .malformedHostAccess, .error .malformedHostAccess] := by
  decide

theorem test_decode_unpack :
    [0b000, 0b001, 0b010, 0b011, 0b100, 0b101, 0b110, 0b111].map
      (fun f => decode (.fmtsel (.unpacker [7#8]) (BitVec.ofNat 32 (0x00070330 + f)) 0#16))
    = [.ok (.unpackRaw8 [7#8]), .ok (.unpackRaw10p [7#8]), .ok (.unpackRaw12p [7#8]),
       .ok (.unpackRaw10 [7#8]), .ok (.unpackRaw12 [7#8]), .ok (.unpackRaw16 [7#8]),
       .ok (.pixfmtReserved 6#3), .ok (.pixfmtReserved 7#3)] := by decide

theorem test_decode_blackLevel :
    [decode (.fmtsel (.blackLevel false [9#16]) 0b00000000000000000000000000000000#32 64#16),
     decode (.fmtsel (.blackLevel false [9#16]) 0b00000000000001000000000000000000#32 0#16),
     decode (.fmtsel (.blackLevel false [9#16]) 0b00000000000001000000000000000000#32 64#16),
     decode (.fmtsel (.blackLevel true [9#16]) 0b00000000000001000000000000000000#32 64#16)]
    = [.ok (.blcBypass [9#16]), .ok (.blcBypass [9#16]), .ok (.blcSub [9#16]), .ok (.blcSub2 [9#16])] := by
  decide

theorem test_decode_pixelUnits :
    [decode (.fmtsel (.cfaTable 3 5) 0#32 0#16),
     decode (.fmtsel (.whiteBalance ⟨1#16, 2#16, 3#16⟩) 0b00000000000000010000000000000000#32 0#16),
     decode (.fmtsel (.pixelCsc (rgb8 1 2 3)) 0b00000000000000010000000000000000#32 0#16),
     decode (.fmtsel (.pairCsc (rgb8 1 2 3) (rgb8 4 5 6)) 0b00000000000000010000001000000000#32 0#16),
     decode (.fmtsel (.reference 3 5) 0b00000000000000000000000000000000#32 0#16),
     decode (.fmtsel (.reference 3 5) 0b00000000000000010000000000000000#32 0#16),
     decode (.fmtsel (.toneTable 77#8) 0#32 0#16)]
    = [.ok (.cfaColor 3 5), .ok (.wbNorm ⟨1#16, 2#16, 3#16⟩), .ok (.cscPixel (rgb8 1 2 3)),
       .ok (.pairChroma (rgb8 1 2 3) (rgb8 4 5 6)), .ok (.ref 3 5), .error .unitNotSelected,
       .ok (.toneLut 77#8)] := by decide

theorem test_decode_rowConverter :
    [decode (.fmtsel (.rowConverter 5) 0b00000000000000000000000000000000#32 0#16),
     decode (.fmtsel (.rowConverter 5) 0b00000000000000000000000100000000#32 0#16),
     decode (.fmtsel (.rowConverter 4) 0b00000000000000000000001000000000#32 0#16),
     decode (.fmtsel (.rowConverter 5) 0b00000000000000000000001000000000#32 0#16),
     decode (.fmtsel (.rowConverter 5) 0b00000000000000000000001100000000#32 0#16)]
    = [.ok (.csc444 5), .ok (.csc422 5), .ok (.csc420Even 4), .ok (.csc420Odd 5), .ok .subsampReserved] := by
  decide

theorem test_decode_class :
    [0b000#3, 0b001#3, 0b010#3, 0b011#3, 0b100#3, 0b101#3, 0b110#3, 0b111#3].map
      (fun c => decode (.cls c 1 2))
    = [.ok (.dmR 1 2), .ok (.dmGBrow 1 2), .ok (.dmB 1 2), .error .classNeverOccurs, .ok (.dmR 1 2),
       .ok (.dmGRrow 1 2), .ok (.dmB 1 2), .error .classNeverOccurs] := by decide

theorem test_decode_state :
    [0x000#32, 0x101#32, 0x201#32, 0x301#32, 0x401#32, 0x501#32, 0x601#32, 0x701#32, 0x801#32, 0x901#32,
      0xA02#32, 0xB04#32, 0xC00#32, 0xF00#32].map (fun w => decode (.state w))
    = [.ok (.wait 0#4), .ok .stepPreflight, .ok .stepSkip, .ok .stepBegin, .ok .stepAwait, .ok .stepRead,
       .ok .stepUnpack, .ok .stepDemosaic, .ok .stepEmit, .ok .stepFinish, .ok (.wait 10#4),
       .ok (.wait 11#4), .error .stateCodeNeverHeld, .error .stateCodeNeverHeld] := by decide

theorem test_table_word : decodeTableWord 32 0x12 = some .encodeBuffer
    ∧ decodeTableWord 24 0x40000 = some (.blcSub []) ∧ decodeTableWord 16 0x500 = some .stepRead
    ∧ decodeTableWord 8 0x5 = some (.dmGRrow 1 0) := by decide

/-! ## Commands and host accesses (95_test_vectors.md §2.14, P1) -/

theorem test_nop : get (exec .nop { State.reset with fsm := .done, done := true, rej := true }) status
    = some 0xA0A := by decide

theorem test_encodeStream_accepted :
    get (exec .encodeStream { State.reset with fsm := .done, done := true, progress := 9#32 })
      (fun s => (status s, s.progress.toNat)) = some (0x101, 0) := by decide

theorem test_encodeStream_busy : get (exec .encodeStream { State.reset with fsm := .reading }) status
    = some 0x509 := by decide

theorem test_encodeBuffer :
    get (exec .encodeBuffer { State.reset with fsm := .done, done := true, rej := true })
      (fun s => (status s, s.mode, s.op)) = some (0x101, .buffer, .encodeBuffer) := by decide

theorem test_estimate :
    get (exec .estimate { State.reset with
      regs := { cfg0 640 400 0x00010201 with quality := 90#32 } }) (fun s => (status s, s.estBytes.toNat))
    = some (0xA02, 59680) := by decide

theorem test_estimate_keeps_error_record :
    get (exec .estimate { State.reset with fsm := .error, err := true, errCode := .invalidDimensions })
      (fun s => (status s, s.errCodeWord.toNat, s.estBytes.toNat)) = some (0xA02, 2, 0) := by decide

theorem test_cmdReserved : get (exec (.cmdReserved 7#4) { State.reset with fsm := .done, done := true })
    status = some 0xA0A := by decide

theorem test_hostRead_status :
    get (exec (.hostRead 0x04#8) { State.reset with fsm := .done, done := true })
      (fun s => s.hostData.toNat) = some 0xA02 := by decide

theorem test_hostWrite_drops_reserved_bits :
    get (exec (.hostWrite 0x18#8 0xFFFFFFFF#32) State.reset) (fun s => s.regs.format.toNat)
    = some 0x00070337 := by decide

theorem test_hostWrite_ctrl :
    get (exec (.hostWrite 0x00#8 0x13#32) { State.reset with fsm := .done, done := true }) status
    = some 0xA02 := by decide

/-! ## Unpackers and black level (95_test_vectors.md §2.2, §2.3) -/

theorem test_unpackRaw8 : get (exec (.unpackRaw8 (bytes [0xC8, 0x64, 0x00, 0xFF])) (with0 4 1 0))
    (fun s => s.dp.u.map BitVec.toNat) = some [200, 100, 0, 255] := by decide

theorem test_unpackRaw10p : get (exec (.unpackRaw10p (bytes [0x12, 0x34, 0x56, 0x78, 0xE4, 0xFF, 0xAA, 0xBB,
      0xCC, 0x03])) (with0 5 1 1))
    (fun s => s.dp.u.map BitVec.toNat) = some [72, 209, 346, 483, 1023] := by decide

theorem test_unpackRaw12p : get (exec (.unpackRaw12p (bytes [0xAB, 0xCD, 0x5F, 0x80, 0x99, 0x0A]))
      (with0 3 1 2))
    (fun s => s.dp.u.map BitVec.toNat) = some [2751, 3285, 2058] := by decide

theorem test_unpackRaw10 : get (exec (.unpackRaw10 (bytes [0xFF, 0xFF, 0x34, 0x12])) (with0 2 1 3))
    (fun s => s.dp.u.map BitVec.toNat) = some [1023, 564] := by decide

theorem test_unpackRaw12 : get (exec (.unpackRaw12 (bytes [0x00, 0xF0, 0xFF, 0x0F])) (with0 2 1 4))
    (fun s => s.dp.u.map BitVec.toNat) = some [0, 4095] := by decide

theorem test_unpackRaw16 : get (exec (.unpackRaw16 (bytes [0xFF, 0xFF, 0x34, 0x12])) (with0 2 1 5))
    (fun s => s.dp.u.map BitVec.toNat) = some [65535, 4660] := by decide

theorem test_blcBypass : get (exec (.blcBypass (samples [5, 0])) State.reset)
    (fun s => s.dp.u'.map BitVec.toNat) = some [5, 0] := by decide

theorem test_blcSub :
    get (exec (.blcSub (samples [64, 65, 10, 4095]))
      { State.reset with cfg := { CfgRegs.reset with blackLevel := 64#32 } })
    (fun s => s.dp.u'.map BitVec.toNat) = some [0, 1, 0, 4031] := by decide

theorem test_blcSub2 :
    get (exec (.blcSub2 (samples [50, 300, 7]))
      { State.reset with cfg := { CfgRegs.reset with blackLevel := 100#32 } })
    (fun s => s.dp.u'.map BitVec.toNat) = some [0, 200, 0] := by decide

/-! ## Demosaic and white balance (95_test_vectors.md §2.4-§2.6) -/

def square : State := image 3 3 0x00010000 [[10, 20, 30], [40, 50, 60], [70, 80, 90]]

theorem test_cfaColor : get (exec (.cfaColor 1 0) (with0 4 4 0x00010020)) (fun s => s.dp.color)
    = some .red := by decide

theorem test_dmR_corner : get (exec (.dmR 2 0) square) rgbNat = some (30, 40, 50) := by decide
theorem test_dmR_alone : get (exec (.dmR 0 0) (image 1 1 0 [[77]])) rgbNat = some (77, 0, 0) := by decide
theorem test_dmB_interior : get (exec (.dmB 1 1) square) rgbNat = some (50, 50, 50) := by decide
theorem test_dmGRrow_edge : get (exec (.dmGRrow 1 0) square) rgbNat = some (20, 20, 50) := by decide
theorem test_dmGBrow_edge : get (exec (.dmGBrow 0 1) square) rgbNat = some (40, 40, 50) := by decide

theorem test_wbNorm_shift : get (exec (.wbNorm ⟨2048#16, 4095#16, 0#16⟩) (with0 4 4 0x00010004)) rgb8Nat
    = some (128, 255, 0) := by decide

theorem test_wbNorm_override :
    get (exec (.wbNorm ⟨200#16, 100#16, 10#16⟩) { State.reset with cfg := { cfg0 4 4 0x00030000 with
      wbR := 0x80000180#32, wbG := 0x80000000#32, wbB := 0x80000100#32 } }) rgb8Nat
    = some (255, 0, 10) := by decide

/-! ## Colour conversion (95_test_vectors.md §2.7-§2.9). The tone table is OPEN: its entries stay as they are. -/

theorem test_toneLut : get (exec (.toneLut 77#8) State.reset) (fun s => s.dp.luma)
    = some (Config.toneLut 77#8) := rfl

theorem test_cscPixel : get (exec (.cscPixel (rgb8 200 101 50)) State.reset) yccNat
    = some (125, 86, 182) := by decide

theorem test_cscPixel_clamps : get (exec (.cscPixel (rgb8 255 0 0)) State.reset) yccNat
    = some (77, 85, 255) := by decide

theorem test_pairChroma : get (exec (.pairChroma (rgb8 255 0 0) (rgb8 0 0 255)) State.reset) chromaNat
    = some (170, 181) := by decide

/-- The law of 43_color_convert.md R161 on the tile: Cb of REF within 2 of 86, whatever the parameter is. -/
theorem test_ref_within (v : Byte) :
    84 ≤ (withinTol 86#8 v).toNat ∧ (withinTol 86#8 v).toNat ≤ 88 := by
  simp only [withinTol, Config.tolerance, BitVec.toNat_ofNat]
  omega

/-- Cb and Cr of pixel 5, a padded one, of a row of the tile. -/
theorem test_csc444 :
    get (exec (.csc444 0) (image 4 4 0x00010000 tile))
      (fun s => (s.dp.row.length, (s.dp.row.drop 16).take 2 |>.map BitVec.toNat)) = some (24, [86, 182]) := by
  decide

theorem test_csc422 :
    get (exec (.csc422 0) (image 4 4 0x00010100 tile))
      (fun s => (s.dp.row.length, s.dp.row[1]?, s.dp.row[3]?)) = some (32, some 86#8, some 182#8) := by
  decide

/-- Row 2 of program P6: chroma 0x89, 0x73 in its first group. -/
theorem test_csc420Even :
    get (exec (.csc420Even 2)
      (image 4 3 0x00010200 [[200, 100, 200, 100], [100, 50, 100, 50], [10, 20, 30, 40]]))
      (fun s => (s.dp.row.length, s.dp.row[1]?, s.dp.row[3]?)) = some (32, some 0x89#8, some 0x73#8) := by
  decide

/-- Row 1 of program P6: the chroma is row 0's, 0x56 and 0xB6. -/
theorem test_csc420Odd :
    get (exec (.csc420Odd 1)
      { image 4 3 0x00010200 [[200, 100, 200, 100], [100, 50, 100, 50], [10, 20, 30, 40]] with
        strip := [(List.replicate 8 (bytes [0x7C, 0x56, 0x7C, 0xB6])).flatten] })
      (fun s => (s.dp.row.length, s.dp.row[29]?, s.dp.row[31]?)) = some (32, some 0x56#8, some 0xB6#8) := by
  decide

/-! ## Reserved codes and the orchestrator (95_test_vectors.md §2.12, §2.13, §2.15, P2-P7) -/

theorem test_pixfmtReserved :
    get (exec (.pixfmtReserved 6#3) (running .stream .encodeStream .preflight (cfg0 0 4 6)))
      (fun s => (status s, s.errCodeWord.toNat, s.errInfoWord.toNat)) = some (0xB04, 1, 0x101) := by decide

theorem test_subsampReserved :
    get (exec .subsampReserved (running .buffer .encodeBuffer .preflight (cfg0 4 4 0x300)))
      (fun s => (status s, s.errCodeWord.toNat, s.errInfoWord.toNat)) = some (0xB04, 13, 0x102) := by decide

theorem test_stepPreflight_capacity :
    get (exec .stepPreflight (running .buffer .encodeBuffer .preflight { cfgBuf with outCap := 0#32 }))
      (fun s => (status s, s.errCodeWord.toNat, s.errInfoWord.toNat)) = some (0xB04, 16, 0x102) := by decide

theorem test_stepPreflight_memory :
    get (exec .stepPreflight (running .stream .encodeStream .preflight
      { cfg0 640 400 0x00010000 with memLimit := 36479#32 }))
      (fun s => (status s, s.errCodeWord.toNat, s.estBytes.toNat)) = some (0xB04, 4, 36480) := by decide

theorem test_stepSkip_end_of_input :
    get (exec .stepSkip { running .stream .encodeStream .skip (cfg0 4 4 0x00010000) with
      skipLeft := 2#32, source := [bytes [1, 2, 3]] })
      (fun s => (status s, s.errCodeWord.toNat, s.errInfoWord.toNat)) = some (0xB04, 5, 0x201) := by decide

theorem test_stepSkip_line :
    get (exec .stepSkip { running .stream .encodeStream .skip (cfg0 4 4 0x00010000) with
      skipLeft := 2#32, source := [bytes [1, 2, 3, 4]] })
      (fun s => (s.fsm, s.skipLeft.toNat, s.events)) = some (.skip, 1, [.streamRead 4 (bytes [1, 2, 3, 4])]) := by
  decide

theorem test_stepBegin_fails :
    get (exec .stepBegin { running .stream .encodeStream .begin cfgP3 with engine := [⟨false, []⟩] })
      (fun s => (status s, s.errCodeWord.toNat, s.errInfoWord.toNat)) = some (0xB04, 6, 0x301) := by decide

theorem test_stepBegin :
    get (exec .stepBegin { running .stream .encodeStream .begin cfgP3 with engine := [⟨true, []⟩] })
      (fun s => s.events) = some [.engineBegin 4 4 0 0 (Config.qTier 0#8) true] := by rfl

/-- W = 2, H = 20: block row 1 restores rows 7 and 8 and reads rows 9 to 16. -/
theorem test_stepAwait :
    get (exec .stepAwait { running .stream .encodeStream .await (cfg0 2 20 0x00010000) with
      n := 1, carry := some (samples [1, 2]), look := some (samples [3, 4]) })
      (fun s => (s.fsm, s.rlist, s.win)) =
    some (.reading, [9, 10, 11, 12, 13, 14, 15, 16], [(7, samples [1, 2]), (8, samples [3, 4])]) := by decide

/-- P5b's short read: the rest of the row is zero. -/
theorem test_stepRead :
    get (exec .stepRead { running .stream .encodeStream .reading cfgP3 with
      rlist := [0, 1], ri := 1, source := [bytes [5, 6]] })
      (fun s => (s.fsm, s.raw)) = some (.unpacking, [(1, bytes [5, 6, 0, 0])]) := by decide

theorem test_stepUnpack :
    get (exec .stepUnpack { running .stream .encodeStream .unpacking
        { cfg0 2 1 0x00050000 with blackLevel := 16#32 } with
      rlist := [0], raw := [(0, bytes [20, 10])] })
      (fun s => (s.fsm, s.win)) = some (.demosaic, [(0, samples [4, 0])]) := by decide

/-- P3: the chroma bytes of pixel 0 of strip row 0 and of padding row 7; carry is row 3. -/
theorem test_stepDemosaic :
    get (exec .stepDemosaic { image 4 4 0x00010000 tile with fsm := .demosaic })
      (fun s => ((s.stripRow 0)[1]?, (s.stripRow 7)[2]?, s.carry, s.look))
    = some (some 86#8, some 182#8, some (samples [100, 50, 100, 50]), none) := by decide

theorem test_stepEmit :
    get (exec .stepEmit { running .stream .encodeStream .emitting cfgP3 with
      strip := List.replicate 8 (List.replicate 24 1#8), engine := [⟨true, []⟩] })
      (fun s => (s.fsm, s.n, s.progress.toNat, s.events))
    = some (.await, 1, 1, [.engineAddBlock (List.replicate 8 (List.replicate 24 1#8)) 24]) := by decide

theorem test_stepFinish_overflow :
    get (exec .stepFinish { running .buffer .encodeBuffer .finish cfgBuf with
      engine := [⟨true, []⟩], ovf := true })
      (fun s => (status s, s.errCodeWord.toNat, s.errInfoWord.toNat)) = some (0xB04, 12, 0x902) := by decide

/-- P7: out=…/2: the last two bytes arrive in `EngineEnd`, the word at OUT_SIZE_ADDR takes the count. -/
theorem test_stepFinish_buffer :
    get (exec .stepFinish { running .buffer .encodeBuffer .finish cfgBuf with
      engine := [⟨true, [bytes [7, 8]]⟩], outPos := 1#32 })
      (fun s => (status s, s.outSize.toNat, s.events)) =
    some (0xA02, 3, [.engineEnd, .outWrite (bytes [7, 8]) 2, .memWrite 0x201 (bytes [7, 8]),
      .memWrite 0x300 (bytes [3, 0, 0, 0])]) := by
  decide

/-- The input range 0x100..0x10F: its last byte in write-only memory; the byte after it there (R68). -/
theorem test_rangesMapped :
    { running .buffer .encodeBuffer .preflight cfgBuf with
      regions := [⟨0x10F, 1, false, true⟩] }.rangesMapped = false
    ∧ { running .buffer .encodeBuffer .preflight cfgBuf with
      regions := [⟨0x110, 1, false, false⟩] }.rangesMapped = true := by decide

theorem test_wait : get (exec (.wait 11#4) { State.reset with fsm := .error, err := true }) status
    = some 0xB04 := by decide

/-- A step with no turn listed in IDLE: the core waits. -/
theorem test_step_idle : get (step State.reset) (fun s => decide (s = State.reset)) = some true := by decide

theorem test_withFetchWord : get (step (State.reset.withFetchWord 32 1)) status = some 0x101 := by decide

/-! ## Instances that meet the hypotheses of the obligations, each clause at a boundary of its range -/

theorem test_witness_DecodeOfEncode :
    (Instr.cmdReserved 4#4).wellFormed = true ∧ (Instr.hostRead 0xFC#8).wellFormed = true
    ∧ (Instr.hostWrite 0x00#8 0xFFFFFFFF#32).wellFormed = true ∧ (Instr.pixfmtReserved 7#3).wellFormed = true
    ∧ (Instr.csc420Even 0).wellFormed = true ∧ (Instr.csc420Odd 1).wellFormed = true
    ∧ (Instr.wait 11#4).wellFormed = true
    ∧ decode (.bus ⟨true, 0xFC, 32, 0#32⟩) = .ok (.hostWrite 0xFC#8 0#32) := by decide

/-- Every PIXFMT, SUBSAMP, FAST_EN and BL_EN value, both parities, BL zero and not. -/
theorem test_witness_FormatWordSelects :
    [0#32, 1#32, 2#32, 3#32, 4#32, 5#32, 6#32, 7#32].map (fun f => f.toNat % 8) = [0, 1, 2, 3, 4, 5, 6, 7]
    ∧ [0x000#32, 0x100#32, 0x200#32, 0x300#32].map (fun f => f.toNat / 2 ^ 8 % 4) = [0, 1, 2, 3]
    ∧ [0x0FFFF#32, 0x10000#32].map (fun f => f.toNat / 2 ^ 16 % 2) = [0, 1]
    ∧ [0x3FFFF#32, 0x40000#32].map (fun f => f.toNat / 2 ^ 18 % 2) = [0, 1]
    ∧ 1#16 ≠ 0#16 ∧ 0 % 2 = 0 ∧ 1 % 2 = 1 := by decide

/-- Each kind of turn with what it presents: two are accepted, one is rejected. -/
theorem test_witness_StepRunsDecoded :
    ({ State.reset with turns := [.core] }).turns = Turn.core :: []
    ∧ ({ State.reset with turns := [.host ⟨true, 0x18, 32, 0#32⟩, .core] }).turns
        = Turn.host ⟨true, 0x18, 32, 0#32⟩ :: [.core]
    ∧ decode (.state State.reset.statusWord) = .ok (.wait 0#4)
    ∧ decode (.bus ⟨true, 0x18, 32, 0#32⟩) = .ok (.hostWrite 0x18#8 0#32)
    ∧ decode (.cmd 0xF#32) = .ok (.cmdReserved 15#4)
    ∧ decode (.fmtsel (.cfaTable 0 0) State.reset.cfg.format State.reset.cfg.bl) = .ok (.cfaColor 0 0)
    ∧ decode (.cls (pixelClass State.reset.cfg.pattern 0 0) 0 0) = .ok (.dmR 0 0)
    ∧ decode (.bus ⟨true, 0x19, 32, 0#32⟩) = .error .malformedHostAccess := by decide

/-- The three WAIT codes, a core turn next and no turn listed, and a state of each code. -/
theorem test_witness_CoreStepSelectedByState :
    (0#4).toNat = 0 ∧ (10#4).toNat = 10 ∧ (11#4).toNat = 11 ∧ State.reset.turns = []
    ∧ ({ State.reset with turns := [.core, .reset] }).turns = Turn.core :: [.reset]
    ∧ [Fsm.idle, .preflight, .skip, .begin, .await, .reading, .unpacking, .demosaic, .emitting, .finish,
        .done, .error].map (fun f => ({ State.reset with fsm := f }).fsm)
      = [.idle, .preflight, .skip, .begin, .await, .reading, .unpacking, .demosaic, .emitting, .finish, .done,
        .error] := by decide

/-- A byte that another bus agent stores reads back, whatever it held. -/
theorem test_busWrite_reads_back :
    ∃ t, step { State.reset with turns := [.busWrite 5 9#8] } = .next t ∧ t.readByte 5 = some 9#8 :=
  ⟨_, rfl, congrArg some (Memory.byteAt_store _ 5 5 9#8 [])⟩

/-- A reset in the middle of a buffer-mode encode; the address just past the output range. -/
theorem test_witness_PlatformReset :
    let s := { running .buffer .encodeBuffer .emitting cfgBuf with turns := [.reset] }
    s.turns = Turn.reset :: [] ∧ s.busy = true ∧ s.cfg.inOutput 0x203 = true
    ∧ ¬ (s.busy = true ∧ s.mode = .buffer ∧ s.cfg.inOutput 0x204 = true) := by decide

theorem test_witness_NopAndRejectedCommands :
    (Instr.cmdReserved 4#4).wellFormed = true ∧ (Instr.cmdReserved 15#4).wellFormed = true
    ∧ (running .stream .encodeStream .finish cfgP3).busy = true := by decide

theorem test_witness_EncodeAccepted :
    State.reset.busy = false ∧ ({ State.reset with fsm := .done }).busy = false
    ∧ ({ State.reset with fsm := .error }).busy = false := by decide

theorem test_witness_EstimateAccepted :
    State.reset.busy = false ∧ ({ State.reset with fsm := .error }).busy = false := by decide

theorem test_witness_EstimateFormula :
    [0, 1, 2, 3, 4, 5].map (fun f => (cfg0 4 4 f).pixfmt.toNat) = [0, 1, 2, 3, 4, 5]
    ∧ [0x000, 0x100, 0x200].map (fun f => (cfg0 4 4 f).subsamp.toNat) = [0, 1, 2] := by decide

theorem test_witness_EstimateMonotone :
    (cfg0 640 400 0x205).pixfmt.toNat ≤ 5 ∧ (cfg0 640 400 0x205).subsamp.toNat ≤ 2
    ∧ (cfg0 641 1 0x205).pixfmt = (cfg0 640 400 0x205).pixfmt
    ∧ (cfg0 641 1 0x205).subsamp = (cfg0 640 400 0x205).subsamp
    ∧ (cfg0 640 400 0x205).w ≤ (cfg0 641 1 0x205).w
    ∧ (cfg0 640 400 0x205).w = (cfg0 640 1 0x205).w := by decide

theorem test_witness_CtrlWritePresentsCommand :
    [0xFFFFFFF0#32, 0x11#32, 0x2#32, 0x13#32].map (fun d => d.toNat % 16) = [0, 1, 2, 3]
    ∧ 4 ≤ (0x4#32).toNat % 16 ∧ 4 ≤ (0xFFFFFFFF#32).toNat % 16 := by decide

/-- The first, the last listed, the first unlisted and the last offset. -/
theorem test_witness_HostReadReturnsRegister :
    [0x00#8, 0x54#8, 0x58#8, 0xFC#8].map (fun o => o.toNat % 4) = [0, 0, 0, 0]
    ∧ 0x58 ≤ (0x58#8).toNat ∧ ¬ 0x58 ≤ (0x54#8).toNat := by decide

theorem test_witness_HostWriteUpdatesRegister :
    [0x04#8, 0x18#8, 0x54#8, 0xFC#8].map (fun o => (o.toNat % 4, decide (o ≠ 0x00#8)))
    = [(0, true), (0, true), (0, true), (0, true)] := by decide

theorem test_witness_MalformedAccessRefused :
    ({ State.reset with turns := [.host ⟨false, 0x10, 16, 0#32⟩] }).turns
      = Turn.host ⟨false, 0x10, 16, 0#32⟩ :: []
    ∧ (16 : Nat) ≠ 32 ∧ 0x11 % 4 ≠ 0 ∧ (0x01#8).toNat % 4 ≠ 0 ∧ (0xFF#8).toNat % 4 ≠ 0 := by decide

/-- A row of exactly as many bytes as are read, of one sample and of none. -/
theorem test_witness_UnpackDirect :
    (with0 1 1 0).cfg.w ≤ (bytes [5]).length ∧ 2 * (with0 1 1 3).cfg.w ≤ (bytes [5, 6]).length
    ∧ 0 < (with0 1 1 0).cfg.w ∧ (with0 0 1 0).cfg.w ≤ (bytes []).length
    ∧ [0x70330#32, 0x70333#32, 0x70334#32, 0x70335#32].map (fun f => f.toNat % 8) = [0, 3, 4, 5] := by decide

/-- W = 5 and W = 3, the last group partial: lane 0 of group 1. -/
theorem test_witness_UnpackPacked :
    5 * (((with0 5 1 1).cfg.w + 3) / 4) ≤ (bytes [1, 2, 3, 4, 5, 6, 7, 8, 9, 10]).length
    ∧ 4 * 1 + 0 < (with0 5 1 1).cfg.w
    ∧ 3 * (((with0 3 1 2).cfg.w + 1) / 2) ≤ (bytes [1, 2, 3, 4, 5, 6]).length
    ∧ 2 * 1 + 0 < (with0 3 1 2).cfg.w := by decide

theorem test_witness_UnpackContract :
    ∃ t, exec (.unpackRaw10 (bytes [0, 0])) (with0 1 1 3) = .next t
      ∧ 2 * (with0 1 1 3).cfg.w ≤ (bytes [0, 0]).length ∧ (∀ v ∈ bytes [0, 0], v = 0#8)
      ∧ t.dp.u = [0#16] :=
  ⟨_, rfl, by decide, by decide, by decide⟩

theorem test_witness_BlackLevelSaturates :
    0 < (samples [5]).length ∧ (0x3FFFF#32).toNat / 2 ^ 18 % 2 = 0 ∧ (0x40000#32).toNat / 2 ^ 18 % 2 = 1
    ∧ 1#16 ≠ 0#16 := by decide

/-- Every pattern at every phase is in one of the three lists. -/
theorem test_witness_ColourAtPosition :
    (2, 4 % 2, 1 % 2) ∈ [(0, 0, 0), (1, 1, 1), (2, 0, 1), (3, 1, 0)]
    ∧ (3, 0 % 2, 1 % 2) ∈ [(0, 1, 1), (1, 0, 0), (2, 1, 0), (3, 0, 1)]
    ∧ (3, 1 % 2, 1 % 2) ∈ [(0, 0, 1), (0, 1, 0), (1, 0, 1), (1, 1, 0), (2, 0, 0), (2, 1, 1),
        (3, 0, 0), (3, 1, 1)] := by decide

theorem test_witness_PixelClassSelects :
    cfa 2#2 0 1 = .red ∧ cfa 3#2 0 1 = .blue ∧ cfa 0#2 0 1 = .green ∧ redRow 0#2 0 = true
    ∧ cfa 0#2 1 0 = .green ∧ redRow 0#2 1 = false := by decide

/-- A corner of a 3×3 image and the only pixel of a 1×1 one. -/
theorem test_witness_DemosaicRedBlue :
    2 < square.cfg.w ∧ 2 < square.cfg.h ∧ 0 < (image 1 1 0 [[77]]).cfg.w
    ∧ 0 < (image 1 1 0 [[77]]).cfg.h := by decide

theorem test_witness_DemosaicGreen :
    1 < square.cfg.w ∧ 0 < square.cfg.h ∧ 0 < (image 1 3 0 [[5], [6], [7]]).cfg.w := by decide

theorem test_witness_WhiteBalanceNormalises :
    [0, 1, 2, 3, 4, 5].map (fun f => (with0 4 4 f).cfg.pixfmt.toNat) = [0, 1, 2, 3, 4, 5]
    ∧ (5, 16) ∈ [(0, 8), (1, 10), (2, 12), (3, 10), (4, 12), (5, 16)]
    ∧ (0x10000#32).toNat / 2 ^ 16 % 2 = 1 := by decide

/-- The last real column, and the first padded one. -/
theorem test_witness_ColourImage :
    ∃ t u, 2 < square.cfg.w
      ∧ decode (.cls (pixelClass square.cfg.pattern 0 2) 2 0) = .ok (.dmR 2 0)
      ∧ exec (.dmR 2 0) square = .next t ∧ exec (.wbNorm t.dp.rgb) t = .next u ∧ square.cfg.w ≤ 3 :=
  ⟨_, _, by decide, by decide, rfl, rfl, by decide⟩

theorem test_witness_PixelColourConversion :
    (rgb8 255 255 255).r = (rgb8 255 255 255).g ∧ (rgb8 255 255 255).g = (rgb8 255 255 255).b := by decide

theorem test_witness_PairChromaOfTwoPixels :
    ∃ t, rgb8 10 20 30 = rgb8 10 20 30 ∧ exec (.cscPixel (rgb8 10 20 30)) State.reset = .next t :=
  ⟨_, rfl, rfl⟩

/-- Two states with one context: the last real column and a padded one. -/
theorem test_witness_ReferenceWithinTolerance :
    ∃ t, square.pixelCtx 3 0 = square.pixelCtx 2 0 ∧ exec (.ref 3 0) square = .next t
      ∧ square.pixelCtx (2 * (4 / 2)) 0 = square.pixelCtx (2 * (6 / 2)) 0
      ∧ square.pixelCtx (2 * (4 / 2) + 1) 0 = square.pixelCtx (2 * (6 / 2) + 1) 0 :=
  ⟨_, by decide, rfl, by decide, by decide⟩

theorem test_witness_RowOf444 :
    7 < (with0 4 4 0x00010000).cfg.wpad ∧ (with0 4 4 0x00010000).cfg.fastEn = true
    ∧ (with0 4 4 0x00000000).cfg.fastEn = false
    ∧ (with0 4 4 0x00010000).cfg.subsamp.toNat = 0 := by decide

theorem test_witness_RowOf422 :
    2 % 2 = 0 ∧ 7 < (with0 4 4 0x00010100).cfg.wpad / 2 ∧ (with0 4 4 0x00010100).cfg.fastEn = true
    ∧ (with0 4 4 0x00000100).cfg.fastEn = false ∧ 5 / 2 = 2
    ∧ (with0 4 4 0x00010100).cfg.subsamp.toNat = 1 ∧ (with0 4 4 0x00010200).cfg.subsamp.toNat = 2 := by decide

/-- Row 1 with the row above it in the strip; row 1 with no strip; row 1 below block row 1's first row. -/
theorem test_witness_RowOf420Odd :
    let above := List.replicate 32 9#8
    let s := { with0 4 4 0x00010200 with strip := [above] }
    let e := with0 4 4 0x00010200
    let m := { with0 4 20 0x00010200 with n := 1, strip := [above] }
    1 % 2 = 1 ∧ s.cfg.subsamp.toNat = 2 ∧ above.length = s.cfg.pitch
    ∧ s.cfg.y0 s.n < 1 ∧ s.strip[1 - 1 - s.cfg.y0 s.n]? = some above ∧ 7 < s.cfg.wpad / 2
    ∧ ¬ (e.cfg.y0 e.n < 1 ∧ 1 - 1 - e.cfg.y0 e.n < e.strip.length)
    ∧ ¬ (m.cfg.y0 m.n < 1 ∧ 1 - 1 - m.cfg.y0 m.n < m.strip.length) := by decide

theorem test_witness_ReservedCodesFail :
    (∃ code, Instr.pixfmtReserved 6#3 = .pixfmtReserved code) ∧ State.reset.fsm ≠ .preflight
    ∧ (running .buffer .encodeBuffer .preflight cfgBuf).fsm = .preflight :=
  ⟨⟨_, rfl⟩, by decide, by decide⟩

/-- A read-only input range and a write-only output range, each region just as long as its range. -/
theorem test_witness_PreflightChecks :
    let s := { running .buffer .encodeBuffer .preflight cfgBuf with
      regions := [⟨0x100, 16, true, false⟩, ⟨0x200, 4, false, true⟩] }
    s.mode = .buffer ∧ s.cfg.rangesDisjoint = true
    ∧ (∀ a, s.cfg.inInput a = true → s.readable a = true)
    ∧ ∀ a, s.cfg.inOutput a = true ∨ s.cfg.inOutSize a = true → s.writable a = true := by
  refine ⟨rfl, by decide, fun a ha => ?_, fun a ha => ?_⟩
  · exact answersAt_of_rangeAnswers (by decide) (by decide) (of_decide_eq_true ha)
  · rcases ha with ha | ha <;>
      exact answersAt_of_rangeAnswers (by decide) (by decide) (of_decide_eq_true ha)

/-- A full answer, the input range used up, and its last byte. -/
theorem test_witness_InputRequestAnswered :
    let s := { running .stream .encodeStream .reading cfgP3 with source := [bytes [1, 2, 3, 4]] }
    let e := { running .buffer .encodeBuffer .reading cfgBuf with inPos := 16#32 }
    let l := { running .buffer .encodeBuffer .reading cfgBuf with inPos := 15#32, mem := [(0x10F, 7#8)] }
    (s.mode = .stream ∧ s.source = bytes [1, 2, 3, 4] :: [] ∧ (bytes [1, 2, 3, 4]).length ≤ 4)
    ∧ (e.mode = .buffer ∧ min 4 (e.cfg.inLen.toNat - e.inPos.toNat) = 0)
    ∧ l.mode = .buffer ∧ bytes [7] ≠ [] ∧ (bytes [7]).length = min 4 (l.cfg.inLen.toNat - l.inPos.toNat)
    ∧ ∀ i, i < (bytes [7]).length →
        l.readable (l.cfg.inAddr.toNat + l.inPos.toNat + i) = true
        ∧ (bytes [7])[i]? = some (l.byteAt (l.cfg.inAddr.toNat + l.inPos.toNat + i)) := by decide

/-- One byte short of a line, and a whole line. -/
theorem test_witness_SkipStep :
    let s := { running .stream .encodeStream .skip cfgP3 with skipLeft := 1#32 }
    State.reset.skipLeft = 0#32 ∧ s.skipLeft ≠ 0#32
    ∧ (∃ s1, State.streamRead s.cfg.stride { s with source := [bytes [1, 2, 3]] }
        = .done (bytes [1, 2, 3], s1)) ∧ (bytes [1, 2, 3]).length < s.cfg.stride
    ∧ (∃ s1, State.streamRead s.cfg.stride { s with source := [bytes [1, 2, 3, 4]] }
        = .done (bytes [1, 2, 3, 4], s1)) ∧ (bytes [1, 2, 3, 4]).length = s.cfg.stride :=
  ⟨by decide, by decide, ⟨_, rfl⟩, by decide, ⟨_, rfl⟩, by decide⟩

/-- An ok answer with output, and a failure; the last SUBSAMP with a LAYOUT code. -/
theorem test_witness_BeginStep :
    (∃ s1, State.outWrites [bytes [9]]
      { running .stream .encodeStream .begin cfgP3 with sink := [1] } = .done s1)
    ∧ ({ running .stream .encodeStream .begin cfgP3 with engine := [⟨true, [bytes [9]]⟩] }).engine
      = ⟨true, [bytes [9]]⟩ :: []
    ∧ (∃ s1, State.outWrites [] (running .stream .encodeStream .begin cfgP3) = .done s1)
    ∧ ((⟨false, []⟩ : EngineAnswer).ok = false → (⟨false, []⟩ : EngineAnswer).writes = [])
    ∧ (cfg0 4 4 0x00010200).subsamp.toNat = 2 ∧ (cfg0 4 4 0x00010200).layout = 2 :=
  ⟨⟨_, rfl⟩, rfl, ⟨_, rfl⟩, fun _ => rfl, by decide, by decide⟩

/-- After the last block row; and block row 1 of 3 with its saved rows. -/
theorem test_witness_AwaitStep :
    let s := { running .stream .encodeStream .await (cfg0 2 20 0x00010000) with
      n := 1, carry := some (samples [1, 2]), look := some (samples [3, 4]) }
    s.n ≠ s.cfg.nbr ∧ s.look = some (samples [3, 4]) ∧ s.carry = some (samples [1, 2])
    ∧ 0 < s.cfg.y0 s.n ∧ ({ s with n := 3 }).n = s.cfg.nbr := by decide

theorem test_witness_ReadStep :
    let s := { running .stream .encodeStream .reading cfgP3 with
      rlist := [0, 1], ri := 1, source := [bytes [5, 6]] }
    s.rlist[s.ri]? = some 1 ∧ ∃ s1, s.streamRead s.cfg.stride = .done (bytes [5, 6], s1) :=
  ⟨rfl, _, rfl⟩

theorem test_witness_UnpackStep :
    let s := { running .stream .encodeStream .unpacking
        { cfg0 2 1 0x00050000 with blackLevel := 16#32 } with
      rlist := [0], raw := [(0, bytes [20, 10])] }
    s.cfg.pixfmt.toNat ≤ 5 ∧ 0 ∈ s.rlist ∧ 1 ∉ s.rlist ∧ Table.get 0 s.raw = some (bytes [20, 10])
    ∧ ∃ t1 t2, decode (.fmtsel (.unpacker (bytes [20, 10])) s.cfg.format s.cfg.bl)
        = .ok (.unpackRaw8 (bytes [20, 10]))
      ∧ exec (.unpackRaw8 (bytes [20, 10])) s = .next t1
      ∧ decode (.fmtsel (.blackLevel true t1.dp.u) s.cfg.format s.cfg.bl) = .ok (.blcSub2 t1.dp.u)
      ∧ exec (.blcSub2 t1.dp.u) t1 = .next t2 :=
  ⟨by decide, by decide, by decide, rfl, _, _, rfl, rfl, rfl, rfl⟩

/-- A partial block row of 4 rows: the last real strip row, the first padding row; and a row below it. -/
theorem test_witness_DemosaicStep :
    let s := image 4 4 0x00010000 tile
    let m := image 4 9 0x00010000 (tile ++ tile ++ [[1, 2, 3, 4]])
    s.cfg.y0 s.n < s.cfg.y1 s.n ∧ s.cfg.y0 s.n + 2 + 1 < s.cfg.y1 s.n
    ∧ s.cfg.y1 s.n ≤ s.cfg.y0 s.n + 4 ∧ 4 < s.cfg.bh
    ∧ Table.get (s.cfg.y1 s.n - 1) s.win = some (samples [100, 50, 100, 50])
    ∧ (samples [100, 50, 100, 50]).length = s.cfg.w ∧ s.cfg.h ≤ s.cfg.y1 s.n
    ∧ m.cfg.y1 m.n < m.cfg.h ∧ Table.get (m.cfg.y1 m.n) m.win = some (samples [1, 2, 3, 4])
    ∧ (samples [1, 2, 3, 4]).length = m.cfg.w := by decide

/-- The only block column of a row, and the first of two. -/
theorem test_witness_EmitStep :
    let s := { running .stream .encodeStream .emitting cfgP3 with
      strip := List.replicate 8 (List.replicate 24 1#8), engine := [⟨true, []⟩] }
    s.engine = ⟨true, []⟩ :: [] ∧ s.strip.length = s.cfg.bh ∧ (∀ row ∈ s.strip, row.length = s.cfg.pitch)
    ∧ s.c < s.cfg.nbc ∧ s.c + 1 = s.cfg.nbc ∧ 0 + 1 ≠ (cfg0 9 4 0x00010000).nbc := by decide

theorem test_witness_EmitStep_writes :
    ∃ s1, State.outWrites [] (running .stream .encodeStream .emitting cfgP3) = .done s1 := ⟨_, rfl⟩

/-- Stream mode; buffer mode with room; buffer mode after an overflow, the word mapped. -/
theorem test_witness_FinishStep :
    let s := { running .buffer .encodeBuffer .finish cfgBuf with engine := [⟨true, [bytes [7, 8]]⟩] }
    s.engine = ⟨true, [bytes [7, 8]]⟩ :: [] ∧ s.mode = .buffer
    ∧ (∃ s1, State.outWrites [bytes [7, 8]] s = .done s1 ∧ s1.ovf = false)
    ∧ (∃ s1, State.outWrites [bytes [1, 2, 3, 4, 5]] s = .done s1 ∧ s1.ovf = true)
    ∧ (∀ i, i < 4 → s.writable (s.cfg.outSizeAddr.toNat + i) = true)
    ∧ (running .stream .encodeStream .finish cfgP3).mode = .stream :=
  ⟨rfl, rfl, ⟨_, rfl, by decide⟩, ⟨_, rfl, by decide⟩, by decide, rfl⟩

/-- Stream mode with a source answer and a sink count. -/
theorem test_witness_AnsweredStepsComplete_stream :
    let s := { running .stream .encodeStream .finish cfgP3 with
      engine := [⟨true, [bytes [9]]⟩], source := [bytes [1, 2, 3, 4]], sink := [0], rlist := [0] }
    s.engine = ⟨true, [bytes [9]]⟩ :: [] ∧ s.mode = .stream
    ∧ (s.source = bytes [1, 2, 3, 4] :: [] ∧ (bytes [1, 2, 3, 4]).length ≤ s.cfg.stride)
    ∧ s.sink = [0] ++ [] ∧ List.Forall₂ (fun (b : List Byte) (k : Nat) => k ≤ b.length) [bytes [9]] [0]
    ∧ s.ri < s.rlist.length :=
  ⟨rfl, rfl, by decide, rfl, .cons (Nat.zero_le _) .nil, by decide⟩

/-- Buffer mode, all of memory mapped. -/
theorem test_witness_AnsweredStepsComplete_buffer :
    let s := { running .buffer .encodeBuffer .finish cfgBuf with
      engine := [⟨true, [bytes [9]]⟩], rlist := [0] }
    s.cfg.rangesOk = true ∧ (∀ x, s.cfg.inInput x = true → s.readable x = true)
    ∧ (∀ x, s.cfg.inOutput x = true ∨ s.cfg.inOutSize x = true → s.writable x = true)
    ∧ s.cfg.inInput 0x10F = true ∧ s.cfg.inOutput 0x203 = true ∧ s.cfg.inOutSize 0x303 = true := by
  refine ⟨by decide, fun x hx => ?_, fun x hx => ?_, by decide, by decide, by decide⟩
  · exact answersAt_of_rangeAnswers (by decide) (by decide) (of_decide_eq_true hx)
  · rcases hx with hx | hx <;>
      exact answersAt_of_rangeAnswers (by decide) (by decide) (of_decide_eq_true hx)

theorem test_witness_StreamOutputForwarded :
    let s := { running .stream .encodeStream .finish cfgP3 with sink := [0, 1, 5] }
    s.mode = .stream ∧ s.sink = [0, 1] ++ [5]
    ∧ List.Forall₂ (fun (b : List Byte) (k : Nat) => k ≤ b.length) [bytes [9], bytes [8]] [0, 1] :=
  ⟨rfl, rfl, .cons (Nat.zero_le _) (.cons (Nat.le_refl _) .nil)⟩

/-- Two bytes where there is room for one. -/
theorem test_witness_BufferOutputStored :
    let s := { running .buffer .encodeBuffer .emitting cfgBuf with outPos := 3#32 }
    s.mode = .buffer
    ∧ 1 = min (bytes [7, 8]).length (s.cfg.outCap.toNat - s.outPos.toNat)
    ∧ 0x203 = s.cfg.outAddr.toNat + s.outPos.toNat
    ∧ ∀ i, i < 1 → s.writable (0x203 + i) = true := by decide

theorem test_witness_OnlyErrorEntryWritesRecord :
    ∃ t, exec .stepPreflight (running .stream .encodeStream .preflight (cfg0 0 4 0)) = .next t
      ∧ t.errCode = .invalidDimensions :=
  ⟨_, rfl, by decide⟩

theorem test_witness_BusyEncodeUndisturbed :
    ∃ t, (running .stream .encodeStream .reading cfgP3).busy = true
      ∧ step { running .stream .encodeStream .reading cfgP3 with turns := [.command 3#32, .core] } = .next t
      ∧ t.rej = true :=
  ⟨_, rfl, rfl, by decide⟩

theorem test_witness_StreamModeNoBusAccess :
    ∃ t, (running .stream .encodeStream .reading cfgP3).mode = .stream
      ∧ step { running .stream .encodeStream .reading cfgP3 with
          rlist := [0], source := [bytes [1]] } = .next t
      ∧ t.fsm = .unpacking :=
  ⟨_, rfl, rfl, by decide⟩

/-- A block's output in buffer mode, the last byte of the output range written. -/
theorem test_witness_BufferModeStoresInRange :
    let s := { running .buffer .encodeBuffer .finish cfgBuf with
      outPos := 3#32, engine := [⟨true, [bytes [7]]⟩] }
    s.busy = true ∧ bufferPositionsInRange s ∧ s.turns = []
    ∧ (∃ t, step s = .next t ∧ .memWrite 0x203 (bytes [7]) ∈ t.events)
    ∧ s.cfg.inOutput 0x204 = false ∧ s.cfg.inOutSize 0x204 = false := by
  refine ⟨rfl, fun _ _ => by decide, rfl, ⟨_, rfl, by decide⟩, by decide, by decide⟩

theorem test_witness_StepKeepsMemoryCanonical :
    ∃ t, memoryCanonical State.reset
      ∧ step { State.reset with turns := [.busWrite 0 9#8] } = .next t ∧ t.byteAt 0 = 9#8 :=
  ⟨_, State.reset_mem_wf, rfl, Memory.byteAt_store _ 0 0 9#8 []⟩

theorem test_witness_StepKeepsFlagsAndSession :
    let s := { running .stream .encodeStream .finish cfgP3 with
      engineOpen := true, engine := [⟨true, []⟩] }
    flagsFollowState s ∧ sessionOpen s ∧ ∃ t, step s = .next t ∧ t.done = true :=
  ⟨⟨by decide, by decide⟩, fun _ => rfl, _, rfl, by decide⟩

theorem test_witness_StepKeepsReservedBitsZero :
    reservedBitsZero State.reset
    ∧ ∃ t, step { State.reset with turns := [.host ⟨true, 0x28, 32, 0xFFFFFFFF#32⟩] } = .next t
      ∧ t.regs.wbR = 0x8000FFFF#32 :=
  ⟨⟨by decide, by decide⟩, _, rfl, by decide⟩

theorem test_witness_StepKeepsBufferPositions :
    let s := { running .buffer .encodeBuffer .emitting cfgBuf with
      outPos := 4#32, engine := [⟨true, [bytes [7]]⟩] }
    bufferPositionsInRange s ∧ rangesAnswer s ∧ s.busy = true ∧ s.turns = []
    ∧ ∃ t, step s = .next t ∧ t.outPos = 4#32 ∧ t.ovf = true :=
  ⟨fun _ _ => by decide, fun _ _ _ => by decide, rfl, rfl, _, rfl, by decide, by decide⟩

theorem test_witness_StepKeepsErrorRecordTabulated :
    let s := running .buffer .encodeBuffer .preflight { cfgBuf with outCap := 0#32 }
    opMatchesMode s ∧ errorRecordTabulated s ∧ ∃ t, step s = .next t ∧ t.errCode = .zeroCapacity :=
  ⟨fun _ => ⟨by decide, by decide⟩, fun h => absurd h (by decide), _, rfl, by decide⟩

theorem test_witness_StepKeepsCountersInRange :
    let s := { running .stream .encodeStream .await cfgP3 with n := 1 }
    countersInRange s ∧ ∃ t, step s = .next t ∧ t.fsm = .finish :=
  ⟨⟨by decide, ⟨by decide, by decide, by decide⟩, by decide, by decide⟩, _, rfl, by decide⟩

/-- Block row 1 of three, its rows saved. -/
theorem test_witness_StepKeepsWindowWritten :
    let s := { running .stream .encodeStream .await (cfg0 2 20 0x00010000) with
      n := 1, carry := some (samples [1, 2]), look := some (samples [3, 4]) }
    countersInRange s ∧ windowWritten s ∧ ∃ t, step s = .next t ∧ t.fsm = .reading :=
  ⟨⟨by decide, ⟨by decide, by decide, by decide⟩, by decide, by decide⟩,
    ⟨fun h => absurd h (by decide), fun _ => ⟨_, rfl, by decide⟩, fun _ _ => ⟨_, rfl, by decide⟩⟩,
    _, rfl, by decide⟩

theorem test_witness_EveryStepNearsTheEnd :
    let s := { running .stream .encodeStream .skip cfgP3 with
      skipLeft := 1#32, source := [bytes [1, 2, 3, 4]] }
    countersInRange s ∧ s.busy = true ∧ s.turns = []
    ∧ (∃ t, step s = .next t ∧ t.skipLeft = 0#32)
    ∧ ∃ t, State.reset.busy = false ∧ exec .encodeStream State.reset = .next t :=
  ⟨⟨by decide, ⟨by decide, by decide, by decide⟩, by decide, by decide⟩, rfl, rfl, ⟨_, rfl, by decide⟩,
    _, rfl, rfl⟩

end Sys2Proof.Tests
end

section
/-! What one turn can do to the state, said once: the words the registers are read in, the instruction a
turn runs, and every next state there can be. The invariants are derived from `step_move`. -/

namespace Sys2Proof.Machine

/-! ## The STATUS word and the step it selects -/

theorem statusBits_toNat : ∀ (b d e r : Bool) (code : BitVec 4),
    (flagBit b 0 ||| flagBit d 1 ||| flagBit e 2 ||| flagBit r 3 ||| (code.zeroExtend 32 <<< 8)).toNat
      = b.toNat + 2 * d.toNat + 4 * e.toNat + 8 * r.toNat + 256 * code.toNat := by decide

/-- The fields of STATUS at their bits (10_state.md R23). -/
theorem State.statusWord_toNat (s : State) :
    s.statusWord.toNat = s.busy.toNat + 2 * s.done.toNat + 4 * s.err.toNat + 8 * s.rej.toNat
      + 256 * s.fsm.code.toNat :=
  statusBits_toNat ..

theorem State.stateField_statusWord (s : State) : stateField s.statusWord = s.fsm.code := by
  apply BitVec.eq_of_toNat_eq
  have hflags := And.intro s.busy.toNat_le (And.intro s.done.toNat_le
    (And.intro s.err.toNat_le s.rej.toNat_le))
  have hcode := s.fsm.code.isLt
  simp only [stateField, BitVec.extractLsb'_toNat, s.statusWord_toNat, Nat.shiftRight_eq_div_pow]
  omega

/-- The instruction that a state code selects (30_encoding.md R80). -/
def Fsm.instr : Fsm → Instr
  | .idle => .wait 0#4
  | .preflight => .stepPreflight
  | .skip => .stepSkip
  | .begin => .stepBegin
  | .await => .stepAwait
  | .reading => .stepRead
  | .unpacking => .stepUnpack
  | .demosaic => .stepDemosaic
  | .emitting => .stepEmit
  | .finish => .stepFinish
  | .done => .wait 10#4
  | .error => .wait 11#4

theorem State.decodeState_statusWord (s : State) : decodeState s.statusWord = .ok s.fsm.instr := by
  unfold decodeState
  rw [s.stateField_statusWord]
  cases s.fsm <;> rfl

/-! ## What each turn runs -/

/-- The core's turn runs the instruction of its state. -/
theorem step_core {s : State} (h : s.nextTurn = .core) : step s = exec s.fsm.instr s.popTurn := by
  simp only [step, h, presentedBy, runPresented, decode, s.decodeState_statusWord]

/-- The instruction of a command word (30_encoding.md R70). -/
theorem decodeCmd_eq (data : Word) : decodeCmd data =
    if cmdField data = 0#4 then .nop
    else if cmdField data = 1#4 then .encodeStream
    else if cmdField data = 2#4 then .encodeBuffer
    else if cmdField data = 3#4 then .estimate
    else .cmdReserved (cmdField data) := by
  unfold decodeCmd
  split <;> simp_all

/-- What a word written to CTRL runs (30_encoding.md R70). -/
theorem presentCommand_eq (data : Word) (s : State) : presentCommand data s =
    if cmdField data = 0#4 then execNop s
    else if cmdField data = 1#4 then execEncodeStream s
    else if cmdField data = 2#4 then execEncodeBuffer s
    else if cmdField data = 3#4 then execEstimate s
    else execCmdReserved (cmdField data) s := by
  unfold presentCommand
  split <;> simp_all

theorem exec_decodeCmd (data : Word) (s : State) : exec (decodeCmd data) s = presentCommand data s := by
  rw [decodeCmd_eq, presentCommand_eq]
  split_ifs <;> rfl

/-- A command turn presents its word as a write to CTRL does. -/
theorem step_command {s : State} {data : Word} (h : s.nextTurn = .command data) :
    step s = presentCommand data s.popTurn := by
  simp only [step, h, presentedBy, runPresented, decode, exec_decodeCmd]

/-- A host access that is run is a register read or a register write. -/
theorem step_host {s t : State} {a : HostAccess} (h : s.nextTurn = .host a) (hs : step s = .next t) :
    ∃ offset data, execHostRead offset s.popTurn = .next t
      ∨ execHostWrite offset data s.popTurn = .next t := by
  simp only [step, h, presentedBy, runPresented, decode, decodeBus] at hs
  split at hs
  · rename_i i hi
    split at hi
    · split at hi <;> cases hi
      · exact ⟨_, _, .inr hs⟩
      · exact ⟨_, a.data, .inl hs⟩
    · cases hi
  · cases hs

/-- What a datapath unit run alone can do: its result is held in `dp`, or a reserved code acts. -/
theorem exec_decodeFmt_next {format : Word} {bl : BitVec 16} {u : DpUnit} {i : Instr} {s t : State}
    (hi : decodeFmt format bl u = .ok i) (h : exec i s = .next t) :
    (∃ d, t = { s with dp := d }) ∨ t = reservedCode s := by
  cases u with
  | unpacker b =>
    cases hi
    unfold decodeUnpack at h
    split at h <;> cases h
    case h_7 => exact .inr rfl
    all_goals exact .inl ⟨_, rfl⟩
  | blackLevel twoLane u =>
    cases hi
    unfold decodeBlackLevel at h
    split at h
    · cases h; exact .inl ⟨_, rfl⟩
    · split at h <;> cases h <;> exact .inl ⟨_, rfl⟩
  | cfaTable x y => cases hi; cases h; exact .inl ⟨_, rfl⟩
  | whiteBalance p | pixelCsc p | pairCsc p0 p1 | reference x y =>
    simp only [decodeFmt] at hi
    split at hi <;> cases hi
    cases h
    exact .inl ⟨_, rfl⟩
  | rowConverter y =>
    cases hi
    unfold decodeRow at h
    split at h
    · cases h; exact .inl ⟨_, rfl⟩
    · cases h; exact .inl ⟨_, rfl⟩
    · split at h <;> cases h <;> exact .inl ⟨_, rfl⟩
    · cases h; exact .inr rfl
  | toneTable l => cases hi; cases h; exact .inl ⟨_, rfl⟩

/-- The demosaic unit run alone holds its result in `dp`. -/
theorem exec_decodeClass_next {code : BitVec 3} {x y : Nat} {i : Instr} {s t : State}
    (hi : decodeClass code x y = .ok i) (h : exec i s = .next t) : ∃ d, t = { s with dp := d } := by
  unfold decodeClass at hi
  split at hi
  · cases hi; cases h; exact ⟨_, rfl⟩
  · cases hi; cases h; exact ⟨_, rfl⟩
  · split at hi <;> cases hi <;> cases h <;> exact ⟨_, rfl⟩
  · cases hi

/-! ## Everything the core can do -/

/-- An error that pre-flight may raise in a mode (60_exceptions.md R220; 44_orchestrator.md R173). -/
def PreflightCode (m : Mode) (e : ErrCode) : Prop :=
  e ≠ .none ∧ e ≠ .skipEndOfInput ∧ e ≠ .engineInit ∧ e ≠ .outputOverflow
  ∧ (12 ≤ e.code.toNat → m = .buffer)

theorem preflightCode_invalidArguments (m : Mode) : PreflightCode m .invalidArguments := by
  simp [PreflightCode, ErrCode.code]

theorem preflightCode_of_bufferArgError {m : Mode} {cfg : CfgRegs} {e : ErrCode}
    (h : bufferArgError m cfg = some e) : PreflightCode m e := by
  obtain ⟨hm, rfl | rfl | rfl | rfl⟩ := bufferArgError_some h <;> simp [PreflightCode, hm]

theorem preflightCode_of_configError {m : Mode} {cfg : CfgRegs} {e : ErrCode}
    (h : configError m cfg = some e) : PreflightCode m e := by
  obtain h | rfl | rfl | rfl := configError_some h
  · exact preflightCode_of_bufferArgError h
  all_goals simp [PreflightCode, ErrCode.code]

theorem preflightCode_of_resourceError {m : Mode} {cfg : CfgRegs} {e : ErrCode}
    (h : resourceError cfg = some e) : PreflightCode m e := by
  obtain rfl | rfl | rfl | rfl | rfl | rfl := resourceError_some h <;>
    simp [PreflightCode, ErrCode.code]

/-- The state in which AWAIT has opened a block row (44_orchestrator.md R181). -/
def State.opened (s : State) : State :=
  { s with
    win := s.restoredWindow, raw := [], rlist := s.readList, ri := 0, stale := s.stale + 1,
    fsm := if s.readList = [] then .unpacking else .reading }

/-- The state that STEP_UNPACK leaves (44_orchestrator.md R183). -/
def State.unpackedRows (s : State) : State :=
  { s with win := s.rlist.foldl s.unpackInto s.win, fsm := .demosaic }

/-- The state that STEP_DEMOSAIC leaves (44_orchestrator.md R184, R185). -/
def State.convertedRows (s : State) : State :=
  { s with
    strip := s.newStrip, carry := some (s.winRow (s.cfg.y1 s.n - 1)),
    look := if s.cfg.y1 s.n < s.cfg.h then some (s.winRow (s.cfg.y1 s.n)) else none,
    c := 0, fsm := .emitting }

/-- Every next state that a turn of the core can have, the answers of the other agents left open: the
state the step is taken in, and what the step writes. -/
inductive CoreMove (s : State) : State → Prop
  /-- an answer is missing, or the state has no step of its own -/
  | waits : CoreMove s s
  | preflightFails {e : ErrCode} {est : Word} (hf : s.fsm = .preflight) (he : PreflightCode s.mode e) :
      CoreMove s (State.raiseErr e { s with estBytes := est })
  | preflightPasses (hf : s.fsm = .preflight) (hc : configError s.mode s.cfg = none) :
      CoreMove s { s.writeEst with skipLeft := s.cfg.skipLines, fsm := .skip }
  | skipEnds (hf : s.fsm = .skip) : CoreMove s { s with fsm := .begin }
  | skipFails {src pos ev} (hf : s.fsm = .skip) :
      CoreMove s (State.raiseErr .skipEndOfInput { s with source := src, inPos := pos, events := ev })
  | lineSkipped {src pos ev left} (hf : s.fsm = .skip) :
      CoreMove s { s with source := src, inPos := pos, events := ev, skipLeft := left }
  | begun {mem sink eng ev pos ovf} (hf : s.fsm = .begin) :
      CoreMove s { s with
        mem := mem, sink := sink, engine := eng, events := ev, outPos := pos, ovf := ovf,
        n := 0, engineOpen := true, fsm := .await }
  | beginFails {mem sink eng ev pos ovf} (hf : s.fsm = .begin) :
      CoreMove s (State.raiseErr .engineInit { s with
        mem := mem, sink := sink, engine := eng, events := ev, outPos := pos, ovf := ovf })
  | lastRowPassed (hf : s.fsm = .await) (hn : s.n = s.cfg.nbr) : CoreMove s { s with fsm := .finish }
  | blockRowOpens (hf : s.fsm = .await) (hn : s.n ≠ s.cfg.nbr) : CoreMove s s.opened
  | nothingToRead (hf : s.fsm = .reading) (hr : s.rlist[s.ri]? = none) :
      CoreMove s { s with fsm := .unpacking }
  | rowRead {src pos ev r b} (hf : s.fsm = .reading) (hr : s.rlist[s.ri]? = some r) :
      CoreMove s (State.storeRow r b { s with source := src, inPos := pos, events := ev })
  | unpacked (hf : s.fsm = .unpacking) : CoreMove s s.unpackedRows
  | converted (hf : s.fsm = .demosaic) : CoreMove s s.convertedRows
  | blockSent {mem sink eng ev pos ovf} (hf : s.fsm = .emitting) :
      CoreMove s (State.blockSent { s with
        mem := mem, sink := sink, engine := eng, events := ev, outPos := pos, ovf := ovf })
  | overflowed {mem sink eng ev pos ovf} (hf : s.fsm = .finish) (hm : s.mode = .buffer) :
      CoreMove s (State.raiseErr .outputOverflow { s with
        mem := mem, sink := sink, engine := eng, events := ev, outPos := pos, ovf := ovf })
  | completed {mem sink eng ev pos ovf size} (hf : s.fsm = .finish) :
      CoreMove s { s with
        mem := mem, sink := sink, engine := eng, events := ev, outPos := pos, ovf := ovf,
        outSize := size, done := true, fsm := .done }

theorem reservedCode_move (s : State) : CoreMove s (reservedCode s) := by
  obtain h | ⟨hf, ⟨e, he, h⟩ | h⟩ := reservedCode_cases s <;> rw [h]
  · exact .waits
  · exact .preflightFails hf (preflightCode_of_bufferArgError he)
  · exact .preflightFails hf (preflightCode_invalidArguments _)

theorem execStepPreflight_move {s t : State} (hf : s.fsm = .preflight)
    (h : execStepPreflight s = .next t) : CoreMove s t := by
  obtain ⟨e, he, rfl⟩ | ⟨e, _, he, rfl⟩ | ⟨hc, _, _, rfl⟩ := execStepPreflight_next h
  · exact .preflightFails hf (preflightCode_of_configError he)
  · exact .preflightFails hf (preflightCode_of_resourceError he)
  · exact .preflightPasses hf hc

theorem execStepSkip_move {s t : State} (hf : s.fsm = .skip) (h : execStepSkip s = .next t) :
    CoreMove s t := by
  obtain ⟨_, rfl⟩ | ⟨_, rfl | ⟨b, s1, hr, ht⟩⟩ := execStepSkip_next h
  · exact .skipEnds hf
  · exact .waits
  · obtain ⟨src, pos, ev, rfl, _⟩ := State.streamRead_done hr
    obtain ⟨_, rfl⟩ | ⟨_, rfl⟩ := ht
    · exact .skipFails hf
    · exact .lineSkipped hf

theorem execStepBegin_move {s t : State} (hf : s.fsm = .begin) (h : execStepBegin s = .next t) :
    CoreMove s t := by
  obtain rfl | ⟨ok, s1, hc, ht⟩ := execStepBegin_next h
  · exact .waits
  · obtain ⟨mem, sink, eng, ev, pos, ovf, rfl⟩ := State.engineCall_frame hc
    obtain ⟨_, rfl⟩ | ⟨_, rfl⟩ := ht
    · exact .begun hf
    · exact .beginFails hf

theorem execStepAwait_move {s t : State} (hf : s.fsm = .await) (h : execStepAwait s = .next t) :
    CoreMove s t := by
  unfold execStepAwait at h
  split at h <;> cases h
  · exact .lastRowPassed hf ‹_›
  · exact .blockRowOpens hf ‹_›

theorem execStepRead_move {s t : State} (hf : s.fsm = .reading) (h : execStepRead s = .next t) :
    CoreMove s t := by
  obtain ⟨hr, rfl⟩ | rfl | ⟨r, b, s1, hr, hs, rfl⟩ := execStepRead_next h
  · exact .nothingToRead hf hr
  · exact .waits
  · obtain ⟨src, pos, ev, rfl, _⟩ := State.streamRead_done hs
    exact .rowRead hf hr

theorem execStepEmit_move {s t : State} (hf : s.fsm = .emitting) (h : execStepEmit s = .next t) :
    CoreMove s t := by
  obtain rfl | ⟨ok, s1, hc, rfl⟩ := execStepEmit_next h
  · exact .waits
  · obtain ⟨mem, sink, eng, ev, pos, ovf, rfl⟩ := State.engineCall_frame hc
    exact .blockSent hf

theorem execStepFinish_move {s t : State} (hf : s.fsm = .finish) (h : execStepFinish s = .next t) :
    CoreMove s t := by
  obtain rfl | ⟨ok, s1, hc, ht⟩ := execStepFinish_next h
  · exact .waits
  · obtain ⟨mem, sink, eng, ev, pos, ovf, rfl⟩ := State.engineCall_frame hc
    obtain ⟨_, rfl⟩ | ⟨hm, hb⟩ := ht
    · exact .completed hf
    · obtain ⟨_, rfl⟩ | ⟨_, m, _, rfl⟩ := State.bufferResult_done hb
      · exact .overflowed hf hm
      · exact .completed hf

/-- The instruction that the core's state selects makes one of these moves. -/
theorem exec_instr_move {s t : State} (h : exec s.fsm.instr s = .next t) : CoreMove s t := by
  cases hf : s.fsm <;> rw [hf] at h
  case idle | done | error => cases h; exact .waits
  case preflight => exact execStepPreflight_move hf h
  case skip => exact execStepSkip_move hf h
  case begin => exact execStepBegin_move hf h
  case await => exact execStepAwait_move hf h
  case reading => exact execStepRead_move hf h
  case unpacking => cases h; exact .unpacked hf
  case demosaic => cases h; exact .converted hf
  case emitting => exact execStepEmit_move hf h
  case finish => exact execStepFinish_move hf h

/-! ## Everything a turn can do -/

/-- Which mode and `op` an encode command starts with (44_orchestrator.md R170). -/
def StartsAs (m : Mode) (o : EncOp) : Prop :=
  (m = .stream ∧ o = .encodeStream) ∨ (m = .buffer ∧ o = .encodeBuffer)

/-- Every next state that a host access or a command can have. -/
inductive HostMove (s : State) : State → Prop
  | read (offset : BitVec 8) : HostMove s { s with hostData := s.readReg offset }
  | written (offset : BitVec 8) (data : Word) : HostMove s { s with regs := s.regs.write offset data }
  | ignored : HostMove s s
  | rejected : HostMove s s.reject
  | encodeAccepted {m o} (hb : s.busy = false) (hmo : StartsAs m o) : HostMove s (s.acceptEncode m o)
  | estimateAccepted (hb : s.busy = false) : HostMove s s.acceptEstimate

theorem presentCommand_move {data : Word} {s t : State} (h : presentCommand data s = .next t) :
    HostMove s t := by
  obtain rfl | rfl | ⟨hb, rfl | rfl | rfl⟩ := presentCommand_next h
  · exact .ignored
  · exact .rejected
  · exact .encodeAccepted hb (.inl ⟨rfl, rfl⟩)
  · exact .encodeAccepted hb (.inr ⟨rfl, rfl⟩)
  · exact .estimateAccepted hb

theorem execHostWrite_move {offset : BitVec 8} {data : Word} {s t : State}
    (h : execHostWrite offset data s = .next t) : HostMove s t := by
  obtain ⟨_, hc⟩ | ⟨_, rfl⟩ := execHostWrite_next h
  · exact presentCommand_move hc
  · exact .written offset data

theorem execHostRead_move {offset : BitVec 8} {s t : State} (h : execHostRead offset s = .next t) :
    HostMove s t := by
  obtain rfl := execHostRead_next h
  exact .read offset

/-- Every next state that a turn can have, from the state with the turn taken. -/
inductive TurnMove (s : State) : Turn → State → Prop
  | core {t} (h : CoreMove s t) : TurnMove s .core t
  | host {a t} (h : HostMove s t) : TurnMove s (.host a) t
  | command {data t} (h : HostMove s t) : TurnMove s (.command data) t
  | datapath {u} (d : Datapath) : TurnMove s (.datapath u) { s with dp := d }
  | reservedCode {u} : TurnMove s (.datapath u) (reservedCode s)
  | pixel {x y} (d : Datapath) : TurnMove s (.pixel x y) { s with dp := d }
  | reset : TurnMove s .reset s.assertReset
  | busRead {a v} (hu : s.inUse a false = false) (hv : s.readByte a = some v) :
      TurnMove s (.busRead a) { s with hostData := v.zeroExtend 32 }
  | busWrite {a v} (hu : s.inUse a true = false) (hw : s.writable a = true) :
      TurnMove s (.busWrite a v) { s with mem := Memory.store s.unlistedByte a v s.mem }

/-- A step takes its turn off the list and makes one of the turn's moves. -/
theorem step_move {s t : State} (h : step s = .next t) : TurnMove s.popTurn s.nextTurn t := by
  cases ht : s.nextTurn with
  | core => exact .core (exec_instr_move (step_core ht ▸ h))
  | host a =>
    obtain ⟨offset, data, hr | hw⟩ := step_host ht h
    · exact .host (execHostRead_move hr)
    · exact .host (execHostWrite_move hw)
  | command data => exact .command (presentCommand_move (step_command ht ▸ h))
  | datapath u =>
    simp only [step, ht, presentedBy, runPresented, decode] at h
    split at h
    · obtain ⟨d, rfl⟩ | rfl := exec_decodeFmt_next ‹_› h
      · exact .datapath d
      · exact .reservedCode
    · cases h
  | pixel x y =>
    simp only [step, ht, presentedBy, runPresented, decode] at h
    split at h
    · obtain ⟨d, rfl⟩ := exec_decodeClass_next ‹_› h
      exact .pixel d
    · cases h
  | reset =>
    simp only [step, ht, presentedBy, environmentTurn] at h
    cases h
    exact .reset
  | busRead a =>
    simp only [step, ht, presentedBy, environmentTurn, State.busAgentRead] at h
    split at h
    · cases h
    · rename_i hu
      split at h <;> cases h
      exact .busRead (Bool.eq_false_iff.2 hu) ‹_›
  | busWrite a v =>
    simp only [step, ht, presentedBy, environmentTurn, State.busAgentWrite] at h
    split at h
    · cases h
    · rename_i hu
      split at h <;> cases h
      exact .busWrite (Bool.eq_false_iff.2 hu) ‹_›

/-! ## Invariants -/

/-- A predicate that every kind of turn keeps. -/
structure KeptByTurns (P : State → Prop) : Prop where
  /-- it does not depend on the turns, bus memory, the host's read data, the datapath results or REJ -/
  quiet : ∀ s turns mem hostData dp rej, P s →
    P { s with turns := turns, mem := mem, hostData := hostData, dp := dp, rej := rej }
  written : ∀ s offset data, P s → P { s with regs := s.regs.write offset data }
  encodeAccepted : ∀ s m o, s.busy = false → StartsAs m o → P s → P (s.acceptEncode m o)
  estimateAccepted : ∀ s, s.busy = false → P s → P s.acceptEstimate
  reset : ∀ s, P s → P s.assertReset
  core : ∀ s t, P s → CoreMove s t → P t

/-- A predicate that every kind of turn keeps is an invariant of the step. -/
theorem KeptByTurns.step {P : State → Prop} (k : KeptByTurns P) {s t : State} (hs : P s)
    (h : step s = .next t) : P t := by
  have hp : P s.popTurn := k.quiet s s.turns.tail s.mem s.hostData s.dp s.rej hs
  have hhost : ∀ {t}, HostMove s.popTurn t → P t := by
    intro t ht
    cases ht with
    | read offset => exact k.quiet _ _ _ _ _ _ hp
    | written offset data => exact k.written _ offset data hp
    | ignored => exact hp
    | rejected => exact k.quiet _ _ _ _ _ _ hp
    | encodeAccepted hb hmo => exact k.encodeAccepted _ _ _ hb hmo hp
    | estimateAccepted hb => exact k.estimateAccepted _ hb hp
  have hmove := step_move h
  generalize s.nextTurn = turn at hmove
  cases hmove with
  | core h => exact k.core _ _ hp h
  | host h => exact hhost h
  | command h => exact hhost h
  | datapath d => exact k.quiet _ _ _ _ _ _ hp
  | reservedCode => exact k.core _ _ hp (reservedCode_move _)
  | pixel d => exact k.quiet _ _ _ _ _ _ hp
  | reset => exact k.reset _ hp
  | busRead => exact k.quiet _ _ _ _ _ _ hp
  | busWrite => exact k.quiet _ _ _ _ _ _ hp

end Sys2Proof.Machine
end

section
/-! The invariants of the flags, the engine session, the error record and the reserved bits, and what a busy
encode keeps. -/

namespace Sys2Proof.Machine

/-! ## What the core's moves leave unchanged -/

/-- No move of the core writes the registers, the latched configuration, the mode or `op`. -/
theorem CoreMove.command_unchanged {s t : State} (h : CoreMove s t) :
    t.regs = s.regs ∧ t.cfg = s.cfg ∧ t.mode = s.mode ∧ t.op = s.op := by
  cases h with
  | blockSent hf => unfold State.blockSent; split <;> exact ⟨rfl, rfl, rfl, rfl⟩
  | _ => exact ⟨rfl, rfl, rfl, rfl⟩

/-- A move of the core leaves the running states to DONE or ERROR alone. -/
theorem CoreMove.busy_or_ended {s t : State} (h : CoreMove s t) (hb : s.busy = true) :
    t.busy = true ∨ t.fsm = .done ∨ t.fsm = .error := by
  have hkeep : ∀ u : State, u.fsm = s.fsm → u.busy = true := fun u hu => by rw [State.busy, hu]; exact hb
  cases h with
  | waits => exact .inl hb
  | preflightFails | skipFails | beginFails | overflowed => exact .inr (.inr rfl)
  | completed => exact .inr (.inl rfl)
  | preflightPasses | skipEnds | begun | lastRowPassed | nothingToRead | unpacked | converted =>
    exact .inl rfl
  | lineSkipped => exact .inl (hkeep _ rfl)
  | blockRowOpens =>
    left
    simp only [State.opened, State.busy]
    split <;> rfl
  | rowRead =>
    left
    simp only [State.storeRow, State.busy]
    split
    · rfl
    · exact hb
  | blockSent hf =>
    left
    unfold State.blockSent
    split
    · rfl
    · exact hkeep _ rfl

/-! ## O53: DONE, ERR and the engine session -/

/-- Where neither DONE nor ERROR is held, both flags are 0. -/
theorem flagsFollowState.clear {s : State} (h : flagsFollowState s) (hd : s.fsm ≠ .done)
    (he : s.fsm ≠ .error) : s.done = false ∧ s.err = false :=
  ⟨Bool.eq_false_iff.2 fun hs => hd (h.1.1 hs), Bool.eq_false_iff.2 fun hs => he (h.2.1 hs)⟩

/-- Both flags are 0 in any state that is neither DONE nor ERROR. -/
theorem flagsFollowState_of_clear {t : State} (h : t.done = false ∧ t.err = false)
    (hd : t.fsm ≠ .done) (he : t.fsm ≠ .error) : flagsFollowState t := by
  simp [flagsFollowState, h, hd, he]

theorem flagsFollowState_raiseErr {s : State} (code : ErrCode) (h : s.done = false) :
    flagsFollowState (s.raiseErr code) := by
  simp [flagsFollowState, h]

theorem CoreMove.keeps_flags {s t : State} (hs : flagsFollowState s) (h : CoreMove s t) :
    flagsFollowState t := by
  have hclear : ∀ f, s.fsm = f → f ≠ .done → f ≠ .error → s.done = false ∧ s.err = false :=
    fun f hf hd he => hs.clear (hf ▸ hd) (hf ▸ he)
  cases h with
  | waits => exact hs
  | lineSkipped => exact hs
  | preflightFails hf | skipFails hf | beginFails hf | overflowed hf =>
    exact flagsFollowState_raiseErr _ (hclear _ hf nofun nofun).1
  | completed hf => simp [flagsFollowState, (hclear _ hf nofun nofun).2]
  | preflightPasses hf | skipEnds hf | begun hf | lastRowPassed hf | nothingToRead hf | unpacked hf
  | converted hf =>
    exact flagsFollowState_of_clear (hclear _ hf nofun nofun) nofun nofun
  | blockRowOpens hf =>
    refine flagsFollowState_of_clear (hclear _ hf nofun nofun) ?_ ?_ <;>
      simp only [State.opened] <;> split <;> nofun
  | rowRead hf =>
    refine flagsFollowState_of_clear (hclear _ hf nofun nofun) ?_ ?_ <;>
      simp only [State.storeRow, hf] <;> split <;> nofun
  | blockSent hf =>
    unfold State.blockSent
    split
    · exact flagsFollowState_of_clear (hclear _ hf nofun nofun) nofun nofun
    · exact hs

theorem flagsFollowState_kept : KeptByTurns flagsFollowState where
  quiet _ _ _ _ _ _ h := h
  written _ _ _ h := h
  encodeAccepted _ _ _ _ _ _ := flagsFollowState_of_clear ⟨rfl, rfl⟩ nofun nofun
  estimateAccepted _ _ _ := by simp [flagsFollowState]
  reset _ _ := flagsFollowState_of_clear ⟨rfl, rfl⟩ nofun nofun
  core _ _ hs h := h.keeps_flags hs

/-- A state that no session need be open in. -/
theorem sessionOpen_of_not_afterBegin {t : State} (h : t.fsm.afterBegin = false) : sessionOpen t :=
  fun ht => by simp [h] at ht

theorem CoreMove.keeps_session {s t : State} (hs : sessionOpen s) (h : CoreMove s t) : sessionOpen t := by
  have hopen : ∀ f, s.fsm = f → f.afterBegin = true → s.engineOpen = true :=
    fun f hf ha => hs (hf ▸ ha)
  cases h with
  | waits => exact hs
  | lineSkipped => exact hs
  | preflightFails | skipFails | beginFails | overflowed | completed | preflightPasses | skipEnds =>
    exact sessionOpen_of_not_afterBegin rfl
  | begun => exact fun _ => rfl
  | lastRowPassed hf | nothingToRead hf | unpacked hf | converted hf | blockRowOpens hf | rowRead hf =>
    exact fun _ => hopen _ hf rfl
  | blockSent hf =>
    unfold State.blockSent
    split <;> exact fun _ => hopen _ hf rfl

theorem sessionOpen_kept : KeptByTurns sessionOpen where
  quiet _ _ _ _ _ _ h := h
  written _ _ _ h := h
  encodeAccepted _ _ _ _ _ _ := sessionOpen_of_not_afterBegin rfl
  estimateAccepted _ _ _ := sessionOpen_of_not_afterBegin rfl
  reset _ _ := sessionOpen_of_not_afterBegin rfl
  core _ _ hs h := h.keeps_session hs

/-- Settles O53: each part is kept by every kind of turn, and one state is not both DONE and ERROR. -/
theorem stepKeepsFlagsAndSession : Obligations.StepKeepsFlagsAndSession := by
  intro s t hflags hsession hstep
  have ht := flagsFollowState_kept.step hflags hstep
  refine ⟨ht, sessionOpen_kept.step hsession hstep, fun ⟨hd, he⟩ => ?_⟩
  have hdone := ht.1.1 hd
  have herror := ht.2.1 he
  rw [hdone] at herror
  cases herror

/-! ## O56: the error record and `op` -/

theorem StartsAs.opMatches {m : Mode} {o : EncOp} (h : StartsAs m o) :
    (m = .stream → o = .encodeStream) ∧ (m = .buffer → o = .encodeBuffer) := by
  obtain ⟨rfl, rfl⟩ | ⟨rfl, rfl⟩ := h <;> simp

/-- While busy, `op` is one of the two encodes, ENCODE_BUFFER in buffer mode. -/
theorem opMatchesMode.running {s : State} (h : opMatchesMode s) (hb : s.busy = true) :
    (s.op = .encodeStream ∨ s.op = .encodeBuffer) ∧ (s.mode = .buffer → s.op = .encodeBuffer) := by
  obtain ⟨hs, hbuf⟩ := h hb
  refine ⟨?_, hbuf⟩
  cases hm : s.mode
  · exact .inl (hs hm)
  · exact .inr (hbuf hm)

/-- The core takes no step out of the states that are not busy. -/
theorem CoreMove.busy_of_busy {s t : State} (h : CoreMove s t) (ht : t.busy = true) : s.busy = true := by
  cases h with
  | waits => exact ht
  | lineSkipped => exact ht
  | preflightFails hf | skipFails hf | beginFails hf | overflowed hf | completed hf
  | preflightPasses hf | skipEnds hf | begun hf | lastRowPassed hf | nothingToRead hf | unpacked hf
  | converted hf | blockRowOpens hf | rowRead hf | blockSent hf => rw [State.busy, hf]; rfl

theorem opMatchesMode_kept : KeptByTurns opMatchesMode where
  quiet _ _ _ _ _ _ h := h
  written _ _ _ h := h
  encodeAccepted _ _ _ _ hmo _ := fun _ => hmo.opMatches
  estimateAccepted _ _ _ := nofun
  reset _ _ := nofun
  core s t hs h := by
    intro hb
    obtain ⟨_, _, hm, ho⟩ := h.command_unchanged
    rw [hm, ho]
    exact hs (h.busy_of_busy hb)

/-- Where ERR is 0 there is no record to tabulate. -/
theorem errorRecordTabulated_of_not_err {t : State} (h : t.err = false) : errorRecordTabulated t :=
  fun he => by simp [h] at he

/-- The error entry of a code in a state that the table gives it makes a tabulated record. -/
theorem errorRecordTabulated_raiseErr {s : State} {e : ErrCode} (hop : opMatchesMode s)
    (hb : s.busy = true)
    (hrow : (s.fsm = .preflight ∧ e ≠ .none ∧ e ≠ .skipEndOfInput ∧ e ≠ .engineInit ∧ e ≠ .outputOverflow)
      ∨ (s.fsm = .skip ∧ e = .skipEndOfInput) ∨ (s.fsm = .begin ∧ e = .engineInit)
      ∨ (s.fsm = .finish ∧ e = .outputOverflow))
    (hmode : 12 ≤ e.code.toNat → s.mode = .buffer) : errorRecordTabulated (s.raiseErr e) := by
  obtain ⟨hrun, hbuf⟩ := hop.running hb
  exact fun _ => ⟨hrow, hrun, fun h12 => hbuf (hmode h12)⟩

theorem CoreMove.keeps_errorRecord {s t : State} (hop : opMatchesMode s)
    (hs : errorRecordTabulated s) (h : CoreMove s t) : errorRecordTabulated t := by
  have hbusy : ∀ f, s.fsm = f → f.busy = true → s.busy = true := fun f hf hb => by
    rw [State.busy, hf]; exact hb
  cases h with
  | preflightFails hf he =>
    obtain ⟨h0, h5, h6, h12, hmode⟩ := he
    exact errorRecordTabulated_raiseErr hop (hbusy _ hf rfl) (.inl ⟨hf, h0, h5, h6, h12⟩) hmode
  | skipFails hf =>
    exact errorRecordTabulated_raiseErr hop (hbusy _ hf rfl) (.inr (.inl ⟨hf, rfl⟩))
      fun h12 => absurd h12 (by decide)
  | beginFails hf =>
    exact errorRecordTabulated_raiseErr hop (hbusy _ hf rfl) (.inr (.inr (.inl ⟨hf, rfl⟩)))
      fun h12 => absurd h12 (by decide)
  | overflowed hf hm =>
    exact errorRecordTabulated_raiseErr hop (hbusy _ hf rfl) (.inr (.inr (.inr ⟨hf, rfl⟩)))
      fun _ => hm
  | blockSent hf =>
    unfold State.blockSent
    split <;> exact hs
  | _ => exact hs

theorem errorRecord_kept : KeptByTurns fun s => opMatchesMode s ∧ errorRecordTabulated s where
  quiet _ _ _ _ _ _ h := h
  written _ _ _ h := h
  encodeAccepted _ _ _ hb hmo h :=
    ⟨opMatchesMode_kept.encodeAccepted _ _ _ hb hmo h.1, errorRecordTabulated_of_not_err rfl⟩
  estimateAccepted _ hb h :=
    ⟨opMatchesMode_kept.estimateAccepted _ hb h.1, errorRecordTabulated_of_not_err rfl⟩
  reset _ h := ⟨opMatchesMode_kept.reset _ h.1, errorRecordTabulated_of_not_err rfl⟩
  core _ _ hs h := ⟨opMatchesMode_kept.core _ _ hs.1 h, h.keeps_errorRecord hs.1 hs.2⟩

/-- Settles O56: the record is tabulated where `op` is the running command's, and every kind of turn keeps
the two together. -/
theorem stepKeepsErrorRecordTabulated : Obligations.StepKeepsErrorRecordTabulated :=
  fun _ _ hop hrec hstep => errorRecord_kept.step ⟨hop, hrec⟩ hstep

/-! ## O54: the reserved bits -/

theorem CfgRegs.reservedZero_reset : CfgRegs.reset.reservedZero = true := by decide

/-- A host write leaves the reserved bits 0: it masks what it writes. -/
theorem CfgRegs.reservedZero_write {r : CfgRegs} (h : r.reservedZero = true) (offset : BitVec 8)
    (v : Word) : (r.write offset v).reservedZero = true := by
  unfold CfgRegs.write
  split <;> simp_all [CfgRegs.reservedZero, BitVec.and_assoc]

theorem reservedBitsZero_kept : KeptByTurns reservedBitsZero where
  quiet _ _ _ _ _ _ h := h
  written _ offset data h := ⟨CfgRegs.reservedZero_write h.1 offset data, h.2⟩
  encodeAccepted _ _ _ _ _ h := ⟨h.1, h.1⟩
  estimateAccepted _ _ h := ⟨h.1, h.1⟩
  reset _ _ := ⟨CfgRegs.reservedZero_reset, CfgRegs.reservedZero_reset⟩
  core s t hs h := by
    obtain ⟨hr, hc, _, _⟩ := h.command_unchanged
    rw [reservedBitsZero, hr, hc]
    exact hs

/-- Settles O54: a host write masks what it writes, and cfg is only ever a copy of the registers. -/
theorem stepKeepsReservedBitsZero : Obligations.StepKeepsReservedBitsZero :=
  fun _ _ => reservedBitsZero_kept.step

/-! ## O49: a busy encode -/

/-- While busy, a host access or a command changes at most REJ, the registers and the host's read data. -/
theorem HostMove.of_busy {s t : State} (h : HostMove s t) (hb : s.busy = true) :
    t = { s with regs := t.regs, rej := t.rej, hostData := t.hostData } := by
  cases h with
  | read | written | ignored | rejected => rfl
  | encodeAccepted hidle | estimateAccepted hidle => simp [hb] at hidle

/-- No turn but a reset takes a busy core's command from it. -/
theorem TurnMove.of_busy {s t : State} {m : Turn} (h : TurnMove s m t) (hb : s.busy = true)
    (hm : m ≠ .reset) :
    t.cfg = s.cfg ∧ t.mode = s.mode ∧ t.op = s.op
      ∧ (t.busy = true ∨ t.fsm = .done ∨ t.fsm = .error) := by
  have hcore : ∀ {t}, CoreMove s t → t.cfg = s.cfg ∧ t.mode = s.mode ∧ t.op = s.op
      ∧ (t.busy = true ∨ t.fsm = .done ∨ t.fsm = .error) := by
    intro t ht
    obtain ⟨_, hc, hmode, hop⟩ := ht.command_unchanged
    exact ⟨hc, hmode, hop, ht.busy_or_ended hb⟩
  cases h with
  | core ht => exact hcore ht
  | host ht | command ht => rw [ht.of_busy hb]; exact ⟨rfl, rfl, rfl, .inl hb⟩
  | reservedCode => exact hcore (reservedCode_move s)
  | datapath | pixel | busRead | busWrite => exact ⟨rfl, rfl, rfl, .inl hb⟩
  | reset => exact absurd rfl hm

/-- Settles O49: the busy cases of every move that the turn can make. -/
theorem busyEncodeUndisturbed : Obligations.BusyEncodeUndisturbed := by
  intro s t m rest hb hturns hstep
  have hmove := step_move hstep
  have hpop : s.popTurn = { s with turns := rest } := by simp [State.popTurn, hturns]
  have hnext : s.nextTurn = m := by simp [State.nextTurn, hturns]
  rw [hpop, hnext] at hmove
  refine ⟨?_, fun hm => hmove.of_busy hb hm⟩
  rintro (⟨a, rfl⟩ | ⟨d, rfl⟩)
  · cases hmove with | host h => exact h.of_busy hb
  · cases hmove with | command h => exact h.of_busy hb

end Sys2Proof.Machine
end

section
/-! The invariants of the counters and of the window: each row that a block row reads has been written. -/

namespace Sys2Proof.Machine

/-! ## Geometry of a configuration that pre-flight has passed -/

theorem cfgReady_of_configError {m : Mode} {cfg : CfgRegs} (h : configError m cfg = none) :
    cfgReady cfg := by
  obtain ⟨hcodes, hw, hh, _⟩ := configError_none h
  exact ⟨hcodes, hw, hh⟩

/-- A defined SUBSAMP gives blocks of at least one pixel (10_state.md R32). -/
theorem cfgReady.block_pos {cfg : CfgRegs} (h : cfgReady cfg) : 0 < cfg.mw ∧ 0 < cfg.bh := by
  obtain ⟨hcodes, _⟩ := h
  obtain ⟨_, hsub, _⟩ := of_decide_eq_true hcodes
  unfold CfgRegs.mw CfgRegs.bh CfgRegs.geometry
  generalize cfg.subsamp = sub at hsub
  revert sub
  unfold geometryOf
  decide

theorem lt_ceilDiv_iff {a b n : Nat} (hb : 0 < b) : n < ceilDiv a b ↔ n * b < a := by
  rw [ceilDiv, ← Nat.succ_le_iff, Nat.le_div_iff_mul_le hb, Nat.succ_mul]
  omega

/-- An image has at least one block column. -/
theorem cfgReady.nbc_pos {cfg : CfgRegs} (h : cfgReady cfg) : 0 < cfg.nbc := by
  obtain ⟨hmw, _⟩ := h.block_pos
  obtain ⟨_, hw, _⟩ := h
  rw [CfgRegs.nbc, CfgRegs.wpad, Nat.mul_div_cancel _ hmw, lt_ceilDiv_iff hmw]
  omega

/-- A block row below NBR has a row inside the image. -/
theorem cfgReady.y0_lt_h {cfg : CfgRegs} (h : cfgReady cfg) {n : Nat} (hn : n < cfg.nbr) :
    cfg.y0 n < cfg.h :=
  (lt_ceilDiv_iff h.block_pos.2).1 hn

theorem CfgRegs.y0_succ (cfg : CfgRegs) (n : Nat) : cfg.y0 (n + 1) = cfg.y0 n + cfg.bh :=
  Nat.succ_mul n cfg.bh

/-- A block row reads at most its BH rows and the lookahead row (44_orchestrator.md R181). -/
theorem State.length_readList_le (s : State) : s.readList.length ≤ s.cfg.bh + 1 := by
  have hfirst := s.firstRow_eq
  have hlast : s.cfg.y1 s.n ≤ s.cfg.y0 s.n + s.cfg.bh := Nat.min_le_left ..
  simp only [State.readList, List.length_append, length_rowsFrom]
  split <;> simp only [List.length_singleton, List.length_nil] <;> omega

/-! ## O57: the counters -/

/-- The error entry keeps counters that are in range. -/
theorem countersInRange_raiseErr {s : State} (e : ErrCode) (hri : s.ri ≤ s.rlist.length)
    (hn : s.n ≤ s.cfg.nbr) (hc : s.c ≤ s.cfg.nbc) : countersInRange (s.raiseErr e) :=
  ⟨hri, hn, hc⟩

theorem countersInRange.opened {s : State} (hs : countersInRange s) (hf : s.fsm = .await)
    (hn : s.n ≠ s.cfg.nbr) : countersInRange s.opened := by
  obtain ⟨_, hb⟩ := hs
  simp only [blockCountersInRange, hf] at hb
  obtain ⟨hready, hle, hc⟩ := hb
  have hlt : s.n < s.cfg.nbr := Nat.lt_of_le_of_ne hle hn
  refine ⟨Nat.zero_le _, ?_⟩
  by_cases hl : s.readList = []
  · simp only [State.opened, hl, if_true]
    exact ⟨hready, hlt, hc⟩
  · simp only [State.opened, hl, if_false]
    exact ⟨hready, hlt, hc, List.length_pos_iff.2 hl, s.length_readList_le⟩

theorem countersInRange.storeRow {s : State} (hs : countersInRange s) (hf : s.fsm = .reading)
    {r : Nat} {b : List Byte} : countersInRange (s.storeRow r b) := by
  obtain ⟨_, hb⟩ := hs
  simp only [blockCountersInRange, hf] at hb
  obtain ⟨hready, hn, hc, hri, hlen⟩ := hb
  refine ⟨hri, ?_⟩
  by_cases hl : s.ri + 1 = s.rlist.length
  · simp only [State.storeRow, hl, if_true]
    exact ⟨hready, hn, hc⟩
  · simp only [State.storeRow, hl, if_false, hf]
    exact ⟨hready, hn, hc, Nat.lt_of_le_of_ne hri hl, hlen⟩

theorem countersInRange.blockSent {s : State} (hs : countersInRange s) (hf : s.fsm = .emitting) :
    countersInRange s.blockSent := by
  obtain ⟨hri, hb⟩ := hs
  simp only [blockCountersInRange, hf] at hb
  obtain ⟨hready, hn, hc⟩ := hb
  unfold State.blockSent
  split
  · exact ⟨hri, hready, hn, hc⟩
  · rename_i hlast
    refine ⟨hri, ?_⟩
    simp only [blockCountersInRange, hf]
    exact ⟨hready, hn, Nat.lt_of_le_of_ne hc hlast⟩

theorem CoreMove.keeps_counters {s t : State} (hs : countersInRange s) (h : CoreMove s t) :
    countersInRange t := by
  have ⟨hri, hb⟩ := hs
  cases h with
  | waits => exact hs
  | lineSkipped => exact hs
  | preflightFails hf =>
    simp only [blockCountersInRange, hf] at hb
    obtain ⟨hn, hc⟩ := hb
    exact countersInRange_raiseErr _ hri (hn ▸ Nat.zero_le _) (hc ▸ Nat.zero_le _)
  | skipFails hf | beginFails hf =>
    simp only [blockCountersInRange, hf] at hb
    obtain ⟨_, hn, hc⟩ := hb
    exact countersInRange_raiseErr _ hri (hn ▸ Nat.zero_le _) (hc ▸ Nat.zero_le _)
  | overflowed hf =>
    simp only [blockCountersInRange, hf] at hb
    obtain ⟨_, hn, hc⟩ := hb
    exact countersInRange_raiseErr _ hri hn.le hc
  | completed => exact ⟨hri, trivial⟩
  | preflightPasses hf hpass =>
    simp only [blockCountersInRange, hf] at hb
    exact ⟨hri, cfgReady_of_configError hpass, hb⟩
  | skipEnds hf =>
    simp only [blockCountersInRange, hf] at hb
    exact ⟨hri, hb⟩
  | begun hf =>
    simp only [blockCountersInRange, hf] at hb
    obtain ⟨hready, _, hc⟩ := hb
    exact ⟨hri, hready, Nat.zero_le _, hc.le.trans (Nat.zero_le _)⟩
  | lastRowPassed hf hn =>
    simp only [blockCountersInRange, hf] at hb
    obtain ⟨hready, _, hc⟩ := hb
    exact ⟨hri, hready, hn, hc⟩
  | blockRowOpens hf hn => exact hs.opened hf hn
  | nothingToRead hf =>
    simp only [blockCountersInRange, hf] at hb
    obtain ⟨hready, hn, hc, _⟩ := hb
    exact ⟨hri, hready, hn, hc⟩
  | rowRead hf =>
    apply countersInRange.storeRow
    exacts [hs, hf]
  | unpacked hf =>
    simp only [blockCountersInRange, hf] at hb
    exact ⟨hri, hb⟩
  | converted hf =>
    simp only [blockCountersInRange, hf] at hb
    obtain ⟨hready, hn, _⟩ := hb
    exact ⟨hri, hready, hn, hready.nbc_pos⟩
  | blockSent hf => exact countersInRange.blockSent hs hf

theorem countersInRange_kept : KeptByTurns countersInRange where
  quiet _ _ _ _ _ _ h := h
  written _ _ _ h := h
  encodeAccepted _ _ _ _ _ h := ⟨h.1, rfl, rfl⟩
  estimateAccepted _ _ h := ⟨h.1, trivial⟩
  reset _ _ := ⟨Nat.le_refl 0, rfl, rfl⟩
  core _ _ hs h := h.keeps_counters hs

/-- Settles O57: every kind of turn keeps the counters in range. -/
theorem stepKeepsCountersInRange : Obligations.StepKeepsCountersInRange :=
  fun _ _ => countersInRange_kept.step

/-! ## O58: the window

AWAIT restores the rows y0 - 1 and y0, READ and UNPACK write the read list, so that DEMOSAIC finds every row
from y0 - 1 to y1 that the image has; it saves two of them for the next block row. -/

theorem State.length_winRow (s : State) (r : Nat) : (s.winRow r).length = s.cfg.w := by
  simp [State.winRow]

/-- The carry-over row is restored to row y0 - 1, which the lookahead row does not touch. -/
theorem State.restoredWindow_carry {s : State} {row : List Sample} (hc : s.carry = some row)
    (h0 : 0 < s.cfg.y0 s.n) : Table.get (s.cfg.y0 s.n - 1) s.restoredWindow = some row := by
  unfold State.restoredWindow
  rw [hc]
  cases s.look with
  | none => exact Table.get_put_same ..
  | some row' => exact (Table.get_put_other _ _ _ _ (by omega)).trans (Table.get_put_same ..)

/-- The lookahead row is restored to row y0. -/
theorem State.restoredWindow_look {s : State} {row : List Sample} (hl : s.look = some row) :
    Table.get (s.cfg.y0 s.n) s.restoredWindow = some row := by
  unfold State.restoredWindow
  rw [hl]
  exact Table.get_put_same ..

/-- AWAIT opens a block row whose saved rows are there. -/
theorem historyKept.opened {s : State} (h : historyKept s s.n) (hready : cfgReady s.cfg)
    (hn : s.n < s.cfg.nbr) : blockRowOpened s.opened := by
  obtain ⟨hfirst, hcarry, hlook⟩ := h
  refine ⟨rfl, fun h0 => (hfirst h0).2, fun hpos => ?_⟩
  obtain ⟨crow, hc, hcw⟩ := hcarry hpos
  obtain ⟨lrow, hl, hlw⟩ := hlook hpos hn
  have h0 : 0 < s.cfg.y0 s.n := Nat.mul_pos hpos hready.block_pos.2
  refine ⟨?_, ⟨crow, State.restoredWindow_carry hc h0, hcw⟩, ⟨lrow, State.restoredWindow_look hl, hlw⟩⟩
  change s.look ≠ none
  simp [hl]

theorem windowWritten.opened {s : State} (hs : windowWritten s) (hcount : countersInRange s)
    (hf : s.fsm = .await) (hn : s.n ≠ s.cfg.nbr) : windowWritten s.opened := by
  obtain ⟨_, hb⟩ := hcount
  simp only [blockCountersInRange, hf] at hb
  obtain ⟨hready, hle, _⟩ := hb
  simp only [windowWritten, hf] at hs
  have hopen := hs.opened hready (Nat.lt_of_le_of_ne hle hn)
  by_cases hl : s.readList = []
  · have hfsm : s.opened.fsm = .unpacking := if_pos hl
    have hlist : s.opened.rlist = [] := hl
    simp only [windowWritten, hfsm, hlist]
    exact ⟨hopen, nofun⟩
  · have hfsm : s.opened.fsm = .reading := if_neg hl
    simp only [windowWritten, hfsm]
    exact ⟨hopen, nofun⟩

/-- A raw row that is there stays there when another is stored. -/
theorem State.storeRow_raw_get {s : State} {r r' : Nat} {b : List Byte}
    (h : r' = r ∨ ∃ row, Table.get r' s.raw = some row) :
    ∃ row, Table.get r' (s.storeRow r b).raw = some row := by
  simp only [State.storeRow, Table.get_put]
  split
  · exact ⟨_, rfl⟩
  · exact h.resolve_left ‹_›

theorem windowWritten.storeRow {s : State} (hs : windowWritten s) (hf : s.fsm = .reading) {r : Nat}
    {b : List Byte} (hr : s.rlist[s.ri]? = some r) : windowWritten (s.storeRow r b) := by
  simp only [windowWritten, hf] at hs
  obtain ⟨hopen, hraw⟩ := hs
  have hread : ∀ j, j < s.ri + 1 → ∀ r', s.rlist[j]? = some r' →
      ∃ row, Table.get r' (s.storeRow r b).raw = some row := by
    intro j hj r' hr'
    apply State.storeRow_raw_get
    by_cases hlast : j = s.ri
    · subst hlast
      exact .inl (Option.some.inj (hr'.symm.trans hr))
    · exact .inr (hraw j (by omega) r' hr')
  by_cases hl : s.ri + 1 = s.rlist.length
  · have hfsm : (s.storeRow r b).fsm = .unpacking := if_pos hl
    simp only [windowWritten, hfsm]
    refine ⟨hopen, fun r' hmem => ?_⟩
    obtain ⟨j, hj, hget⟩ := List.mem_iff_getElem.1 hmem
    exact hread j (hl ▸ hj) r' (hget ▸ List.getElem?_eq_getElem hj)
  · have hfsm : (s.storeRow r b).fsm = .reading := (if_neg hl).trans hf
    simp only [windowWritten, hfsm]
    exact ⟨hopen, hread⟩

theorem rowWritten_unpackedRows {s : State} {r : Nat} (h : r ∈ s.rlist ∨ rowWritten s r) :
    rowWritten s.unpackedRows r := by
  unfold rowWritten State.unpackedRows
  rw [State.unpackInto_get]
  split
  · exact ⟨_, rfl, correctedRow_length ..⟩
  · exact h.resolve_left ‹_›

/-- In an open block row each row from y0 - 1 to y1 that the image has is restored or to be read. -/
theorem blockRowOpened.row {s : State} (h : blockRowOpened s) {r : Nat} (hlo : s.cfg.y0 s.n ≤ r + 1)
    (hhi : r ≤ s.cfg.y1 s.n) (himage : r < s.cfg.h) : r ∈ s.rlist ∨ rowWritten s r := by
  obtain ⟨hlist, hnone, hrestored⟩ := h
  have hmem : s.firstRow ≤ r → r ∈ s.rlist := by
    intro hfirst
    rw [hlist, State.mem_readList]
    obtain hlt | rfl := Nat.lt_or_eq_of_le hhi
    · exact .inl ⟨hfirst, hlt⟩
    · exact .inr ⟨rfl, himage⟩
  have hfirstRow := s.firstRow_eq
  obtain h0 | hpos := Nat.eq_zero_or_pos s.n
  · rw [hnone h0, if_pos rfl, h0, CfgRegs.y0, Nat.zero_mul] at hfirstRow
    exact .inl (hmem (hfirstRow ▸ Nat.zero_le r))
  · obtain ⟨hlook, habove, hfirst⟩ := hrestored hpos
    rw [if_neg hlook] at hfirstRow
    by_cases hin : s.firstRow ≤ r
    · exact .inl (hmem hin)
    · obtain rfl | hr : r = s.cfg.y0 s.n ∨ r = s.cfg.y0 s.n - 1 := by omega
      · exact .inr hfirst
      · exact .inr (hr ▸ habove)

theorem windowWritten.unpackedRows {s : State} (hs : windowWritten s) (hf : s.fsm = .unpacking) :
    windowWritten s.unpackedRows := by
  simp only [windowWritten, hf] at hs
  obtain ⟨hopen, _⟩ := hs
  exact fun r hlo hhi himage => rowWritten_unpackedRows (hopen.row hlo hhi himage)

/-- The strip of a block row with a row inside the image has BH rows of `pitch` bytes
(44_orchestrator.md R184). -/
theorem State.newStrip_shape {s : State} (hy : s.cfg.y0 s.n < s.cfg.h) (hbh : 0 < s.cfg.bh) :
    s.newStrip.length = s.cfg.bh ∧ ∀ row ∈ s.newStrip, row.length = s.cfg.pitch := by
  have hrows : 0 < s.cfg.y1 s.n - s.cfg.y0 s.n ∧ s.cfg.y1 s.n - s.cfg.y0 s.n ≤ s.cfg.bh := by
    unfold CfgRegs.y1
    omega
  have hlen := s.outRows_length (s.cfg.y1 s.n - s.cfg.y0 s.n)
  have hpitch := s.outRows_row_length (s.cfg.y1 s.n - s.cfg.y0 s.n)
  simp only [State.newStrip]
  generalize s.outRows (s.cfg.y1 s.n - s.cfg.y0 s.n) = rows at hlen hpitch
  cases hlast : rows.getLast? with
  | none => simp [List.getLast?_eq_none_iff.1 hlast] at hlen; omega
  | some last =>
    refine ⟨by simp only [List.length_append, List.length_replicate]; omega, fun row hrow => ?_⟩
    obtain hrow | hrow := List.mem_append.1 hrow
    · exact hpitch row hrow
    · rw [List.eq_of_mem_replicate hrow]
      exact hpitch last (List.mem_of_getLast? hlast)

theorem windowWritten_convertedRows {s : State} (hcount : countersInRange s) (hf : s.fsm = .demosaic) :
    windowWritten s.convertedRows := by
  obtain ⟨_, hb⟩ := hcount
  simp only [blockCountersInRange, hf] at hb
  obtain ⟨hready, hn, _⟩ := hb
  have hlook : s.n + 1 < s.cfg.nbr →
      ∃ row, s.convertedRows.look = some row ∧ row.length = s.cfg.w := by
    intro hnext
    have hy1 : s.cfg.y1 s.n < s.cfg.h := by
      have := hready.y0_lt_h hnext
      rw [CfgRegs.y0_succ] at this
      exact (Nat.min_le_left ..).trans_lt this
    exact ⟨_, if_pos hy1, s.length_winRow _⟩
  exact ⟨⟨nofun, fun _ => ⟨_, rfl, s.length_winRow _⟩, fun _ => hlook⟩,
    State.newStrip_shape (hready.y0_lt_h hn) hready.block_pos.2⟩

theorem windowWritten.blockSent {s : State} (hs : windowWritten s) (hf : s.fsm = .emitting) :
    windowWritten s.blockSent := by
  unfold State.blockSent
  split
  · simp only [windowWritten, hf] at hs
    exact hs.1
  · exact hs

theorem CoreMove.keeps_window {s t : State} (hcount : countersInRange s) (hs : windowWritten s)
    (h : CoreMove s t) : windowWritten t := by
  have hw := hs
  cases h with
  | waits => exact hs
  | lineSkipped => exact hs
  | preflightFails | skipFails | beginFails | overflowed | completed | lastRowPassed => trivial
  | preflightPasses hf | skipEnds hf =>
    simp only [windowWritten, hf] at hw
    exact hw
  | begun hf =>
    simp only [windowWritten, hf] at hw
    exact ⟨fun _ => hw, nofun, nofun⟩
  | blockRowOpens hf hn => exact hs.opened hcount hf hn
  | nothingToRead hf hr =>
    obtain ⟨_, hb⟩ := hcount
    simp only [blockCountersInRange, hf] at hb
    obtain ⟨_, _, _, hri, _⟩ := hb
    exact absurd hri (Nat.not_lt.2 (List.getElem?_eq_none_iff.1 hr))
  | rowRead hf hr => exact windowWritten.storeRow hs hf hr
  | unpacked hf => exact hs.unpackedRows hf
  | converted hf => exact windowWritten_convertedRows hcount hf
  | blockSent hf => exact windowWritten.blockSent hs hf

theorem windowWritten_kept : KeptByTurns fun s => countersInRange s ∧ windowWritten s where
  quiet _ _ _ _ _ _ h := h
  written _ _ _ h := h
  encodeAccepted _ _ _ hb hmo h :=
    ⟨countersInRange_kept.encodeAccepted _ _ _ hb hmo h.1, rfl, rfl⟩
  estimateAccepted _ hb h := ⟨countersInRange_kept.estimateAccepted _ hb h.1, trivial⟩
  reset _ h := ⟨countersInRange_kept.reset _ h.1, trivial⟩
  core _ _ hs h := ⟨h.keeps_counters hs.1, h.keeps_window hs.1 hs.2⟩

/-- Settles O58: with the counters in range, every kind of turn keeps the window written. -/
theorem stepKeepsWindowWritten : Obligations.StepKeepsWindowWritten :=
  fun _ _ hcount hs hstep => (windowWritten_kept.step ⟨hcount, hs⟩ hstep).2

end Sys2Proof.Machine
end

section
/-! The register file as the host reads and writes it, and the state after reset. -/

namespace Sys2Proof.Machine

/-! ## O14: host reads -/

theorem State.errCodeWord_toNat (s : State) : s.errCodeWord.toNat = s.errCode.code.toNat := by
  have := s.errCode.code.isLt
  simp only [State.errCodeWord, BitVec.toNat_setWidth]
  omega

theorem errInfoBits_toNat : ∀ op state : BitVec 4,
    (op.zeroExtend 32 ||| (state.zeroExtend 32 <<< 8) : Word).toNat = op.toNat + 256 * state.toNat := by
  decide

/-- The fields of ERR_INFO at their bits (10_state.md R23). -/
theorem State.errInfoWord_toNat (s : State) :
    s.errInfoWord.toNat = s.errOp.code.toNat + 256 * s.errState.code.toNat :=
  errInfoBits_toNat ..

/-- A read of an aligned offset gives the host the register's word. -/
theorem execHostRead_aligned {offset : BitVec 8} (h : offset.toNat % 4 = 0) (s : State) :
    execHostRead offset s = .next { s with hostData := s.readReg offset } :=
  if_pos (decide_eq_true h)

/-- CTRL and every unlisted offset read 0 (10_state.md R23). -/
theorem State.readReg_unlisted (s : State) {offset : BitVec 8} (h : offset = 0x00#8 ∨ 0x58 ≤ offset.toNat) :
    s.readReg offset = 0#32 := by
  unfold State.readReg
  split
  case h_22 => rfl
  all_goals exact absurd h (by decide)

/-- Settles O14: the code tables by evaluation, each register by the arm of `readReg` at its offset. -/
theorem hostReadReturnsRegister : Obligations.HostReadReturnsRegister := by
  refine ⟨by decide, by decide, by decide, fun s offset h => ?_⟩
  refine ⟨s.readReg offset, execHostRead_aligned h s, ?_, ?_, ?_, ?_, ?_, ?_, ?_, ?_, ?_, ?_, ?_, ?_, ?_,
    ?_, ?_, ?_, ?_, ?_, ?_, ?_, ?_, s.readReg_unlisted⟩ <;> rintro rfl
  · exact s.statusWord_toNat
  · exact s.errCodeWord_toNat
  · exact s.errInfoWord_toNat
  all_goals rfl

/-! ## O15: host writes -/

/-- The bits of the register at an offset that a host write sets, none where the register is not writable
(10_state.md R23). -/
def writeMask (offset : BitVec 8) : Word :=
  if offset = 0x10#8 ∨ offset = 0x14#8 ∨ offset = 0x20#8 ∨ offset = 0x34#8 ∨ offset = 0x3C#8
    ∨ offset = 0x40#8 ∨ offset = 0x44#8 ∨ offset = 0x48#8 ∨ offset = 0x4C#8 then 0xFFFFFFFF#32
  else if offset = 0x18#8 then 0x00070337#32
  else if offset = 0x1C#8 then 0x000000FF#32
  else if offset = 0x24#8 then 0x0000FFFF#32
  else if offset = 0x28#8 ∨ offset = 0x2C#8 ∨ offset = 0x30#8 then 0x8000FFFF#32
  else 0#32

/-- A write leaves every other register as it was. -/
theorem State.readReg_write_other (s : State) {o offset : BitVec 8} (h : o ≠ offset) (v : Word) :
    State.readReg { s with regs := s.regs.write offset v } o = s.readReg o := by
  unfold CfgRegs.write
  split
  case h_16 => rfl
  all_goals
    unfold State.readReg
    split <;> trivial

theorem and_fullMask (v : Word) : v &&& 0xFFFFFFFF#32 = v := BitVec.and_allOnes

/-- The register written reads back in the bits of its fields, where it is writable. -/
theorem State.readReg_write_same (s : State) (offset : BitVec 8) (v : Word) :
    State.readReg { s with regs := s.regs.write offset v } offset
      = if writeMask offset ≠ 0#32 then v &&& writeMask offset else s.readReg offset := by
  unfold CfgRegs.write
  split
  case h_16 =>
    have hro : writeMask offset = 0#32 := by simp_all [writeMask]
    rw [hro]
    rfl
  all_goals simp [writeMask, State.readReg, and_fullMask, formatMask, qualityMask, blackLevelMask, gainMask]

/-- A host write of an aligned offset other than CTRL writes the registers. -/
theorem execHostWrite_aligned {offset : BitVec 8} (h : offset.toNat % 4 = 0) (h0 : offset ≠ 0x00#8)
    (data : Word) (s : State) :
    execHostWrite offset data s = .next { s with regs := s.regs.write offset data } :=
  (if_pos (decide_eq_true h)).trans (if_neg h0)

/-- Settles O15: the register at the written offset reads back masked, every other as before. -/
theorem hostWriteUpdatesRegister : Obligations.HostWriteUpdatesRegister := by
  intro s offset data h h0 mask
  have hmask : mask = writeMask offset := rfl
  refine ⟨_, execHostWrite_aligned h h0 data s, rfl, fun o => ?_⟩
  by_cases ho : o = offset
  · subst ho
    simpa [hmask] using s.readReg_write_same o data
  · simpa [ho] using s.readReg_write_other ho data

/-! ## Reset -/

/-- The registers' reset values (10_state.md R23, R36). -/
theorem State.readReg_reset (offset : BitVec 8) : State.reset.readReg offset =
    if offset = 0x28#8 ∨ offset = 0x2C#8 ∨ offset = 0x30#8 then 0x00000100#32
    else if offset = 0x34#8 then 0xFFFFFFFF#32 else 0#32 := by
  unfold State.readReg
  split
  case h_22 => simp_all
  all_goals decide

/-- Settles O6: the register file by its offsets, every other field by evaluation. -/
theorem resetState : Obligations.ResetState :=
  ⟨State.readReg_reset, rfl, rfl, rfl, rfl, rfl, rfl, rfl, rfl, rfl, rfl, rfl, rfl, rfl, rfl, rfl, rfl, rfl⟩

/-- Settles O59: most invariants speak of running states, of an error or of memory written since, and reset
has none of them. -/
theorem resetMeetsInvariants : Obligations.ResetMeetsInvariants :=
  ⟨rfl, flagsFollowState_of_clear ⟨rfl, rfl⟩ nofun nofun, sessionOpen_of_not_afterBegin rfl,
    ⟨CfgRegs.reservedZero_reset, CfgRegs.reservedZero_reset⟩, nofun, nofun,
    errorRecordTabulated_of_not_err rfl, ⟨Nat.le_refl 0, rfl, rfl⟩, trivial, nofun⟩

end Sys2Proof.Machine
end

section
/-! Byte order (20_memory.md R54), the host accesses that are refused (R55), and what one request at a port
does in each mode (R57-R60). -/

namespace Sys2Proof.Machine

/-! ## O17: byte order -/

/-- A word is the sum of its four bytes by their weight. -/
theorem word_toNat_eq_bytes (v : Word) : v.toNat
    = (v.extractLsb' 0 8).toNat + 2 ^ 8 * (v.extractLsb' 8 8).toNat
      + 2 ^ 16 * (v.extractLsb' 16 8).toNat + 2 ^ 24 * (v.extractLsb' 24 8).toNat := by
  have := v.isLt
  simp only [BitVec.extractLsb'_toNat, Nat.shiftRight_eq_div_pow]
  omega

/-- `LE(b0, b1)` as a number (00_scope.md R8). -/
theorem le16_toNat (b0 b1 : Byte) : (le16 b0 b1).toNat = b0.toNat + 2 ^ 8 * b1.toNat := by
  have h0 := b0.isLt
  have h1 := b1.isLt
  have hhigh : (b1.zeroExtend 16 <<< 8 : Sample).toNat = 2 ^ 8 * b1.toNat := by
    simp only [BitVec.toNat_shiftLeft, BitVec.toNat_setWidth, Nat.shiftLeft_eq]
    omega
  rw [le16, BitVec.toNat_or, hhigh, BitVec.toNat_setWidth, Nat.mod_eq_of_lt (by omega), Nat.or_comm,
    ← Nat.two_pow_add_eq_or_of_lt h0, Nat.add_comm]

/-- Settles O17: a word by its four bytes, a sample word by its two. -/
theorem littleEndian : Obligations.LittleEndian :=
  ⟨fun s offset => word_toNat_eq_bytes (s.readReg offset), fun _ _ => le16_toNat _ _,
    fun v => ⟨_, _, _, _, rfl, word_toNat_eq_bytes v⟩⟩

/-! ## O16: malformed host accesses -/

theorem decodeBus_malformed {a : HostAccess} (h : a.width ≠ 32 ∨ a.offset % 4 ≠ 0) :
    decodeBus a = .error .malformedHostAccess := by
  refine if_neg fun ⟨hwidth, halign, _⟩ => ?_
  obtain h | h := h
  · exact h hwidth
  · exact h halign

theorem aligned_eq_false {offset : BitVec 8} (h : offset.toNat % 4 ≠ 0) : aligned offset = false :=
  decide_eq_false h

/-- Settles O16: the decoder refuses what its check excludes, the two meanings an offset that is not aligned. -/
theorem malformedAccessRefused : Obligations.MalformedAccessRefused := by
  refine ⟨fun s a rest hbad hturns => ?_, fun s offset data hoffset => ?_⟩
  · have hturn : s.nextTurn = .host a := by simp [State.nextTurn, hturns]
    simp only [step, hturn, presentedBy, runPresented, decode, decodeBus_malformed hbad]
  · have halign := aligned_eq_false hoffset
    simp [exec, execHostRead, execHostWrite, halign]

/-! ## O36: input requests -/

theorem State.streamRead_of_stream {s : State} {n : Nat} {b : List Byte} {rest : List (List Byte)}
    (hm : s.mode = .stream) (hs : s.source = b :: rest) (hb : b.length ≤ n) :
    s.streamRead n
      = .done (b, { s with source := rest, events := s.events ++ [.streamRead n b] }) := by
  simp only [State.streamRead, hm, State.streamReadPort, hs, if_pos hb, State.log]

/-- A request of buffer mode where the input range is used up makes no access. -/
theorem State.streamRead_of_used_up {s : State} {n : Nat} (hm : s.mode = .buffer)
    (hk : min n (s.cfg.inLen.toNat - s.inPos.toNat) = 0) :
    s.streamRead n = .done ([], { s with events := s.events ++ [.streamRead n []] }) := by
  simp only [State.streamRead, hm, State.streamReadBuffer, if_pos hk, State.log]

/-- A list that memory holds from an address on is what a read of its length gives. -/
theorem State.readBytes_eq {s : State} {a : Nat} {b : List Byte}
    (h : ∀ i, i < b.length → s.readable (a + i) = true ∧ b[i]? = some (s.byteAt (a + i))) :
    s.readBytes a b.length = .ok b := by
  rw [s.readBytes_answers b.length a fun i hi => (h i hi).1]
  refine congrArg _ (List.ext_getElem (by simp) fun i _ hi => ?_)
  have hbyte := (h i hi).2
  rw [List.getElem?_eq_getElem hi] at hbyte
  simp [Option.some.inj hbyte]

/-- A request of buffer mode reads the next bytes of the input range. -/
theorem State.streamRead_of_mapped {s : State} {n : Nat} {b : List Byte} (hm : s.mode = .buffer)
    (hb : b ≠ []) (hlen : b.length = min n (s.cfg.inLen.toNat - s.inPos.toNat))
    (h : s.readBytes (s.cfg.inAddr.toNat + s.inPos.toNat) b.length = .ok b) :
    s.streamRead n = .done (b, { s with
      inPos := BitVec.ofNat 32 (s.inPos.toNat + b.length), events := s.events ++
        [.streamRead n b, .memRead (s.cfg.inAddr.toNat + s.inPos.toNat) b] }) := by
  have hk : b.length ≠ 0 := fun h0 => hb (List.length_eq_zero_iff.1 h0)
  simp only [State.streamRead, hm, State.streamReadBuffer, ← hlen, if_neg hk, h, State.log,
    List.append_assoc, List.singleton_append]

/-- Settles O36: the three cases of a request. -/
theorem inputRequestAnswered : Obligations.InputRequestAnswered := by
  intro s n
  refine ⟨fun b rest => State.streamRead_of_stream, State.streamRead_of_used_up,
    fun b hm hb hlen hbytes => ⟨_, ?_, State.streamRead_of_mapped hm hb hlen (State.readBytes_eq hbytes)⟩⟩
  have hpos : 0 < b.length := List.length_pos_iff.2 hb
  have hrange := s.cfg.inLen.isLt
  rw [BitVec.toNat_ofNat, Nat.mod_eq_of_lt (by omega)]

/-! ## O46: output in stream mode -/

theorem State.outWrite_of_stream {s : State} {b : List Byte} {k : Nat} {rest : List Nat}
    (hm : s.mode = .stream) (hs : s.sink = k :: rest) (hk : k ≤ b.length) :
    s.outWrite b = .done { s with sink := rest, events := s.events ++ [.outWrite b k] } := by
  simp only [State.outWrite, hm, State.outWritePort, hs, if_pos hk, State.log]

/-- Settles O46, by induction on the writes and their counts. -/
theorem streamOutputForwarded : Obligations.StreamOutputForwarded := by
  intro ws ks rest s hm hs hle
  induction hle generalizing s with
  | nil =>
    obtain rfl : s.sink = rest := hs
    simp [State.outWrites]
  | @cons b k ws ks hk _ ih =>
    rw [State.outWrites, State.outWrite_of_stream hm hs hk]
    refine (ih { s with sink := ks ++ rest, events := s.events ++ [.outWrite b k] } hm rfl).trans ?_
    simp

/-! ## O47: output in buffer mode -/

/-- What a read gives depends on the platform's map and the byte that memory holds. -/
theorem State.readByte_congr {s t : State} {a : Nat} (hmap : t.regions = s.regions)
    (hbyte : t.byteAt a = s.byteAt a) : t.readByte a = s.readByte a := by
  unfold State.readByte State.readable
  rw [hmap, hbyte]

/-- Settles O47: the bytes that fit are stored by `storeBytes`, whose laws give what memory then holds. -/
theorem bufferOutputStored : Obligations.BufferOutputStored := by
  intro s b k base hm hk hbase hwritable
  subst hbase
  have houtWrite : s.outWrite b = s.outWriteBuffer b := by simp only [State.outWrite, hm]
  obtain ⟨t, ht⟩ := State.outWriteBuffer_answers (s := s) (b := b) fun i hi => hwritable i (hk ▸ hi)
  obtain ⟨k', m, ev, hk', hstore, hev, rfl⟩ := State.outWriteBuffer_done ht
  obtain rfl : k' = k := hk'.trans hk.symm
  have hlen : (b.take k').length = k' := by rw [List.length_take]; omega
  refine ⟨_, houtWrite.trans ht, ?_, ?_, ?_, fun i hi => ?_, fun addr haddr => ?_⟩
  · rw [State.outWrites, houtWrite, ht]; rfl
  · by_cases h0 : k' = 0 <;> simp [hev, h0]
  · have hpos := s.outPos.isLt
    have hcap := s.cfg.outCap.isLt
    rw [BitVec.toNat_ofNat, Nat.mod_eq_of_lt (by omega)]
  · have hbyte := storeBytes_byteAt_stored _ _ _ _ _ _ i hstore (by omega)
    refine (congrArg some hbyte).trans ?_
    rw [← List.getElem?_eq_getElem, List.getElem?_take_of_lt hi]
  · have hbyte := storeBytes_byteAt_other _ _ _ _ _ _ addr hstore (hlen.symm ▸ haddr)
    exact ⟨hbyte, State.readByte_congr rfl hbyte⟩

end Sys2Proof.Machine
end

section
/-! The core's own steps on the bus and at the ports. `PortsKept` says once what a step leaves as it was and
where it may store; the mode rules, the ranges of a buffer-mode encode and the accesses that are answered are
derived from it. -/

namespace Sys2Proof.Machine

/-! ## What a step does on the bus -/

/-- The event is an access to bus memory (20_memory.md R52). -/
def Event.isBusAccess : Event → Bool
  | .memRead .. | .memWrite .. => true
  | .streamRead .. | .outWrite .. | .engineBegin .. | .engineAddBlock .. | .engineEnd | .raised .. => false

theorem Event.isBusAccess_eq_false {e : Event} (h : e.isBusAccess = false) :
    (∀ a b, e ≠ .memRead a b) ∧ ∀ a b, e ≠ .memWrite a b := by
  constructor <;> rintro a b rfl <;> cases h

/-- The part of the state that the bus rules speak of. -/
def State.busView (s : State) :
    CfgRegs × Mode × List MemRegion × List Renewal × Word × Word × Memory × List Event :=
  (s.cfg, s.mode, s.regions, s.renewed, s.inPos, s.outPos, s.mem, s.events)

/-- From `s` to `t` the core has kept to the rules of the bus: the latched configuration and the platform's
map stay, the positions stay within their ranges, stream mode makes no bus access (20_memory.md R52), and only
the output range and the OUT_SIZE word are stored to (R51). -/
structure PortsKept (s t : State) : Prop where
  cfg_eq : t.cfg = s.cfg
  mode_eq : t.mode = s.mode
  regions_eq : t.regions = s.regions
  inPos_le : s.inPos.toNat ≤ s.cfg.inLen.toNat → t.inPos.toNat ≤ s.cfg.inLen.toNat
  outPos_le : s.outPos.toNat ≤ s.cfg.outCap.toNat → t.outPos.toNat ≤ s.cfg.outCap.toNat
  stream_mem : s.mode = .stream → t.mem = s.mem
  stream_events : s.mode = .stream →
    ∃ added, t.events = s.events ++ added ∧ ∀ e ∈ added, e.isBusAccess = false
  byteAt_outside : ∀ a, s.cfg.inOutput a = false → s.cfg.inOutSize a = false → t.byteAt a = s.byteAt a

theorem State.busView_eq_iff {s t : State} : t.busView = s.busView ↔
    t.cfg = s.cfg ∧ t.mode = s.mode ∧ t.regions = s.regions ∧ t.renewed = s.renewed ∧ t.inPos = s.inPos
      ∧ t.outPos = s.outPos ∧ t.mem = s.mem ∧ t.events = s.events := by
  simp only [State.busView, Prod.mk.injEq]

/-- A change to the rest of the state, after recording events that are no bus access. -/
theorem PortsKept.of_busView {s t : State} {added : List Event}
    (h : t.busView = State.busView { s with events := s.events ++ added })
    (hadded : ∀ e ∈ added, e.isBusAccess = false) : PortsKept s t := by
  obtain ⟨hcfg, hmode, hregions, hrenewed, hin, hout, hmem, hevents⟩ := State.busView_eq_iff.1 h
  refine ⟨hcfg, hmode, hregions, fun hi => hin ▸ hi, fun ho => hout ▸ ho, fun _ => hmem,
    fun _ => ⟨added, hevents, hadded⟩, fun a _ _ => ?_⟩
  have hunlisted : t.unlistedByte = s.unlistedByte := by
    funext b
    simp only [State.unlistedByte, hrenewed]
  rw [State.byteAt, hunlisted, hmem, State.byteAt]

/-- A change to the rest of the state. -/
theorem PortsKept.of_unseen {s t : State} (h : t.busView = s.busView) : PortsKept s t :=
  .of_busView (added := []) (by simpa [State.busView] using h) nofun

theorem PortsKept.trans {s u t : State} (h1 : PortsKept s u) (h2 : PortsKept u t) : PortsKept s t := by
  have hcfg := h1.cfg_eq
  have hmode := h1.mode_eq
  refine ⟨h2.cfg_eq.trans hcfg, h2.mode_eq.trans hmode, h2.regions_eq.trans h1.regions_eq,
    fun hi => hcfg ▸ h2.inPos_le (hcfg ▸ h1.inPos_le hi),
    fun ho => hcfg ▸ h2.outPos_le (hcfg ▸ h1.outPos_le ho),
    fun hm => (h2.stream_mem (hmode.trans hm)).trans (h1.stream_mem hm), fun hm => ?_,
    fun a ho hw => (h2.byteAt_outside a (hcfg ▸ ho) (hcfg ▸ hw)).trans (h1.byteAt_outside a ho hw)⟩
  obtain ⟨ev1, he1, hev1⟩ := h1.stream_events hm
  obtain ⟨ev2, he2, hev2⟩ := h2.stream_events (hmode.trans hm)
  refine ⟨ev1 ++ ev2, by rw [he2, he1, List.append_assoc], fun e he => ?_⟩
  exact (List.mem_append.1 he).elim (hev1 e) (hev2 e)

theorem PortsKept.log {s t : State} (h : PortsKept s t) {e : Event} (he : e.isBusAccess = false) :
    PortsKept s (t.log e) :=
  h.trans (.of_busView rfl (List.forall_mem_singleton.2 he))

theorem PortsKept.raiseErr {s t : State} (h : PortsKept s t) (code : ErrCode) :
    PortsKept s (t.raiseErr code) :=
  h.trans (.of_busView (added := [.raised code]) rfl (List.forall_mem_singleton.2 rfl))

/-! ## The ports -/

/-- A request leaves bus memory as it is and moves the input position within its range. -/
theorem State.streamRead_portsKept {n : Nat} {s t : State} {b : List Byte}
    (h : s.streamRead n = .done (b, t)) : PortsKept s t := by
  have hframe := State.streamRead_done h
  unfold State.streamRead at h
  split at h
  · obtain ⟨rest, _, _, rfl⟩ := State.streamReadPort_done h
    exact .of_busView (added := [.streamRead n b]) rfl (List.forall_mem_singleton.2 rfl)
  · rename_i hm
    obtain ⟨src, pos, ev, rfl, _, hpos⟩ := hframe
    refine ⟨rfl, rfl, rfl, fun hi => ?_, id, fun _ => rfl, fun hs => ?_, fun _ _ _ => rfl⟩
    · obtain rfl | ⟨_, hle⟩ := hpos
      · exact hi
      · exact hle
    · simp [hm] at hs

/-- A store in buffer mode to a part of the output range or to the OUT_SIZE word. -/
theorem PortsKept.of_store {s t : State} {base : Nat} {bytes : List Byte} {m : Memory} {pos : Word}
    {ev : List Event} (hm : s.mode = .buffer)
    (hstore : storeBytes s.writable s.unlistedByte base s.mem bytes = .ok m)
    (hbase : ∀ a, s.cfg.inOutput a = false → s.cfg.inOutSize a = false →
      a < base ∨ base + bytes.length ≤ a)
    (hpos : s.outPos.toNat ≤ s.cfg.outCap.toNat → pos.toNat ≤ s.cfg.outCap.toNat)
    (ht : t.busView = State.busView { s with mem := m, outPos := pos, events := ev }) : PortsKept s t := by
  have hu : PortsKept s { s with mem := m, outPos := pos, events := ev } :=
    ⟨rfl, rfl, rfl, id, hpos, fun hs => absurd (hm.symm.trans hs) nofun,
      fun hs => absurd (hm.symm.trans hs) nofun,
      fun a ho hw => storeBytes_byteAt_other _ _ _ _ _ _ a hstore (hbase a ho hw)⟩
  exact hu.trans (.of_unseen ht)

/-- An output write of buffer mode stores within the output range and stays within its capacity. -/
theorem State.outWriteBuffer_portsKept {b : List Byte} {s t : State} (hm : s.mode = .buffer)
    (h : s.outWriteBuffer b = .done t) : PortsKept s t := by
  obtain ⟨k, m, ev, hk, hstore, _, rfl⟩ := State.outWriteBuffer_done h
  refine .of_store hm hstore (fun a ho _ => ?_) (fun hpos => ?_) rfl
  · have hout := of_decide_eq_false ho
    rw [List.length_take]
    omega
  · have hcap := s.cfg.outCap.isLt
    rw [BitVec.toNat_ofNat, Nat.mod_eq_of_lt (by omega)]
    omega

theorem State.outWrite_portsKept {b : List Byte} {s t : State} (h : s.outWrite b = .done t) :
    PortsKept s t := by
  unfold State.outWrite at h
  split at h
  · obtain ⟨k, rest, _, _, rfl⟩ := State.outWritePort_done h
    exact .of_busView (added := [.outWrite b k]) rfl (List.forall_mem_singleton.2 rfl)
  · exact State.outWriteBuffer_portsKept ‹_› h

theorem State.outWrites_portsKept (ws : List (List Byte)) {s t : State}
    (h : State.outWrites ws s = .done t) : PortsKept s t := by
  induction ws generalizing s with
  | nil => cases h; exact .of_unseen rfl
  | cons b bs ih =>
    obtain ⟨u, h1, h2⟩ := Io.bind_eq_done.1 h
    exact (State.outWrite_portsKept h1).trans (ih h2)

/-- An engine call, its own event being no bus access. -/
theorem State.engineCall_portsKept {event : Bool → Event} {s t : State} {ok : Bool}
    (hevent : (event ok).isBusAccess = false) (h : s.engineCall event = .done (ok, t)) :
    PortsKept s t := by
  obtain ⟨a, rest, _, rfl, hw⟩ := State.engineCall_done h
  refine PortsKept.trans ?_ (State.outWrites_portsKept _ hw)
  exact .of_busView (added := [event a.ok]) rfl (List.forall_mem_singleton.2 hevent)

/-- The OUT_SIZE word is the only memory that the end of a buffer-mode encode stores to. -/
theorem State.bufferResult_portsKept {s t : State} (hm : s.mode = .buffer)
    (h : s.bufferResult = .done t) : PortsKept s t := by
  obtain ⟨_, rfl⟩ | ⟨_, m, hstore, rfl⟩ := State.bufferResult_done h
  · exact (PortsKept.of_unseen rfl).raiseErr _
  · refine .of_store hm hstore (fun a _ hw => ?_) id rfl
    have hout := of_decide_eq_false hw
    have hlen : (leBytes s.outPos).length = 4 := rfl
    omega

/-! ## The steps -/

theorem State.blockSent_busView (s : State) : s.blockSent.busView = s.busView := by
  unfold State.blockSent
  split <;> rfl

theorem execStepPreflight_portsKept {s t : State} (h : execStepPreflight s = .next t) : PortsKept s t := by
  obtain ⟨e, _, rfl⟩ | ⟨e, _, _, rfl⟩ | ⟨_, _, _, rfl⟩ := execStepPreflight_next h
  · exact (PortsKept.of_unseen rfl).raiseErr e
  · exact PortsKept.raiseErr (s := s) (t := s.writeEst) (.of_unseen rfl) e
  · exact .of_unseen rfl

theorem execStepSkip_portsKept {s t : State} (h : execStepSkip s = .next t) : PortsKept s t := by
  obtain ⟨_, rfl⟩ | ⟨_, rfl | ⟨b, u, hread, ht⟩⟩ := execStepSkip_next h
  · exact .of_unseen rfl
  · exact .of_unseen rfl
  · have hu := State.streamRead_portsKept hread
    obtain ⟨_, rfl⟩ | ⟨_, rfl⟩ := ht
    · exact hu.raiseErr _
    · exact hu.trans (.of_unseen rfl)

theorem execStepBegin_portsKept {s t : State} (h : execStepBegin s = .next t) : PortsKept s t := by
  obtain rfl | ⟨ok, u, hcall, ht⟩ := execStepBegin_next h
  · exact .of_unseen rfl
  · have hu := State.engineCall_portsKept rfl hcall
    obtain ⟨_, rfl⟩ | ⟨_, rfl⟩ := ht
    · exact hu.trans (.of_unseen rfl)
    · exact hu.raiseErr _

theorem execStepAwait_portsKept {s t : State} (h : execStepAwait s = .next t) : PortsKept s t := by
  unfold execStepAwait at h
  split at h <;> cases h <;> exact .of_unseen rfl

theorem execStepRead_portsKept {s t : State} (h : execStepRead s = .next t) : PortsKept s t := by
  obtain ⟨_, rfl⟩ | rfl | ⟨r, b, u, _, hread, rfl⟩ := execStepRead_next h
  · exact .of_unseen rfl
  · exact .of_unseen rfl
  · exact (State.streamRead_portsKept hread).trans (.of_unseen rfl)

theorem execStepEmit_portsKept {s t : State} (h : execStepEmit s = .next t) : PortsKept s t := by
  obtain rfl | ⟨ok, u, hcall, rfl⟩ := execStepEmit_next h
  · exact .of_unseen rfl
  · exact (State.engineCall_portsKept rfl hcall).trans (.of_unseen u.blockSent_busView)

theorem execStepFinish_portsKept {s t : State} (h : execStepFinish s = .next t) : PortsKept s t := by
  obtain rfl | ⟨ok, u, hcall, ht⟩ := execStepFinish_next h
  · exact .of_unseen rfl
  · have hu := State.engineCall_portsKept rfl hcall
    obtain ⟨_, rfl⟩ | ⟨hm, hresult⟩ := ht
    · exact hu.trans (.of_unseen rfl)
    · exact hu.trans (State.bufferResult_portsKept hm hresult)

/-- Every step of the core keeps to the rules of the bus. -/
theorem exec_instr_portsKept {s t : State} (h : exec s.fsm.instr s = .next t) : PortsKept s t := by
  cases hf : s.fsm <;> rw [hf] at h
  case idle | done | error | unpacking | demosaic => cases h; exact .of_unseen rfl
  case preflight => exact execStepPreflight_portsKept h
  case skip => exact execStepSkip_portsKept h
  case begin => exact execStepBegin_portsKept h
  case await => exact execStepAwait_portsKept h
  case reading => exact execStepRead_portsKept h
  case emitting => exact execStepEmit_portsKept h
  case finish => exact execStepFinish_portsKept h

/-- The core moves where it is listed next or nothing is (notes/assumptions/5.md). -/
theorem State.nextTurn_eq_core {s : State} (h : s.turns = [] ∨ ∃ rest, s.turns = .core :: rest) :
    s.nextTurn = .core := by
  obtain h | ⟨rest, h⟩ := h <;> simp [State.nextTurn, h]

/-- A turn of the core keeps to the rules of the bus. -/
theorem step_core_portsKept {s t : State} (hturn : s.nextTurn = .core) (h : step s = .next t) :
    PortsKept s t := by
  rw [step_core hturn] at h
  exact PortsKept.trans (u := s.popTurn) (.of_unseen rfl) (exec_instr_portsKept h)

/-! ## O50 and O51: the accesses of each mode -/

/-- Settles O50: what `PortsKept` says of stream mode. -/
theorem streamModeNoBusAccess : Obligations.StreamModeNoBusAccess := by
  intro s t hm hturns hstep
  have hkept := step_core_portsKept (State.nextTurn_eq_core hturns) hstep
  obtain ⟨added, hevents, hadded⟩ := hkept.stream_events hm
  exact ⟨hkept.stream_mem hm, added, hevents, fun e he => Event.isBusAccess_eq_false (hadded e he)⟩

/-- Settles O51: what `PortsKept` says of the addresses outside both ranges, the platform's map staying. -/
theorem bufferModeStoresInRange : Obligations.BufferModeStoresInRange := by
  intro s t _ _ hturns hstep a hout hsize
  have hkept := step_core_portsKept (State.nextTurn_eq_core hturns) hstep
  have hbyte := hkept.byteAt_outside a hout hsize
  exact ⟨hbyte, State.readByte_congr hkept.regions_eq hbyte⟩

/-! ## O55: the ranges of a buffer-mode encode

While the ranges of the encode answer, no port operation meets an address that does not. -/

/-- The interaction meets no address that does not answer. -/
def Io.BusAnswers {α : Type} (x : Io α) : Prop := ∀ a, x ≠ .fault (.busNoAnswer a)

theorem Io.BusAnswers.done {α : Type} (x : α) : (Io.done x).BusAnswers := nofun

theorem Io.BusAnswers.bind {α β : Type} {x : Io α} {k : α → Io β} (hx : x.BusAnswers)
    (hk : ∀ v, x = .done v → (k v).BusAnswers) : (x.bind k).BusAnswers := by
  cases x with
  | done v => exact hk v rfl
  | wait => exact nofun
  | fault f => exact fun a ha => hx a (congrArg _ (Io.fault.inj ha))

theorem Io.BusAnswers.outcome {x : Io State} (hx : x.BusAnswers) (s : State) (a : Nat) :
    x.outcome s ≠ .fault (.busNoAnswer a) := by
  cases x with
  | done v => exact nofun
  | wait => exact nofun
  | fault f => exact fun ha => hx a (congrArg _ (Host.Outcome.fault.inj ha))

/-- Each address of the buffer-mode ranges answers the access the core makes to it (20_memory.md R51, R68). -/
def rangesAccessible (s : State) : Prop :=
  s.mode = .buffer → (∀ a, s.cfg.inInput a = true → s.readable a = true)
    ∧ ∀ a, s.cfg.inOutput a = true ∨ s.cfg.inOutSize a = true → s.writable a = true

/-- Ranges that are mapped and end within the 2^32 bytes answer at each address. -/
theorem rangesAccessible_of_mapped {s : State}
    (h : s.mode = .buffer → s.cfg.rangesOk = true ∧ s.rangesMapped = true) : rangesAccessible s := by
  intro hm
  obtain ⟨hok, hmapped⟩ := h hm
  obtain ⟨hinEnd, houtEnd, hsizeEnd⟩ := of_decide_eq_true hok
  simp only [State.rangesMapped, Bool.and_eq_true] at hmapped
  obtain ⟨⟨hin, hout⟩, hsize⟩ := hmapped
  refine ⟨fun a ha => answersAt_of_rangeAnswers hin hinEnd (of_decide_eq_true ha), fun a ha => ?_⟩
  obtain ha | ha := ha
  · exact answersAt_of_rangeAnswers hout houtEnd (of_decide_eq_true ha)
  · exact answersAt_of_rangeAnswers hsize hsizeEnd (of_decide_eq_true ha)

theorem PortsKept.keeps_accessible {s t : State} (h : PortsKept s t) (hs : rangesAccessible s) :
    rangesAccessible t := by
  intro hm
  obtain ⟨hr, hw⟩ := hs (h.mode_eq ▸ hm)
  simp only [State.readable, State.writable, h.cfg_eq, h.regions_eq] at hr hw ⊢
  exact ⟨hr, hw⟩

theorem State.memWrite_busAnswers {a : Nat} {bytes : List Byte} {s : State}
    (h : ∀ i, i < bytes.length → s.writable (a + i) = true) : (s.memWrite a bytes).BusAnswers := by
  obtain ⟨m, _, hm⟩ := State.memWrite_answers h
  rw [hm]
  exact .done _

theorem State.streamRead_busAnswers {s : State} (h : rangesAccessible s) (n : Nat) :
    (s.streamRead n).BusAnswers := by
  unfold State.streamRead
  split
  · unfold State.streamReadPort
    split
    · exact nofun
    · split <;> exact nofun
  · obtain ⟨hread, _⟩ := h ‹_›
    simp only [State.streamReadBuffer]
    split
    · exact nofun
    · rw [State.readBytes_answers s _ _ fun i hi => hread _ (decide_eq_true (by omega))]
      exact nofun

theorem State.outWrite_busAnswers {s : State} (h : rangesAccessible s) (b : List Byte) :
    (s.outWrite b).BusAnswers := by
  unfold State.outWrite
  split
  · unfold State.outWritePort
    split
    · exact nofun
    · split <;> exact nofun
  · obtain ⟨_, hwrite⟩ := h ‹_›
    obtain ⟨t, ht⟩ := State.outWriteBuffer_answers (b := b) (s := s) fun i hi =>
      hwrite _ (.inl (decide_eq_true (by omega)))
    rw [ht]
    exact .done _

theorem State.outWrites_busAnswers (ws : List (List Byte)) {s : State} (h : rangesAccessible s) :
    (State.outWrites ws s).BusAnswers := by
  induction ws generalizing s with
  | nil => exact .done _
  | cons b bs ih =>
    exact (State.outWrite_busAnswers h b).bind fun u hu =>
      ih ((State.outWrite_portsKept hu).keeps_accessible h)

theorem State.engineCall_busAnswers {s : State} (h : rangesAccessible s) (event : Bool → Event) :
    (s.engineCall event).BusAnswers := by
  unfold State.engineCall
  split
  · exact nofun
  · refine Io.BusAnswers.bind (State.outWrites_busAnswers _ ?_) fun _ _ => .done _
    exact h

theorem State.bufferResult_busAnswers {s : State} (h : rangesAccessible s) (hm : s.mode = .buffer) :
    s.bufferResult.BusAnswers := by
  obtain ⟨_, hwrite⟩ := h hm
  obtain ⟨t, ht⟩ := State.bufferResult_answers (s := s) fun i hi =>
    hwrite _ (.inr (decide_eq_true (by omega)))
  rw [ht]
  exact .done _

theorem execStepPreflight_busAnswers (s : State) (a : Nat) :
    execStepPreflight s ≠ .fault (.busNoAnswer a) := by
  unfold execStepPreflight
  split
  · nofun
  · split
    · nofun
    · split_ifs <;> nofun

theorem execStepSkip_busAnswers {s : State} (h : rangesAccessible s) (a : Nat) :
    execStepSkip s ≠ .fault (.busNoAnswer a) := by
  unfold execStepSkip
  split
  · nofun
  · refine Io.BusAnswers.outcome ((State.streamRead_busAnswers h _).bind fun v _ => ?_) s a
    split <;> exact .done _

theorem execStepBegin_busAnswers {s : State} (h : rangesAccessible s) (a : Nat) :
    execStepBegin s ≠ .fault (.busNoAnswer a) := by
  unfold execStepBegin
  split
  · nofun
  · refine Io.BusAnswers.outcome ((State.engineCall_busAnswers h _).bind fun v _ => ?_) s a
    split <;> exact .done _

theorem execStepAwait_busAnswers (s : State) (a : Nat) : execStepAwait s ≠ .fault (.busNoAnswer a) := by
  unfold execStepAwait
  split <;> nofun

theorem execStepRead_busAnswers {s : State} (h : rangesAccessible s) (a : Nat) :
    execStepRead s ≠ .fault (.busNoAnswer a) := by
  unfold execStepRead
  split
  · nofun
  · exact Io.BusAnswers.outcome ((State.streamRead_busAnswers h _).bind fun _ _ => .done _) s a

theorem execStepEmit_busAnswers {s : State} (h : rangesAccessible s) (a : Nat) :
    execStepEmit s ≠ .fault (.busNoAnswer a) :=
  Io.BusAnswers.outcome ((State.engineCall_busAnswers h _).bind fun _ _ => .done _) s a

theorem execStepFinish_busAnswers {s : State} (h : rangesAccessible s) (a : Nat) :
    execStepFinish s ≠ .fault (.busNoAnswer a) := by
  refine Io.BusAnswers.outcome ((State.engineCall_busAnswers h _).bind fun v hv => ?_) s a
  split
  · exact .done _
  · exact State.bufferResult_busAnswers ((State.engineCall_portsKept rfl hv).keeps_accessible h) ‹_›

/-- No step of the core meets an address that does not answer: in PREFLIGHT it makes no access, in a later
state its ranges answer. -/
theorem exec_instr_busAnswers {s : State} (h : s.fsm ≠ .preflight → s.busy = true → rangesAccessible s)
    (a : Nat) : exec s.fsm.instr s ≠ .fault (.busNoAnswer a) := by
  have hacc : ∀ f, s.fsm = f → f ≠ .preflight → f.busy = true → rangesAccessible s :=
    fun f hf hp hb => h (hf ▸ hp) (by rw [State.busy, hf, hb])
  cases hf : s.fsm with
  | idle | done | error | unpacking | demosaic => nofun
  | preflight => exact execStepPreflight_busAnswers s a
  | skip => exact execStepSkip_busAnswers (hacc _ hf nofun rfl) a
  | begin => exact execStepBegin_busAnswers (hacc _ hf nofun rfl) a
  | await => exact execStepAwait_busAnswers s a
  | reading => exact execStepRead_busAnswers (hacc _ hf nofun rfl) a
  | emitting => exact execStepEmit_busAnswers (hacc _ hf nofun rfl) a
  | finish => exact execStepFinish_busAnswers (hacc _ hf nofun rfl) a

theorem rangesAnswer.accessible {s : State} (h : rangesAnswer s) (hp : s.fsm ≠ .preflight)
    (hb : s.busy = true) : rangesAccessible s := by
  refine rangesAccessible_of_mapped fun hm => ?_
  obtain ⟨hok, _, hmapped⟩ := h hb hm hp
  exact ⟨hok, hmapped⟩

theorem bufferInvariants_of_not_busy {t : State} (h : t.busy = false) :
    bufferPositionsInRange t ∧ rangesAnswer t := by
  constructor <;> intro hb <;> simp [h] at hb

/-- The core keeps the positions in range. -/
theorem exec_instr_keeps_positions {s t : State} (hpos : bufferPositionsInRange s)
    (h : exec s.fsm.instr s = .next t) : bufferPositionsInRange t := by
  have hkept := exec_instr_portsKept h
  intro hb hm
  obtain ⟨hin, hout⟩ := hpos ((exec_instr_move h).busy_of_busy hb) (hkept.mode_eq ▸ hm)
  rw [hkept.cfg_eq]
  exact ⟨hkept.inPos_le hin, hkept.outPos_le hout⟩

/-- A pre-flight that passes in buffer mode leaves ranges that keep duty H2 (70_reset_and_hazards.md R253). -/
theorem execStepPreflight_rangesAnswer {s t : State} (h : execStepPreflight s = .next t) :
    rangesAnswer t := by
  obtain ⟨e, _, rfl⟩ | ⟨e, _, _, rfl⟩ | ⟨hc, _, hduty, rfl⟩ := execStepPreflight_next h
  · exact (bufferInvariants_of_not_busy rfl).2
  · exact (bufferInvariants_of_not_busy rfl).2
  · obtain ⟨_, _, _, _, hok⟩ := configError_none hc
    exact fun _ hm _ => ⟨hok hm, hduty hm⟩

/-- The core keeps the ranges answering: pre-flight has checked them, and no step changes them. -/
theorem exec_instr_keeps_ranges {s t : State} (hranges : rangesAnswer s)
    (h : exec s.fsm.instr s = .next t) : rangesAnswer t := by
  by_cases hf : s.fsm = .preflight
  · rw [hf] at h
    exact execStepPreflight_rangesAnswer h
  · have hkept := exec_instr_portsKept h
    intro hb hm _
    have hs := hranges ((exec_instr_move h).busy_of_busy hb) (hkept.mode_eq ▸ hm) hf
    simpa only [State.rangesMapped, hkept.cfg_eq, hkept.regions_eq] using hs

theorem HostMove.keeps_buffer {s t : State} (hs : bufferPositionsInRange s ∧ rangesAnswer s)
    (h : HostMove s t) : bufferPositionsInRange t ∧ rangesAnswer t := by
  cases h with
  | read | written | ignored | rejected => exact hs
  | encodeAccepted => exact ⟨fun _ _ => ⟨Nat.zero_le _, Nat.zero_le _⟩, fun _ _ hf => absurd rfl hf⟩
  | estimateAccepted => exact bufferInvariants_of_not_busy rfl

/-- A turn of another agent, or of a unit run alone, keeps the ranges of a running encode. -/
theorem TurnMove.keeps_buffer {s t : State} {m : Turn} (hs : bufferPositionsInRange s ∧ rangesAnswer s)
    (hm : m ≠ .core) (h : TurnMove s m t) : bufferPositionsInRange t ∧ rangesAnswer t := by
  cases h with
  | core => exact absurd rfl hm
  | host h | command h => exact h.keeps_buffer hs
  | datapath | pixel | busRead | busWrite => exact hs
  | reservedCode =>
    obtain h | ⟨_, ⟨e, _, h⟩ | h⟩ := reservedCode_cases s <;> rw [h]
    · exact hs
    all_goals exact bufferInvariants_of_not_busy rfl
  | reset => exact bufferInvariants_of_not_busy rfl

/-- Settles O55: the core keeps its positions and ranges by the rules of the bus, and with the ranges that
pre-flight has checked each of its accesses is answered. -/
theorem stepKeepsBufferPositions : Obligations.StepKeepsBufferPositions := by
  intro s hpos hranges
  refine ⟨fun t hstep => ?_, fun _ hturns a => ?_⟩
  · by_cases hturn : s.nextTurn = .core
    · rw [step_core hturn] at hstep
      exact ⟨exec_instr_keeps_positions (s := s.popTurn) hpos hstep,
        exec_instr_keeps_ranges (s := s.popTurn) hranges hstep⟩
    · exact TurnMove.keeps_buffer (s := s.popTurn) ⟨hpos, hranges⟩ hturn (step_move hstep)
  · rw [step_core (State.nextTurn_eq_core hturns)]
    exact exec_instr_busAnswers (s := s.popTurn) (rangesAnswer.accessible hranges) a

end Sys2Proof.Machine
end

section
/-! The fields of the words that the decoder reads, what each decoder gives for them, and the agreement of the
decoder and the encoder (30_encoding.md R70-R80). -/

namespace Sys2Proof

/-! ## Fields of a word -/

/-- A field of a word, by the number that stands in its bits. -/
theorem extractLsb'_eq_ofNat {v : Word} {start len k : Nat} (h : v.toNat / 2 ^ start % 2 ^ len = k) :
    v.extractLsb' start len = BitVec.ofNat len k := by
  apply BitVec.eq_of_toNat_eq
  simp [Nat.shiftRight_eq_div_pow, ← h]

/-- A flag of a word, by the number that stands in its bit. -/
theorem getLsbD_eq_decide {v : Word} {i k : Nat} (h : v.toNat / 2 ^ i % 2 = k) :
    v.getLsbD i = decide (k = 1) :=
  h ▸ Nat.testBit_eq_decide_div_mod_eq

/-- CTRL[3:0] (30_encoding.md R70). -/
theorem cmdField_eq {data : Word} {k : Nat} (h : data.toNat % 16 = k) : cmdField data = BitVec.ofNat 4 k :=
  extractLsb'_eq_ofNat (by simpa using h)

/-- FORMAT[2:0] (R72). -/
theorem pixfmtField_eq {format : Word} {k : Nat} (h : format.toNat % 8 = k) :
    pixfmtField format = BitVec.ofNat 3 k :=
  extractLsb'_eq_ofNat (by simpa using h)

/-- FORMAT[9:8] (R74). -/
theorem subsampField_eq {format : Word} {k : Nat} (h : format.toNat / 2 ^ 8 % 4 = k) :
    subsampField format = BitVec.ofNat 2 k :=
  extractLsb'_eq_ofNat h

/-- FORMAT[16] (R75). -/
theorem fastField_eq {format : Word} {k : Nat} (h : format.toNat / 2 ^ 16 % 2 = k) :
    fastField format = decide (k = 1) :=
  getLsbD_eq_decide h

/-- FORMAT[18] (R75). -/
theorem blEnField_eq {format : Word} {k : Nat} (h : format.toNat / 2 ^ 18 % 2 = k) :
    blEnField format = decide (k = 1) :=
  getLsbD_eq_decide h

/-! The encoder writes the field that the decoder reads. -/

theorem cmdField_zeroExtend (code : BitVec 4) : cmdField (code.zeroExtend 32) = code := by
  rw [cmdField_eq rfl]
  apply BitVec.eq_of_toNat_eq
  simpa using code.isLt

theorem pixfmtField_formatOfPixfmt (code : BitVec 3) : pixfmtField (formatOfPixfmt code) = code := by
  rw [pixfmtField_eq rfl, formatOfPixfmt]
  apply BitVec.eq_of_toNat_eq
  simpa using code.isLt

/-! ## The reserved codes -/

/-- CMD 4..15 (R70). -/
theorem decodeCmd_reserved {data : Word} {code : BitVec 4} (hfield : cmdField data = code)
    (h : 4 ≤ code.toNat) : decodeCmd data = .cmdReserved code := by
  subst hfield
  unfold decodeCmd
  split
  case h_5 => rfl
  all_goals simp_all

/-- PIXFMT 6, 7 (R72). -/
theorem decodeUnpack_reserved {format : Word} {code : BitVec 3} (hfield : pixfmtField format = code)
    (h : 6 ≤ code.toNat) (b : List Byte) : decodeUnpack format b = .pixfmtReserved code := by
  subst hfield
  unfold decodeUnpack
  split
  case h_7 => rfl
  all_goals simp_all

/-! ## What decodes is well formed -/

theorem decodeCmd_wellFormed (data : Word) : (decodeCmd data).wellFormed = true := by
  unfold decodeCmd
  split
  case h_5 =>
    simp only [imp_false, Instr.wellFormed, decide_eq_true_eq] at *
    bv_omega
  all_goals rfl

theorem decodeBus_wellFormed {a : HostAccess} {i : Instr} (h : decodeBus a = .ok i) : i.wellFormed = true := by
  unfold decodeBus at h
  split at h
  · rename_i ha
    obtain ⟨_, halign, hlt⟩ := ha
    have : (BitVec.ofNat 8 a.offset).toNat % 4 = 0 := by
      rw [BitVec.toNat_ofNat, Nat.mod_eq_of_lt hlt, halign]
    split at h <;> cases h <;> exact decide_eq_true this
  · cases h

theorem decodeUnpack_wellFormed (format : Word) (b : List Byte) :
    (decodeUnpack format b).wellFormed = true := by
  unfold decodeUnpack
  split
  case h_7 =>
    simp only [imp_false, Instr.wellFormed, decide_eq_true_eq] at *
    bv_omega
  all_goals rfl

theorem decodeBlackLevel_wellFormed (format : Word) (bl : BitVec 16) (twoLane : Bool) (u : List Sample) :
    (decodeBlackLevel format bl twoLane u).wellFormed = true := by
  unfold decodeBlackLevel
  split_ifs <;> rfl

theorem decodeRow_wellFormed (format : Word) (y : Nat) : (decodeRow format y).wellFormed = true := by
  unfold decodeRow
  split
  case h_3 =>
    split
    · exact decide_eq_true ‹_›
    · exact decide_eq_true (Nat.mod_two_ne_zero.1 ‹_›)
  all_goals rfl

theorem decodeFmt_wellFormed {format : Word} {bl : BitVec 16} {u : DpUnit} {i : Instr}
    (h : decodeFmt format bl u = .ok i) : i.wellFormed = true := by
  cases u with
  | unpacker b => cases h; exact decodeUnpack_wellFormed format b
  | blackLevel twoLane u => cases h; exact decodeBlackLevel_wellFormed format bl twoLane u
  | rowConverter y => cases h; exact decodeRow_wellFormed format y
  | cfaTable x y | toneTable l => cases h; rfl
  | whiteBalance p | pixelCsc p | pairCsc p0 p1 | reference x y =>
    simp only [decodeFmt] at h
    split at h <;> cases h
    rfl

theorem decodeClass_wellFormed {code : BitVec 3} {x y : Nat} {i : Instr} (h : decodeClass code x y = .ok i) :
    i.wellFormed = true := by
  unfold decodeClass at h
  split at h
  case h_3 => split at h <;> cases h <;> rfl
  case h_4 => cases h
  all_goals cases h; rfl

theorem decodeState_wellFormed {status : Word} {i : Instr} (h : decodeState status = .ok i) :
    i.wellFormed = true := by
  unfold decodeState at h
  split at h <;> cases h <;> rfl

/-- Whatever the decoder accepts is well formed. -/
theorem wellFormed_of_decode {p : Presented} {i : Instr} (h : decode p = .ok i) : i.wellFormed = true := by
  cases p with
  | cmd data => cases h; exact decodeCmd_wellFormed data
  | bus a => exact decodeBus_wellFormed h
  | fmtsel u format bl => exact decodeFmt_wellFormed h
  | cls code x y => exact decodeClass_wellFormed h
  | state status => exact decodeState_wellFormed h

/-! ## Decoding what was encoded -/

/-- An access of an aligned offset is the register access of its kind (R71). -/
theorem decodeBus_aligned {offset : BitVec 8} (h : offset.toNat % 4 = 0) (write : Bool) (data : Word) :
    decodeBus ⟨write, offset.toNat, 32, data⟩
      = .ok (if write then .hostWrite offset data else .hostRead offset) := by
  unfold decodeBus
  rw [if_pos ⟨rfl, h, offset.isLt⟩, BitVec.ofNat_toNat]
  cases write <;> simp

theorem decodeState_wait {code : BitVec 4} (h : code.toNat = 0 ∨ code.toNat = 10 ∨ code.toNat = 11) :
    decodeState (statusOfState code) = .ok (.wait code) := by
  have hcode : code = 0#4 ∨ code = 10#4 ∨ code = 11#4 := by bv_omega
  obtain rfl | rfl | rfl := hcode <;> rfl

theorem decode_encode {i : Instr} (h : i.wellFormed = true) : decode (encode i) = .ok i := by
  cases i with
  | cmdReserved code =>
    exact congrArg _ (decodeCmd_reserved (cmdField_zeroExtend code) (of_decide_eq_true h))
  | hostRead offset => exact decodeBus_aligned (of_decide_eq_true h) false 0#32
  | hostWrite offset data => exact decodeBus_aligned (of_decide_eq_true h) true data
  | pixfmtReserved code =>
    exact congrArg _ (decodeUnpack_reserved (pixfmtField_formatOfPixfmt code) (of_decide_eq_true h) [])
  | csc420Even y => exact congrArg _ (if_pos (of_decide_eq_true h))
  | csc420Odd y => exact congrArg _ (if_neg (Nat.mod_two_ne_zero.2 (of_decide_eq_true h)))
  | wait code => exact decodeState_wait (of_decide_eq_true h)
  | _ => rfl

/-- Settles O1: the round trip by the instruction, the converse by the presented form. -/
theorem decodeOfEncode : Obligations.DecodeOfEncode :=
  ⟨fun _ => decode_encode, fun _ _ => wellFormed_of_decode⟩

/-! ## The operation that FORMAT and BL select -/

/-- Settles O3, unit by unit: the hypothesis of a clause is the value of the field that selects. -/
theorem formatWordSelects : Obligations.FormatWordSelects := by
  intro f bl b u x y p q q' l
  refine ⟨?_, ?_, ?_, ?_, ?_, ?_, ?_, ?_, ?_, rfl, ?_, ?_, ?_, ?_, ?_, ?_, ?_, ?_, ?_, rfl⟩
  -- the unpacker, by PIXFMT
  iterate 6 exact fun h => by simp [decode, decodeFmt, decodeUnpack, pixfmtField_eq h]
  · exact fun h => congrArg _ (decodeUnpack_reserved (pixfmtField_eq rfl) (by simpa using h) b)
  -- the black-level corrector, by BL_EN and BL
  · exact fun h _ => congrArg _ (if_pos (h.imp_left blEnField_eq))
  · exact fun h hbl => by simp [decode, decodeFmt, decodeBlackLevel, blEnField_eq h, hbl]
  -- the units of the FAST and of the REF datapath, by FAST_EN, the pair's by SUBSAMP too
  iterate 2 exact fun h => by simp [decode, decodeFmt, fastField_eq h]
  · rintro h (hsub | hsub) <;> simp [decode, decodeFmt, fastField_eq h, subsampField_eq hsub]
  · rintro - (hsub | hsub) <;> simp [decode, decodeFmt, subsampField_eq hsub]
  -- the row converter, by SUBSAMP and the parity of the row
  iterate 2 exact fun h => by simp [decode, decodeFmt, decodeRow, subsampField_eq h]
  iterate 2 exact fun h hy => by simp [decode, decodeFmt, decodeRow, subsampField_eq h, hy]
  · exact fun h => by simp [decode, decodeFmt, decodeRow, subsampField_eq h]

end Sys2Proof
end

section
/-! What a command word, a turn and a reserved code run (30_encoding.md R70, R80, R81). -/

namespace Sys2Proof.Machine

/-! ## O13, O2: commands and sample words -/

/-- A write to CTRL runs the instruction that its word decodes to. -/
theorem exec_hostWrite_ctrl (data : Word) (s : State) :
    exec (.hostWrite 0x00#8 data) s = exec (decodeCmd data) s :=
  (exec_decodeCmd data s).symm

/-- Settles O13: one instruction for each command code, and CTRL runs the decoded instruction. -/
theorem ctrlWritePresentsCommand : Obligations.CtrlWritePresentsCommand := by
  intro s data
  have presents {i : Instr} (hi : decodeCmd data = i) :
      decode (.cmd data) = .ok i ∧ exec (.hostWrite 0x00#8 data) s = exec i s :=
    ⟨congrArg _ hi, by rw [exec_hostWrite_ctrl, hi]⟩
  refine ⟨?_, ?_, ?_, ?_, fun h => presents (decodeCmd_reserved (cmdField_eq rfl) (by simpa using h))⟩
  all_goals exact fun h => presents (by simp [decodeCmd_eq, cmdField_eq h])

/-- Settles O2, by evaluation of the decoder. -/
theorem sampleWordsDecode : Obligations.SampleWordsDecode :=
  ⟨rfl, rfl, rfl, rfl, rfl, rfl, rfl, rfl⟩

/-! ## O4, O5: what a turn runs -/

/-- A turn that presents words runs them on the state without the turn. -/
theorem step_of_presented {s : State} {p : Presented} (h : presentedBy s.nextTurn s = some p) :
    step s = runPresented p s.popTurn := by
  simp only [step, h]

theorem runPresented_ok {p : Presented} {i : Instr} (h : decode p = .ok i) (s : State) :
    runPresented p s = exec i s := by
  simp only [runPresented, h]

theorem runPresented_error {p : Presented} {r : Reject} (h : decode p = .error r) (s : State) :
    runPresented p s = .refused (.rejected r) := by
  simp only [runPresented, h]

/-- Settles O4: each of the five turns presents its words. -/
theorem stepRunsDecoded : Obligations.StepRunsDecoded := by
  intro s t rest p hturns hpresents
  have hnext : s.nextTurn = t := by simp [State.nextTurn, hturns]
  have hpop : s.popTurn = { s with turns := rest } := by simp [State.popTurn, hturns]
  have hp : presentedBy t s = some p := by
    obtain ⟨rfl, rfl⟩ | ⟨_, rfl, rfl⟩ | ⟨_, rfl, rfl⟩ | ⟨_, rfl, rfl⟩ | ⟨_, _, rfl, rfl⟩ := hpresents <;> rfl
  rw [step_of_presented (hnext ▸ hp), hpop]
  exact ⟨fun i hi => runPresented_ok hi _, fun r hr => runPresented_error hr _⟩

/-- Settles O5: the core's turn runs the instruction of its state. -/
theorem coreStepSelectedByState : Obligations.CoreStepSelectedByState := by
  refine ⟨fun s code _ => rfl, fun s hturns => ?_⟩
  have hstep : step s = exec s.fsm.instr { s with turns := s.turns.tail } :=
    step_core (State.nextTurn_eq_core hturns)
  refine ⟨?_, ?_, ?_, ?_, ?_, ?_, ?_, ?_, ?_, ?_⟩
  iterate 9 exact fun hf => by rw [hstep, hf]; rfl
  · rintro (hf | hf | hf) <;> rw [hstep, hf] <;> rfl

/-! ## O34: the reserved FORMAT codes -/

/-- A reserved code in pre-flight raises the error of the missing argument, error 1 where none is missing. -/
theorem reservedCode_preflight {s : State} (h : s.fsm = .preflight) :
    reservedCode s = s.raiseErr ((bufferArgError s.mode s.cfg).getD .invalidArguments) := by
  unfold reservedCode
  rw [if_pos h]
  cases bufferArgError s.mode s.cfg <;> rfl

theorem bufferArgError_getD (m : Mode) (cfg : CfgRegs) (e : ErrCode) : (bufferArgError m cfg).getD e =
    if m = .buffer ∧ cfg.outSizeAddr = 0#32 then .nullOutSize
    else if m = .buffer ∧ cfg.inAddr = 0#32 then .nullInput
    else if m = .buffer ∧ cfg.outAddr = 0#32 then .nullOutput
    else if m = .buffer ∧ cfg.outCap = 0#32 then .zeroCapacity
    else e := by
  unfold bufferArgError
  cases m with
  | stream => simp
  | buffer => simp only [reduceCtorEq, if_false, true_and]; split_ifs <;> rfl

/-- Settles O34: both instructions act as `reservedCode`. -/
theorem reservedCodesFail : Obligations.ReservedCodesFail := by
  intro s i hi fail
  have hexec : exec i s = .next (reservedCode s) := by obtain rfl | ⟨_, rfl⟩ := hi <;> rfl
  rw [hexec]
  refine ⟨fun hf => congrArg _ (if_neg hf), fun hf => ?_⟩
  have hfail (e : ErrCode) : s.raiseErr e = fail e := by simp [State.raiseErr, State.log, fail, hf]
  rw [reservedCode_preflight hf, bufferArgError_getD, hfail]

end Sys2Proof.Machine
end

section
/-! The pixel unpacker (40_unpack.md): what a raw row gives byte by byte, every sample as a number, and the
contract that the six operations share (R101-R108). -/

namespace Sys2Proof.Machine

/-! ## Bits as numbers -/

/-- Keeping the low `n` bits is the remainder by 2^n. -/
theorem toNat_and_mask {w : Nat} (v : BitVec w) {m : BitVec w} {n : Nat} (hm : m.toNat = 2 ^ n - 1) :
    (v &&& m).toNat = v.toNat % 2 ^ n := by
  rw [BitVec.toNat_and, hm, Nat.and_two_pow_sub_one_eq_mod]

/-- A byte shifted up by `n` with `n` low bits set below it. -/
theorem toNat_shiftLeft_or {hi lo : Byte} {n : Nat} (hn : n ≤ 8) (hlo : lo.toNat < 2 ^ n) :
    (hi.zeroExtend 16 <<< n ||| lo.zeroExtend 16 : Sample).toNat = 2 ^ n * hi.toNat + lo.toNat := by
  have hfit : hi.toNat * 2 ^ n < 2 ^ 16 :=
    calc hi.toNat * 2 ^ n < 2 ^ 8 * 2 ^ n := Nat.mul_lt_mul_of_pos_right hi.isLt (Nat.two_pow_pos n)
      _ ≤ 2 ^ 8 * 2 ^ 8 := Nat.mul_le_mul_left _ (Nat.pow_le_pow_right two_pos hn)
  have hhi : (hi.zeroExtend 16 <<< n : Sample).toNat = 2 ^ n * hi.toNat := by
    rw [BitVec.toNat_shiftLeft, BitVec.toNat_setWidth_of_le (by decide), Nat.shiftLeft_eq,
      Nat.mod_eq_of_lt hfit, Nat.mul_comm]
  rw [BitVec.toNat_or, hhi, BitVec.toNat_setWidth_of_le (by decide), Nat.two_pow_add_eq_or_of_lt hlo]

/-- The `n` bits of a byte above its first `n * k`. -/
theorem toNat_lane (v : Byte) {m : Byte} {n : Nat} (k : Nat) (hm : m.toNat = 2 ^ n - 1) :
    (v >>> (n * k) &&& m).toNat = v.toNat / (2 ^ n) ^ k % 2 ^ n := by
  rw [toNat_and_mask _ hm, BitVec.toNat_ushiftRight, Nat.shiftRight_eq_div_pow, Nat.pow_mul]

/-! ## The bytes of a raw row -/

theorem rowByte_of_lt (stale : Nat) {b : List Byte} {i : Nat} (h : i < b.length) :
    rowByte stale b i = (b[i]?).getD 0 := by
  simp [rowByte, h]

theorem rowByte_append_of_lt (stale : Nat) {b : List Byte} (extra : List Byte) {i : Nat}
    (h : i < b.length) : rowByte stale (b ++ extra) i = rowByte stale b i := by
  rw [rowByte, rowByte, List.getElem?_append_left h, List.getElem?_eq_getElem h]

theorem rowByte_of_zero (stale : Nat) {b : List Byte} (hb : ∀ v ∈ b, v = 0#8) {i : Nat}
    (h : i < b.length) : rowByte stale b i = 0#8 := by
  rw [rowByte, List.getElem?_eq_getElem h]
  exact hb _ (List.getElem_mem h)

/-! ## The samples of a raw row -/

@[simp] theorem unpackWith_length (sample : (Nat → Byte) → Nat → Sample) (stale w : Nat) (b : List Byte) :
    (unpackWith sample stale w b).length = w := by
  simp [unpackWith]

theorem unpackWith_getD (sample : (Nat → Byte) → Nat → Sample) (stale : Nat) {w : Nat} (b : List Byte)
    {i : Nat} (h : i < w) :
    ((unpackWith sample stale w b)[i]?).getD 0 = sample (rowByte stale b) i := by
  simp [unpackWith, h]

theorem mem_unpackWith {sample : (Nat → Byte) → Nat → Sample} {stale w : Nat} {b : List Byte} {v : Sample} :
    v ∈ unpackWith sample stale w b ↔ ∃ i < w, sample (rowByte stale b) i = v := by
  simp [unpackWith]

/-- Two rows whose bytes give the same samples are unpacked alike. -/
theorem unpackWith_congr {sample : (Nat → Byte) → Nat → Sample} {stale w : Nat} {b b' : List Byte}
    (h : ∀ i < w, sample (rowByte stale b) i = sample (rowByte stale b') i) :
    unpackWith sample stale w b = unpackWith sample stale w b' :=
  List.map_congr_left fun i hi => h i (List.mem_range.mp hi)

/-! ## Each format's sample as a number -/

theorem raw8Sample_toNat (byte : Nat → Byte) (i : Nat) : (raw8Sample byte i).toNat = (byte i).toNat :=
  BitVec.toNat_setWidth_of_le (by decide)

theorem wordSample_toNat (byte : Nat → Byte) (i : Nat) :
    (wordSample byte i).toNat = (byte (2 * i)).toNat + 256 * (byte (2 * i + 1)).toNat :=
  le16_toNat _ _

theorem raw10Sample_toNat (byte : Nat → Byte) (i : Nat) :
    (raw10Sample byte i).toNat = (wordSample byte i).toNat % 2 ^ 10 :=
  toNat_and_mask _ rfl

theorem raw12Sample_toNat (byte : Nat → Byte) (i : Nat) :
    (raw12Sample byte i).toNat = (wordSample byte i).toNat % 2 ^ 12 :=
  toNat_and_mask _ rfl

theorem raw16Sample_toNat (byte : Nat → Byte) (i : Nat) :
    (raw16Sample byte i).toNat = (wordSample byte i).toNat :=
  rfl

/-- Lane `i % 4` of group `i / 4` (R104). -/
theorem raw10pSample_toNat (byte : Nat → Byte) (i : Nat) : (raw10pSample byte i).toNat
    = 4 * (byte (5 * (i / 4) + i % 4)).toNat + (byte (5 * (i / 4) + 4)).toNat / 4 ^ (i % 4) % 4 := by
  have hlow := toNat_lane (byte (5 * (i / 4) + 4)) (m := 0b11#8) (n := 2) (i % 4) rfl
  rw [raw10pSample, toNat_shiftLeft_or (by decide) (hlow ▸ Nat.mod_lt _ (by decide)), hlow]
  rfl

/-- Lane `i % 2` of group `i / 2` (R105). -/
theorem raw12pSample_toNat (byte : Nat → Byte) (i : Nat) : (raw12pSample byte i).toNat
    = 16 * (byte (3 * (i / 2) + i % 2)).toNat + (byte (3 * (i / 2) + 2)).toNat / 16 ^ (i % 2) % 16 := by
  have hlow := toNat_lane (byte (3 * (i / 2) + 2)) (m := 0xF#8) (n := 4) (i % 2) rfl
  rw [raw12pSample, toNat_shiftLeft_or (by decide) (hlow ▸ Nat.mod_lt _ (by decide)), hlow]
  rfl

/-! ## O18, O19: every sample of a row that is long enough -/

/-- A word of a row that has all its words is made of the row's own bytes. -/
theorem wordSample_rowByte_toNat (stale : Nat) {b : List Byte} {w i : Nat} (hb : 2 * w ≤ b.length)
    (hi : i < w) : (wordSample (rowByte stale b) i).toNat
      = ((b[2 * i]?).getD 0).toNat + 256 * ((b[2 * i + 1]?).getD 0).toNat := by
  rw [wordSample_toNat, rowByte_of_lt stale (by omega), rowByte_of_lt stale (by omega)]

/-- Settles O18: the samples format by format, the PIXFMT codes from O3. -/
theorem unpackDirect : Obligations.UnpackDirect := by
  intro s b
  refine ⟨fun hb => ⟨_, rfl, unpackWith_length .., fun i hi => ?_⟩,
    fun hb => ⟨_, rfl, unpackWith_length .., fun i hi => ?_⟩,
    fun hb => ⟨_, rfl, unpackWith_length .., fun i hi => ?_⟩,
    fun hb => ⟨_, rfl, unpackWith_length .., fun i hi => ?_⟩, fun f bl => ?_⟩
  · rw [unpackWith_getD _ _ _ hi, raw8Sample_toNat, rowByte_of_lt _ (by omega)]
  · rw [unpackWith_getD _ _ _ hi, raw10Sample_toNat, wordSample_rowByte_toNat _ hb hi]
  · rw [unpackWith_getD _ _ _ hi, raw12Sample_toNat, wordSample_rowByte_toNat _ hb hi]
  · rw [unpackWith_getD _ _ _ hi, raw16Sample_toNat, wordSample_rowByte_toNat _ hb hi]
  · obtain ⟨raw8, -, -, raw10, raw12, raw16, -⟩ := formatWordSelects f bl b [] 0 0 default default default 0
    exact ⟨raw8, raw10, raw12, raw16⟩

/-- Settles O19: sample `4 * g + k` lies in lane k of group g, sample `2 * g + k` likewise. -/
theorem unpackPacked : Obligations.UnpackPacked := by
  intro s b
  refine ⟨fun hb => ⟨_, rfl, unpackWith_length .., fun g k hk hi => ?_⟩,
    fun hb => ⟨_, rfl, unpackWith_length .., fun g k hk hi => ?_⟩⟩
  · have hgroup : (4 * g + k) / 4 = g := by omega
    have hlane : (4 * g + k) % 4 = k := by omega
    rw [unpackWith_getD _ _ _ hi, raw10pSample_toNat, hgroup, hlane, rowByte_of_lt _ (by omega),
      rowByte_of_lt _ (by omega)]
  · have hgroup : (2 * g + k) / 2 = g := by omega
    have hlane : (2 * g + k) % 2 = k := by omega
    rw [unpackWith_getD _ _ _ hi, raw12pSample_toNat, hgroup, hlane, rowByte_of_lt _ (by omega),
      rowByte_of_lt _ (by omega)]

/-! ## O20: what the six operations share -/

/-- The common contract of the UNPACK operations, said of one format's sample function for rows of `w`
samples (R101, R102): samples of `depth` bits, made from the row's first `need` bytes alone, zero from zero
bytes. -/
structure SampleContract (sample : (Nat → Byte) → Nat → Sample) (depth w need : Nat) : Prop where
  bound (byte : Nat → Byte) (i : Nat) : (sample byte i).toNat < 2 ^ depth
  reads {byte byte' : Nat → Byte} {i : Nat} (hi : i < w) (h : ∀ j < need, byte j = byte' j) :
    sample byte i = sample byte' i
  zero (i : Nat) : sample (fun _ => 0#8) i = 0#16

theorem wordSample_congr {w i : Nat} {byte byte' : Nat → Byte} (hi : i < w)
    (h : ∀ j < 2 * w, byte j = byte' j) : wordSample byte i = wordSample byte' i := by
  rw [wordSample, wordSample, h _ (by omega), h _ (by omega)]

theorem raw8Sample_contract (w : Nat) : SampleContract raw8Sample 8 w w where
  bound byte i := raw8Sample_toNat byte i ▸ (byte i).isLt
  reads hi h := congrArg _ (h _ hi)
  zero _ := rfl

theorem raw10pSample_contract (w : Nat) : SampleContract raw10pSample 10 w (5 * ((w + 3) / 4)) where
  bound byte i := by
    have hhigh := (byte (5 * (i / 4) + i % 4)).isLt
    rw [raw10pSample_toNat]
    omega
  reads hi h := by simp only [raw10pSample]; rw [h _ (by omega), h _ (by omega)]
  zero i := BitVec.eq_of_toNat_eq (by simp [raw10pSample_toNat])

theorem raw12pSample_contract (w : Nat) : SampleContract raw12pSample 12 w (3 * ((w + 1) / 2)) where
  bound byte i := by
    have hhigh := (byte (3 * (i / 2) + i % 2)).isLt
    rw [raw12pSample_toNat]
    omega
  reads hi h := by simp only [raw12pSample]; rw [h _ (by omega), h _ (by omega)]
  zero i := BitVec.eq_of_toNat_eq (by simp [raw12pSample_toNat])

theorem raw10Sample_contract (w : Nat) : SampleContract raw10Sample 10 w (2 * w) where
  bound byte i := raw10Sample_toNat byte i ▸ Nat.mod_lt _ (by decide)
  reads hi h := congrArg (· &&& _) (wordSample_congr hi h)
  zero i := BitVec.eq_of_toNat_eq (by simp [raw10Sample_toNat, wordSample_toNat])

theorem raw12Sample_contract (w : Nat) : SampleContract raw12Sample 12 w (2 * w) where
  bound byte i := raw12Sample_toNat byte i ▸ Nat.mod_lt _ (by decide)
  reads hi h := congrArg (· &&& _) (wordSample_congr hi h)
  zero i := BitVec.eq_of_toNat_eq (by simp [raw12Sample_toNat, wordSample_toNat])

theorem raw16Sample_contract (w : Nat) : SampleContract raw16Sample 16 w (2 * w) where
  bound byte i := (raw16Sample byte i).isLt
  reads hi h := wordSample_congr hi h
  zero i := BitVec.eq_of_toNat_eq (by simp [raw16Sample_toNat, wordSample_toNat])

section
variable {sample : (Nat → Byte) → Nat → Sample} {depth w need : Nat}

theorem SampleContract.unpackWith_lt (hc : SampleContract sample depth w need) (stale : Nat)
    (b : List Byte) : ∀ v ∈ unpackWith sample stale w b, v.toNat < 2 ^ depth := by
  intro v hv
  obtain ⟨i, -, rfl⟩ := mem_unpackWith.mp hv
  exact hc.bound _ i

/-- Bytes past the first `need` are not read. -/
theorem SampleContract.unpackWith_append (hc : SampleContract sample depth w need) (stale : Nat)
    {b : List Byte} (extra : List Byte) (hb : need ≤ b.length) :
    unpackWith sample stale w (b ++ extra) = unpackWith sample stale w b :=
  unpackWith_congr fun _ hi => hc.reads hi fun _ hj => rowByte_append_of_lt stale extra (hj.trans_le hb)

theorem SampleContract.unpackWith_zero (hc : SampleContract sample depth w need) (stale : Nat)
    {b : List Byte} (hb : need ≤ b.length) (hzero : ∀ v ∈ b, v = 0#8) :
    ∀ v ∈ unpackWith sample stale w b, v = 0#16 := by
  intro v hv
  obtain ⟨i, hi, rfl⟩ := mem_unpackWith.mp hv
  calc sample (rowByte stale b) i
      = sample (fun _ => 0#8) i := hc.reads hi fun _ hj => rowByte_of_zero stale hzero (hj.trans_le hb)
    _ = 0#16 := hc.zero i

end

/-- The contract of an operation that holds the samples of a row in `dp.u`, from that of its samples. -/
theorem SampleContract.of_exec {sample : (Nat → Byte) → Nat → Sample} {depth need : Nat}
    {op : List Byte → Instr} {s t : State} {b : List Byte}
    (hc : SampleContract sample depth s.cfg.w need)
    (hop : ∀ b, exec (op b) s = .next (s.setUnpacked (unpackWith sample s.stale s.cfg.w b)))
    (h : exec (op b) s = .next t) (extra : List Byte) :
    (∀ v ∈ t.dp.u, v.toNat < 2 ^ depth)
    ∧ (need ≤ b.length → exec (op (b ++ extra)) s = .next t)
    ∧ (need ≤ b.length → (∀ v ∈ b, v = 0#8) → ∀ v ∈ t.dp.u, v = 0#16) := by
  rw [hop] at h
  cases h
  exact ⟨hc.unpackWith_lt _ b, fun hb => by rw [hop, hc.unpackWith_append _ extra hb],
    hc.unpackWith_zero _⟩

/-- Settles O20, operation by operation. -/
theorem unpackContract : Obligations.UnpackContract := by
  intro s t b extra op depth need hop h
  simp only [List.mem_cons, List.not_mem_nil, or_false, Prod.mk.injEq] at hop
  obtain ⟨rfl, rfl, rfl⟩ | ⟨rfl, rfl, rfl⟩ | ⟨rfl, rfl, rfl⟩ | ⟨rfl, rfl, rfl⟩ | ⟨rfl, rfl, rfl⟩
    | ⟨rfl, rfl, rfl⟩ := hop
  · exact (raw8Sample_contract _).of_exec (fun _ => rfl) h extra
  · exact (raw10pSample_contract _).of_exec (fun _ => rfl) h extra
  · exact (raw12pSample_contract _).of_exec (fun _ => rfl) h extra
  · exact (raw10Sample_contract _).of_exec (fun _ => rfl) h extra
  · exact (raw12Sample_contract _).of_exec (fun _ => rfl) h extra
  · exact (raw16Sample_contract _).of_exec (fun _ => rfl) h extra

end Sys2Proof.Machine
end

section
/-! The black-level corrector: what saturating subtraction gives on words, rows and lane pairs
(41_black_level.md). -/

namespace Sys2Proof.Machine

/-! ## O21: the two forms agree and saturate -/

/-- The guard of `sat_sub16` is the floor at 0 of natural subtraction (R121, R122). -/
theorem satSub_toNat (a b : Sample) : (satSub a b).toNat = a.toNat - b.toNat := by
  unfold satSub
  split
  · exact BitVec.toNat_sub_of_le (BitVec.le_of_lt ‹_›)
  · exact (Nat.sub_eq_zero_of_le (BitVec.not_lt.mp ‹_›)).symm

@[simp] theorem blcScalar_length (bl : Sample) (u : List Sample) : (blcScalar bl u).length = u.length :=
  List.length_map _

theorem blcScalar_getD_toNat (bl : Sample) {u : List Sample} {i : Nat} (hi : i < u.length) :
    (((blcScalar bl u)[i]?).getD 0).toNat = ((u[i]?).getD 0).toNat - bl.toNat := by
  simp [blcScalar, hi, satSub_toNat]

/-- The two-lane form is the scalar one, lane pair by lane pair, an odd last sample included (R122). -/
theorem blcPairs_eq_blcScalar (bl : Sample) (u : List Sample) : blcPairs bl u = blcScalar bl u := by
  induction u using blcPairs.induct with
  | case1 a b rest ih => rw [blcPairs, ih]; rfl
  | case2 a | case3 => rfl

theorem exec_blcSub2_eq_blcSub (u : List Sample) (s : State) : exec (.blcSub2 u) s = exec (.blcSub u) s :=
  congrArg (fun v => (.next (s.setCorrected v) : Result)) (blcPairs_eq_blcScalar s.cfg.bl u)

/-- Settles O21: the row of both forms is the scalar one; what selects a form is O3's. -/
theorem blackLevelSaturates : Obligations.BlackLevelSaturates := by
  intro s u
  refine ⟨rfl, blcScalar s.cfg.bl u, rfl, exec_blcSub2_eq_blcSub u s, blcScalar_length _ u,
    fun _ => blcScalar_getD_toNat _, fun f bl => ?_⟩
  obtain ⟨-, -, -, -, -, -, -, bypass, subtract, -⟩ :=
    formatWordSelects f bl [] u 0 0 default default default 0
  exact ⟨bypass, subtract⟩

end Sys2Proof.Machine
end

section
/-! The demosaic unit (42_demosaic.md): the colour table by the parities of a position, the operation that a
pixel's class selects, the mean of the neighbours inside the image, and white balance as arithmetic on
numbers. -/

namespace Sys2Proof.Machine

/-! ## O22, O23: the colour table and the pixel class -/

/-- A coordinate enters the table by its parity alone. -/
theorem mod_two_eq_odd_toNat (i : Nat) : i % 2 = (odd i).toNat := by
  unfold odd
  obtain h | h := Nat.mod_two_eq_zero_or_one i <;> simp [h]

/-- The sixteen phases of R130. -/
theorem cfaTable_phases : ∀ (p : BitVec 2) (yOdd xOdd : Bool),
    ((p.toNat, yOdd.toNat, xOdd.toNat) ∈ [(0, 0, 0), (1, 1, 1), (2, 0, 1), (3, 1, 0)] →
      cfaTable p yOdd xOdd = .red)
    ∧ ((p.toNat, yOdd.toNat, xOdd.toNat) ∈ [(0, 1, 1), (1, 0, 0), (2, 1, 0), (3, 0, 1)] →
      cfaTable p yOdd xOdd = .blue)
    ∧ ((p.toNat, yOdd.toNat, xOdd.toNat) ∈ [(0, 0, 1), (0, 1, 0), (1, 0, 1), (1, 1, 0), (2, 0, 0), (2, 1, 1),
        (3, 0, 0), (3, 1, 1)] → cfaTable p yOdd xOdd = .green) := by decide

/-- Settles O22: the operation by evaluation, the table phase by phase. -/
theorem colourAtPosition : Obligations.ColourAtPosition := by
  refine ⟨fun _ _ _ => rfl, fun p y x => ?_⟩
  rw [mod_two_eq_odd_toNat y, mod_two_eq_odd_toNat x]
  exact cfaTable_phases p (odd y) (odd x)

/-- The row phases that carry red (R131). -/
theorem redRowPhase_iff : ∀ (p : BitVec 2) (yOdd : Bool), redRowPhase p yOdd = true ↔
    (yOdd.toNat = 0 ∧ (p.toNat = 0 ∨ p.toNat = 2)) ∨ (yOdd.toNat = 1 ∧ (p.toNat = 1 ∨ p.toNat = 3)) := by
  decide

/-- The demosaic operation of a colour in a red row or another one (30_encoding.md R78). -/
def demosaicInstr (x y : Nat) : Color → Bool → Instr
  | .red, _ => .dmR x y
  | .blue, _ => .dmB x y
  | .green, true => .dmGRrow x y
  | .green, false => .dmGBrow x y

/-- The class code carries the colour and the row flag to the decoder. -/
theorem decode_pixelClass (p : BitVec 2) (y x : Nat) :
    decode (.cls (pixelClass p y x) x y) = .ok (demosaicInstr x y (cfa p y x) (redRow p y)) := by
  unfold pixelClass
  cases cfa p y x <;> cases redRow p y <;> rfl

/-- Settles O23: red rows by their phase, the operations by the class code. -/
theorem pixelClassSelects : Obligations.PixelClassSelects := by
  intro p y x
  rw [decode_pixelClass, mod_two_eq_odd_toNat y]
  refine ⟨redRowPhase_iff p (odd y), fun hred => ?_, fun hblue => ?_, fun hgreen hrow => ?_,
    fun hgreen hrow => ?_⟩
  · rw [hred]; rfl
  · rw [hblue]; rfl
  · rw [hgreen, hrow]; rfl
  · rw [hgreen, hrow]; rfl

/-! ## O24, O25: the mean of the neighbours there are -/

theorem sampleSum_le (l : List Sample) : sampleSum l ≤ l.length * (2 ^ 16 - 1) := by
  have h := List.sum_le_card_nsmul (l.map BitVec.toNat) (2 ^ 16 - 1) fun n hn => by
    obtain ⟨v, -, rfl⟩ := List.mem_map.1 hn
    exact Nat.le_pred_of_lt v.isLt
  simpa [sampleSum] using h

/-- The mean of samples is a sample, so it is exact; Nat division by 0 is the mean of no samples (R133). -/
theorem mean_toNat (l : List Sample) : (mean l).toNat = sampleSum l / l.length := by
  unfold mean
  split
  · simp [*]
  · have hle : sampleSum l / l.length ≤ 2 ^ 16 - 1 := Nat.div_le_of_le_mul (sampleSum_le l)
    rw [BitVec.toNat_ofNat, Nat.mod_eq_of_lt (by omega)]

theorem present_append (l l' : List (Option Sample)) : present l ++ present l' = present (l ++ l') :=
  List.filterMap_append.symm

/-- A neighbour counts once where it is inside the image, and is left out elsewhere. -/
theorem length_present_cons_ite (p : Prop) [Decidable p] (a : Sample) (l : List (Option Sample)) :
    (present ((if p then some a else none) :: l)).length = (if p then 1 else 0) + (present l).length := by
  by_cases h : p <;> simp [present, h, Nat.add_comm]

theorem sampleSum_present_cons_ite (p : Prop) [Decidable p] (a : Sample) (l : List (Option Sample)) :
    sampleSum (present ((if p then some a else none) :: l))
      = (if p then 1 else 0) * a.toNat + sampleSum (present l) := by
  by_cases h : p <;> simp [present, sampleSum, h]

/-- A diagonal neighbour is inside the image when its column and its row are. -/
theorem ite_and_one_eq_mul (p q : Prop) [Decidable p] [Decidable q] :
    (if p ∧ q then 1 else 0) = (if p then 1 else 0) * if q then 1 else 0 :=
  (ite_zero_mul_ite_zero p q 1 1).symm

/-- A sample read at integer coordinates that stand for natural ones wherever they are inside the image. -/
theorem State.sampleAt_eq_ite {s : State} {y x : Int} {r c : Nat} {p : Prop} [Decidable p]
    (hp : p ↔ 0 ≤ x ∧ x < s.cfg.w ∧ 0 ≤ y ∧ y < s.cfg.h) (h : p → y = r ∧ x = c) :
    s.sampleAt y x = if p then some (s.winSample r c) else none := by
  rw [State.sampleAt, ← if_congr hp rfl rfl]
  split
  · obtain ⟨rfl, rfl⟩ := h ‹_›
    rfl
  · rfl

/-- Which neighbours of a pixel of the image are inside it (R132). -/
theorem State.nbhd_eq {s : State} {x y : Nat} (hx : x < s.cfg.w) (hy : y < s.cfg.h) : s.nbhd x y =
    { nw := if 0 < x ∧ 0 < y then some (s.winSample (y - 1) (x - 1)) else none
      n := if 0 < y then some (s.winSample (y - 1) x) else none
      ne := if x + 1 < s.cfg.w ∧ 0 < y then some (s.winSample (y - 1) (x + 1)) else none
      w := if 0 < x then some (s.winSample y (x - 1)) else none
      c := s.winSample y x
      e := if x + 1 < s.cfg.w then some (s.winSample y (x + 1)) else none
      sw := if 0 < x ∧ y + 1 < s.cfg.h then some (s.winSample (y + 1) (x - 1)) else none
      s := if y + 1 < s.cfg.h then some (s.winSample (y + 1) x) else none
      se := if x + 1 < s.cfg.w ∧ y + 1 < s.cfg.h then some (s.winSample (y + 1) (x + 1)) else none } := by
  unfold State.nbhd
  congr 1 <;> exact State.sampleAt_eq_ite (by omega) (by omega)

/-- Settles O24: the two means as numbers, the rest by evaluation. -/
theorem demosaicRedBlue : Obligations.DemosaicRedBlue := by
  intro s x y hx hy S left right up down green other
  refine ⟨mean (horizontal (s.nbhd x y) ++ vertical (s.nbhd x y)), mean (diagonal (s.nbhd x y)), ?_, ?_,
    rfl, rfl, rfl, rfl, rfl, rfl⟩
  · rw [mean_toNat, State.nbhd_eq hx hy, horizontal, vertical, present_append]
    simp only [List.cons_append, List.nil_append, length_present_cons_ite, sampleSum_present_cons_ite,
      ← Nat.add_assoc]
    rfl
  · rw [mean_toNat, State.nbhd_eq hx hy, diagonal]
    simp only [length_present_cons_ite, sampleSum_present_cons_ite, ite_and_one_eq_mul, ← Nat.add_assoc]
    rfl

/-- Settles O25: the horizontal and the vertical mean as numbers, the rest by evaluation. -/
theorem demosaicGreen : Obligations.DemosaicGreen := by
  intro s x y hx hy S left right up down
  refine ⟨mean (horizontal (s.nbhd x y)), mean (vertical (s.nbhd x y)), ?_, ?_, rfl, rfl, rfl, rfl⟩
  · rw [mean_toNat, State.nbhd_eq hx hy, horizontal, length_present_cons_ite, length_present_cons_ite,
      sampleSum_present_cons_ite, sampleSum_present_cons_ite]
    rfl
  · rw [mean_toNat, State.nbhd_eq hx hy, vertical, length_present_cons_ite, length_present_cons_ite,
      sampleSum_present_cons_ite, sampleSum_present_cons_ite]
    rfl

/-! ## O26: white balance -/

/-- The depths of the six formats (40_unpack.md R101). -/
theorem depthOf_eq {code : BitVec 3} {depth : Nat}
    (h : (code.toNat, depth) ∈ [(0, 8), (1, 10), (2, 12), (3, 10), (4, 12), (5, 16)]) :
    depthOf code = depth := by
  have hcode : code = BitVec.ofNat 3 code.toNat := by simp
  simp only [List.mem_cons, List.not_mem_nil, or_false, Prod.mk.injEq] at h
  obtain ⟨hk, rfl⟩ | ⟨hk, rfl⟩ | ⟨hk, rfl⟩ | ⟨hk, rfl⟩ | ⟨hk, rfl⟩ | ⟨hk, rfl⟩ := h <;>
    (rw [hcode, hk]; rfl)

/-- The gain of a channel, by its register and its default constant (R140). -/
def channelGain (cfg : CfgRegs) (reg : Word) (default : BitVec 16) : BitVec 16 :=
  if cfg.wbEn then if ovrField reg then gainField reg else default else 256#16

theorem CfgRegs.gains_eq (cfg : CfgRegs) : cfg.gains =
    ⟨channelGain cfg cfg.wbR Config.wbDefault.r, channelGain cfg cfg.wbG Config.wbDefault.g,
      channelGain cfg cfg.wbB Config.wbDefault.b⟩ := by
  unfold CfgRegs.gains channelGain
  split <;> rfl

/-- FORMAT[17] (30_encoding.md R75). -/
theorem wbEnField_eq {format : Word} {k : Nat} (h : format.toNat / 2 ^ 17 % 2 = k) :
    wbEnField format = decide (k = 1) :=
  getLsbD_eq_decide h

/-- OVR is the top bit (30_encoding.md R76). -/
theorem ovrField_eq (reg : Word) : ovrField reg = decide (reg.toNat / 2 ^ 31 = 1) :=
  getLsbD_eq_decide (Nat.mod_eq_of_lt (Nat.div_lt_of_lt_mul reg.isLt))

theorem gainField_toNat (reg : Word) : (gainField reg).toNat = reg.toNat % 2 ^ 16 :=
  BitVec.extractLsb'_toNat ..

theorem channelGain_toNat (cfg : CfgRegs) (reg : Word) (default : BitVec 16) :
    (channelGain cfg reg default).toNat =
      if cfg.format.toNat / 2 ^ 17 % 2 = 0 then 256
      else if reg.toNat / 2 ^ 31 = 1 then reg.toNat % 2 ^ 16 else default.toNat := by
  have hen : cfg.wbEn = decide (cfg.format.toNat / 2 ^ 17 % 2 = 1) := wbEnField_eq rfl
  rw [channelGain, hen, ovrField_eq, ← gainField_toNat]
  obtain h | h := Nat.mod_two_eq_zero_or_one (cfg.format.toNat / 2 ^ 17)
  · rw [h]; rfl
  · rw [h]
    simp [apply_ite BitVec.toNat]

/-- The clamp makes the result a byte (R142). -/
theorem toByte_toNat (depth : Nat) (gain : BitVec 16) (v : Sample) :
    (toByte depth gain v).toNat = min 255 (v.toNat * gain.toNat / 2 ^ depth) := by
  rw [toByte, BitVec.toNat_ofNat, Nat.mod_eq_of_lt (by omega)]

/-- Settles O26: each channel by its gain and the format's depth; what selects the unit is O3's. -/
theorem whiteBalanceNormalises : Obligations.WhiteBalanceNormalises := by
  intro s p depth hdepth gain
  have hd : s.cfg.depth = depth := depthOf_eq hdepth
  have channel (reg : Word) (default : BitVec 16) (v : Sample) :
      (toByte s.cfg.depth (channelGain s.cfg reg default) v).toNat
        = min 255 (v.toNat * gain reg default / 2 ^ depth) := by
    rw [toByte_toNat, hd, channelGain_toNat]
  have hexec : exec (.wbNorm p) s = .next (s.setRgb8 (wbNorm s.cfg.depth s.cfg.gains p)) := rfl
  rw [CfgRegs.gains_eq] at hexec
  refine ⟨_, hexec, channel .., channel .., channel .., fun f bl hfast => ?_⟩
  obtain ⟨-, -, -, -, -, -, -, -, -, -, fast, -⟩ := formatWordSelects f bl [] [] 0 0 p default default 0
  exact (fast hfast).1

/-! ## O27: the colour image -/

/-- The operation of a real pixel's class gives what the datapaths read for the pixel. -/
theorem exec_demosaicInstr {s : State} {x : Nat} (hx : x < s.cfg.w) (y : Nat) :
    exec (demosaicInstr x y (cfa s.cfg.pattern y x) (redRow s.cfg.pattern y)) s
      = .next (s.setRgb (ctxRgb (s.pixelCtx x y))) := by
  have hmin : min x (s.cfg.w - 1) = x := by omega
  rw [cfa, redRow]
  simp only [ctxRgb, State.pixelCtx, hmin]
  cases cfaTable s.cfg.pattern (odd y) (odd x) with
  | red | blue => rfl
  | green => cases redRowPhase s.cfg.pattern (odd y) <;> rfl

theorem State.pixelCtx_of_w_le {s : State} {x : Nat} (hx : s.cfg.w ≤ x) (y : Nat) :
    s.pixelCtx x y = s.pixelCtx (s.cfg.w - 1) y := by
  have hmin : min x (s.cfg.w - 1) = min (s.cfg.w - 1) (s.cfg.w - 1) := by omega
  simp only [State.pixelCtx, hmin]

/-- Settles O27: a real pixel by the operation of its class, a padded one by its context. -/
theorem colourImage : Obligations.ColourImage := by
  intro s x y
  refine ⟨fun hx i t u hi ht hu => ?_, fun hx => congrArg ctxRgb8 (State.pixelCtx_of_w_le hx y)⟩
  rw [decode_pixelClass] at hi
  cases hi
  rw [exec_demosaicInstr hx] at ht
  cases ht
  cases hu
  rfl

end Sys2Proof.Machine
end

section
/-! Colour conversion (43_color_convert.md): the clamped integer formulas, the tolerance of the reference
datapath, and the bytes of the three kinds of output row. -/

namespace Sys2Proof.Machine

/-! ## O28, O29: the conversion of a pixel and of a pair -/

theorem clamp8_toNat (v : Int) : ((clamp8 v).toNat : Int) = max 0 (min 255 v) := by
  rw [clamp8, BitVec.toNat_ofNat]
  omega

/-- The clamp keeps a channel value. -/
theorem clamp8_chan (v : Byte) : clamp8 (chan v) = v := by
  have hlt := v.isLt
  have hchan : chan v = v.toNat := rfl
  have hclamp := clamp8_toNat (chan v)
  apply BitVec.eq_of_toNat_eq
  omega

/-- The luma coefficients sum to 256 and the chroma ones to 0 (R151). -/
theorem cscPixel_grey (v : Byte) : cscPixel ⟨v, v, v⟩ = ⟨v, 128#8, 128#8⟩ := by
  have hy : (77 * chan v + 150 * chan v + 29 * chan v + 128) / 256 = chan v := by omega
  have hcb : (-43 * chan v - 85 * chan v + 128 * chan v + 128) / 256 + 128 = 128 := by omega
  have hcr : (128 * chan v - 107 * chan v - 21 * chan v + 128) / 256 + 128 = 128 := by omega
  rw [cscPixel, hy, hcb, hcr, clamp8_chan]
  rfl

/-- Settles O28: each component by its clamp, a grey pixel by the sums of the coefficients. -/
theorem pixelColourConversion : Obligations.PixelColourConversion := by
  refine ⟨fun _ _ => rfl, fun s p => ?_⟩
  refine ⟨cscPixel p, rfl, clamp8_toNat _, clamp8_toNat _, clamp8_toNat _, fun hrg hgb => ?_⟩
  obtain ⟨v, _, _⟩ := p
  cases hrg
  cases hgb
  exact cscPixel_grey v

/-- Doubled sums, shifted by one bit more, are the sums of one pixel (R155). -/
theorem pairChroma_self (p : Rgb8) : pairChroma p p = ⟨(cscPixel p).cb, (cscPixel p).cr⟩ := by
  unfold pairChroma cscPixel
  congr 2 <;> omega

/-- Settles O29: each component by its clamp, equal pixels by halving. -/
theorem pairChromaOfTwoPixels : Obligations.PairChromaOfTwoPixels := by
  intro s p0 p1 r g b
  refine ⟨pairChroma p0 p1, rfl, clamp8_toNat _, clamp8_toNat _, fun heq t ht => ?_⟩
  cases heq
  cases ht
  exact pairChroma_self p0

/-! ## O30: the reference datapath -/

/-- The tolerance law of R161 on one component. -/
theorem withinTol_close (fast value : Byte) :
    (((withinTol fast value).toNat : Int) - fast.toNat).natAbs ≤ 2 := by
  have hfast := fast.isLt
  have hvalue := value.isLt
  rw [withinTol, Config.tolerance, BitVec.toNat_ofNat]
  omega

/-- Settles O30: the law component by component; both values are functions of contexts. -/
theorem referenceWithinTolerance : Obligations.ReferenceWithinTolerance := by
  intro s x y
  refine ⟨refPix (s.pixelCtx x y), refPair (s.pixelCtx (2 * (x / 2)) y) (s.pixelCtx (2 * (x / 2) + 1) y), rfl,
    withinTol_close .., withinTol_close .., withinTol_close .., withinTol_close .., withinTol_close ..,
    fun s' t' x' y' ht => ?_⟩
  cases ht
  exact ⟨congrArg refPix, congrArg₂ refPair⟩

/-! ## The values of the selected datapath -/

theorem State.yccAt_fast {s : State} (h : s.cfg.fastEn = true) (x y : Nat) :
    s.yccAt x y = cscPixel (s.rgb8At x y) :=
  if_pos h

theorem State.chromaAt_fast {s : State} (h : s.cfg.fastEn = true) (k y : Nat) :
    s.chromaAt k y = pairChroma (s.rgb8At (2 * k) y) (s.rgb8At (2 * k + 1) y) :=
  if_pos h

/-- The REF operation gives what the row operations use for its pixel (R160). -/
theorem State.yccAt_ref {s t : State} {x y : Nat} (h : s.cfg.fastEn = false)
    (ht : exec (.ref x y) s = .next t) : s.yccAt x y = t.dp.ycc := by
  cases ht
  exact if_neg (Bool.eq_false_iff.1 h)

/-- The REF operation at either pixel of a pair gives what the row operations use for the pair (R160). -/
theorem State.chromaAt_ref {s t : State} {x y : Nat} (h : s.cfg.fastEn = false)
    (ht : exec (.ref x y) s = .next t) : s.chromaAt (x / 2) y = t.dp.chroma := by
  cases ht
  exact if_neg (Bool.eq_false_iff.1 h)

/-! ## The bytes of a row, group by group -/

theorem State.row444_length (s : State) (y : Nat) : (s.row444 y).length = 3 * s.cfg.wpad :=
  length_flatMap_range _ 3 (fun _ => rfl) _

theorem State.row444_getElem? (s : State) (y : Nat) {x j : Nat} (hx : x < s.cfg.wpad) (hj : j < 3) :
    (s.row444 y)[3 * x + j]? = (s.triplet y x)[j]? :=
  getElem?_flatMap_range _ 3 (fun _ => rfl) j hj _ x hx

theorem State.row422_length (s : State) (y : Nat) : (s.row422 y).length = 4 * (s.cfg.wpad / 2) :=
  length_flatMap_range _ 4 (fun _ => rfl) _

theorem State.row422_getElem? (s : State) (y : Nat) {k j : Nat} (hk : k < s.cfg.wpad / 2) (hj : j < 4) :
    (s.row422 y)[4 * k + j]? = (s.group422 y k)[j]? :=
  getElem?_flatMap_range _ 4 (fun _ => rfl) j hj _ k hk

theorem State.row420Odd_length (s : State) (y : Nat) (above : List Byte) :
    (s.row420Odd y above).length = 4 * (s.cfg.wpad / 2) :=
  length_flatMap_range _ 4 (fun _ => rfl) _

theorem State.row420Odd_getElem? (s : State) (y : Nat) (above : List Byte) {k j : Nat}
    (hk : k < s.cfg.wpad / 2) (hj : j < 4) :
    (s.row420Odd y above)[4 * k + j]? = (s.group420Odd y above k)[j]? :=
  getElem?_flatMap_range _ 4 (fun _ => rfl) j hj _ k hk

/-! ## The output row that SUBSAMP selects (R158) -/

theorem State.outRow_of_444 {s : State} (h : s.cfg.subsamp.toNat = 0) (y : Nat) (above : List Byte) :
    s.outRow y above = s.row444 y := by
  have hsub : s.cfg.subsamp = 0#2 := BitVec.eq_of_toNat_eq h
  simp only [State.outRow, hsub]

theorem State.outRow_of_422 {s : State} {y : Nat}
    (h : s.cfg.subsamp.toNat = 1 ∨ (s.cfg.subsamp.toNat = 2 ∧ y % 2 = 0)) (above : List Byte) :
    s.outRow y above = s.row422 y := by
  obtain h | ⟨h, hy⟩ := h
  · have hsub : s.cfg.subsamp = 1#2 := BitVec.eq_of_toNat_eq h
    simp only [State.outRow, hsub]
  · have hsub : s.cfg.subsamp = 2#2 := BitVec.eq_of_toNat_eq h
    simp only [State.outRow, hsub, if_pos hy]

theorem State.outRow_of_420Odd {s : State} {y : Nat} (h : s.cfg.subsamp.toNat = 2) (hy : y % 2 = 1)
    (above : List Byte) : s.outRow y above = s.row420Odd y above := by
  have hsub : s.cfg.subsamp = 2#2 := BitVec.eq_of_toNat_eq h
  simp only [State.outRow, hsub, if_neg (Nat.mod_two_ne_zero.2 hy)]

/-! ## O31, O32: rows with their own chroma -/

/-- Settles O31: the triplet of each pixel, in the selected datapath. -/
theorem rowOf444 : Obligations.RowOf444 := by
  intro s y
  refine ⟨s.row444 y, rfl, s.row444_length y, fun x hx => ?_, fun h => State.outRow_of_444 h y⟩
  exact ⟨s.row444_getElem? y hx (j := 0) (by decide), s.row444_getElem? y hx (by decide),
    s.row444_getElem? y hx (by decide), fun hfast => State.yccAt_fast hfast x y,
    fun href _ => State.yccAt_ref href⟩

/-- Settles O32: the group of each pair, in the selected datapath. -/
theorem rowOf422 : Obligations.RowOf422 := by
  intro s y
  refine ⟨s.row422 y, rfl, fun _ => rfl, s.row422_length y, fun k hk => ?_, fun h => ?_⟩
  · refine ⟨s.row422_getElem? y hk (j := 0) (by decide), s.row422_getElem? y hk (by decide),
      s.row422_getElem? y hk (by decide), s.row422_getElem? y hk (by decide), fun hfast => ?_,
      fun href x t hx ht => ?_⟩
    · exact ⟨State.chromaAt_fast hfast k y, fun x _ => State.yccAt_fast hfast x y⟩
    · cases hx
      exact ⟨State.chromaAt_ref href ht, State.yccAt_ref href ht⟩
  · have hrow := State.outRow_of_422 h
    exact ⟨hrow [] ▸ s.outRow_length y [], hrow⟩

/-! ## O33: rows with the chroma of the row above -/

theorem getElem?_eq_some_stripByte (stale : Nat) {row : List Byte} {i : Nat} (h : i < row.length) :
    row[i]? = some (stripByte stale row i) := by
  simp only [stripByte, List.getElem?_eq_getElem h]

theorem State.rowAbove_of_strip {s : State} {y : Nat} {above : List Byte} (hy : s.cfg.y0 s.n < y)
    (h : s.strip[y - 1 - s.cfg.y0 s.n]? = some above) : s.rowAbove y = above := by
  simp only [State.rowAbove, if_pos hy, State.stripRow, h]

/-- A row above that the strip does not have is free, and as long as a strip row (notes/assumptions/31.md). -/
theorem State.rowAbove_length {s : State} {y : Nat}
    (h : ¬ (s.cfg.y0 s.n < y ∧ y - 1 - s.cfg.y0 s.n < s.strip.length)) :
    (s.rowAbove y).length = s.cfg.pitch := by
  by_cases hy : s.cfg.y0 s.n < y
  · have hnone : s.strip[y - 1 - s.cfg.y0 s.n]? = none :=
      List.getElem?_eq_none (Nat.le_of_not_lt fun hlt => h ⟨hy, hlt⟩)
    simp [State.rowAbove, hy, State.stripRow, hnone]
  · simp [State.rowAbove, hy]

/-- Settles O33: run alone by the row above it reads, each group by its lumas and the bytes above. -/
theorem rowOf420Odd : Obligations.RowOf420Odd := by
  intro s y above hy hsub habove
  have hrow := State.outRow_of_420Odd hsub hy
  have hexec : exec (.csc420Odd y) s = .next (s.setRow (s.outRow y (s.rowAbove y))) := by
    rw [hrow]
    rfl
  have hlen := s.outRow_length y above
  refine ⟨fun hlt hstrip => ?_, fun habsent => ?_, hlen, fun k hk => ?_⟩
  · rw [State.rowAbove_of_strip hlt hstrip] at hexec
    exact hexec
  · exact ⟨s.rowAbove y, State.rowAbove_length habsent, hexec⟩
  · rw [hrow, s.row420Odd_length] at hlen
    rw [hrow, getElem?_eq_some_stripByte s.stale (row := above) (i := 4 * k + 1) (by omega),
      getElem?_eq_some_stripByte s.stale (row := above) (i := 4 * k + 3) (by omega)]
    exact ⟨s.row420Odd_getElem? y above hk (j := 0) (by decide), s.row420Odd_getElem? y above hk (by decide),
      s.row420Odd_getElem? y above hk (by decide), s.row420Odd_getElem? y above hk (by decide)⟩

end Sys2Proof.Machine
end

section
/-! An encode ends: each step of the core that is not waiting takes one off the measure `stepsLeft`
(44_orchestrator.md R196; 70_reset_and_hazards.md R256). -/

namespace Sys2Proof.Machine

/-! ## O60: the measure -/

/-- A block row takes its steps off what was left at its AWAIT. -/
theorem stepsFromAwait_eq_add {cfg : CfgRegs} {n : Nat} (h : n < cfg.nbr) :
    stepsFromAwait cfg n = rowSteps cfg + stepsFromAwait cfg (n + 1) := by
  have hrows : cfg.nbr - n = cfg.nbr - (n + 1) + 1 := by omega
  rw [stepsFromAwait, stepsFromAwait, hrows, Nat.succ_mul]
  omega

/-- The measure is 0 exactly where no command runs: what is left from AWAIT counts two steps at least. -/
theorem stepsLeft_eq_zero_iff (s : State) : stepsLeft s = 0 ↔ s.busy = false := by
  unfold stepsLeft State.busy
  cases s.fsm <;> simp [Fsm.busy, stepBound, stepsFromAwait]

/-- A running command that ends has no step left. -/
theorem stepsLeft_lt_of_ended {s t : State} (hs : s.busy = true) (ht : t.busy = false) :
    stepsLeft t < stepsLeft s := by
  rw [(stepsLeft_eq_zero_iff t).2 ht, Nat.pos_iff_ne_zero, ne_eq, stepsLeft_eq_zero_iff, hs]
  nofun

theorem stepsLeft_opened_lt {s : State} (hs : countersInRange s) (hf : s.fsm = .await)
    (hn : s.n ≠ s.cfg.nbr) : stepsLeft s.opened < stepsLeft s := by
  obtain ⟨_, hb⟩ := hs
  simp only [blockCountersInRange, hf] at hb
  obtain ⟨_, hle, _⟩ := hb
  have hrow := stepsFromAwait_eq_add (Nat.lt_of_le_of_ne hle hn)
  have hlen := s.length_readList_le
  simp only [stepsLeft, hf, State.opened, hrow, rowSteps]
  split_ifs <;> dsimp only <;> omega

theorem stepsLeft_storeRow_lt {s : State} (hf : s.fsm = .reading) (hri : s.ri < s.rlist.length)
    (r : Nat) (b : List Byte) : stepsLeft (s.storeRow r b) < stepsLeft s := by
  simp only [stepsLeft, hf, State.storeRow]
  split_ifs <;> dsimp only <;> omega

theorem stepsLeft_blockSent_lt {s : State} (hf : s.fsm = .emitting) (hc : s.c < s.cfg.nbc) :
    stepsLeft s.blockSent < stepsLeft s := by
  simp only [stepsLeft, hf, State.blockSent]
  split_ifs <;> dsimp only <;> omega

/-- A leading line that is read counts down, the last one gone leads to BEGIN (44_orchestrator.md R178). -/
theorem execStepSkip_nears_end {s t : State} (hf : s.fsm = .skip) (h : execStepSkip s = .next t) :
    t = s ∨ stepsLeft t < stepsLeft s := by
  have hbusy : s.busy = true := by rw [State.busy, hf]; rfl
  obtain ⟨_, rfl⟩ | ⟨hleft, rfl | ⟨b, u, hread, ht⟩⟩ := execStepSkip_next h
  · right
    simp only [stepsLeft, hf]
    omega
  · exact .inl rfl
  · right
    obtain ⟨src, pos, ev, rfl, _⟩ := State.streamRead_done hread
    obtain ⟨_, rfl⟩ | ⟨_, rfl⟩ := ht
    · exact stepsLeft_lt_of_ended hbusy rfl
    · have hpred : (s.skipLeft - 1#32).toNat < s.skipLeft.toNat := by bv_omega
      simp only [stepsLeft, hf]
      omega

/-- Outside SKIP every move of a running core other than waiting takes a step off the measure. -/
theorem CoreMove.nears_end {s t : State} (hs : countersInRange s) (hbusy : s.busy = true)
    (hskip : s.fsm ≠ .skip) (h : CoreMove s t) : t = s ∨ stepsLeft t < stepsLeft s := by
  have ⟨_, hb⟩ := hs
  cases h with
  | waits => exact .inl rfl
  | skipEnds hf | skipFails hf | lineSkipped hf => exact absurd hf hskip
  | preflightFails | beginFails | overflowed | completed =>
    exact .inr (stepsLeft_lt_of_ended hbusy rfl)
  | preflightPasses hf =>
    simp only [stepsLeft, stepBound, hf, State.writeEst]
    omega
  | begun hf =>
    simp only [stepsLeft, hf]
    omega
  | lastRowPassed hf =>
    simp only [stepsLeft, hf, stepsFromAwait]
    omega
  | blockRowOpens hf hn => exact .inr (stepsLeft_opened_lt hs hf hn)
  | nothingToRead hf hr =>
    simp only [blockCountersInRange, hf] at hb
    obtain ⟨_, _, _, hri, _⟩ := hb
    exact absurd hri (Nat.not_lt.2 (List.getElem?_eq_none_iff.1 hr))
  | rowRead hf hr =>
    obtain ⟨hri, _⟩ := List.getElem?_eq_some_iff.1 hr
    right
    apply stepsLeft_storeRow_lt
    exacts [hf, hri]
  | unpacked hf =>
    simp only [stepsLeft, hf, State.unpackedRows]
    omega
  | converted hf =>
    simp only [stepsLeft, hf, State.convertedRows]
    omega
  | blockSent hf =>
    simp only [blockCountersInRange, hf] at hb
    obtain ⟨_, _, hc⟩ := hb
    exact .inr (stepsLeft_blockSent_lt hf hc)

/-- Every step of a running core waits or takes a step off the measure. -/
theorem exec_instr_nears_end {s t : State} (hs : countersInRange s) (hbusy : s.busy = true)
    (h : exec s.fsm.instr s = .next t) : t = s ∨ stepsLeft t < stepsLeft s := by
  by_cases hf : s.fsm = .skip
  · rw [hf] at h
    exact execStepSkip_nears_end hf h
  · exact (exec_instr_move h).nears_end hs hbusy hf

/-- An accepted encode has the steps that the bound of its configuration counts. -/
theorem stepsLeft_startEncode {s : State} (h : s.busy = false) (m : Mode) (o : EncOp) :
    stepsLeft (startEncode m o s) = stepBound s.regs := by
  obtain ⟨hb, _⟩ | ⟨_, hs⟩ := startEncode_cases m o s
  · simp [h] at hb
  · rw [hs]; rfl

/-- Settles O60: the measure is positive while busy, starts at the bound, and each core step lowers it. -/
theorem everyStepNearsTheEnd : Obligations.EveryStepNearsTheEnd := by
  refine ⟨fun s _ => stepsLeft_eq_zero_iff s, fun s t hidle h => ?_, fun s t hs hbusy hturns hstep => ?_⟩
  · obtain h | h := h <;> cases h <;> exact stepsLeft_startEncode hidle _ _
  · rw [step_core (State.nextTurn_eq_core hturns)] at hstep
    exact exec_instr_nears_end (s := s.popTurn) hs hbusy hstep

end Sys2Proof.Machine
end

section
/-! The commands accepted and rejected (44_orchestrator.md R170-R172), the workspace estimate (R174, R175,
R195) and the checks of pre-flight (R173, R176). -/

namespace Sys2Proof.Machine

/-! ## O8, O9: commands -/

/-- Settles O8: NOP and the reserved commands by their arms, the others by their test of BUSY. -/
theorem nopAndRejectedCommands : Obligations.NopAndRejectedCommands := by
  intro s
  refine ⟨rfl, fun _ _ => rfl, fun hbusy => ⟨?_, ?_, ?_⟩⟩
  all_goals exact congrArg Host.Outcome.next (if_pos hbusy)

theorem startEncode_of_idle {s : State} (h : s.busy = false) (m : Mode) (o : EncOp) :
    startEncode m o s = s.acceptEncode m o := by
  simp only [startEncode, h, Bool.false_eq_true, if_false]

/-- Settles O9: both encode commands are `acceptEncode` with their mode and `op`. -/
theorem encodeAccepted : Obligations.EncodeAccepted := by
  intro s hidle
  exact ⟨⟨_, congrArg Host.Outcome.next (startEncode_of_idle hidle ..), rfl⟩,
    ⟨_, congrArg Host.Outcome.next (startEncode_of_idle hidle ..), rfl⟩⟩

/-! ## O10: ESTIMATE -/

/-- `valid` of 44_orchestrator.md R172, its seven conditions. -/
theorem CfgRegs.estimable_iff (cfg : CfgRegs) : cfg.estimable = true ↔
    cfg.pixfmt.toNat ≤ 5 ∧ cfg.subsamp.toNat ≤ 2 ∧ cfg.q.toNat ≤ 100 ∧ 1 ≤ cfg.w ∧ 1 ≤ cfg.h
      ∧ 1 ≤ cfg.stride ∧ cfg.stride ≤ 2 ^ 31 - 1 := by
  simp only [CfgRegs.estimable, CfgRegs.codesValid, CfgRegs.strideValid, Bool.and_eq_true,
    decide_eq_true_eq, and_assoc]

/-- Settles O10: the accepted ESTIMATE latches, completes and writes `estimateWord`. -/
theorem estimateAccepted : Obligations.EstimateAccepted := by
  intro s hidle
  have hexec : exec .estimate s = .next s.acceptEstimate := by
    simp only [exec, execEstimate, hidle, Bool.false_eq_true, if_false]
  rw [hexec]
  simp only [← CfgRegs.estimable_iff]
  rfl

/-! ## O11, O12: EST -/

/-- The stride of the defined formats (40_unpack.md R100). -/
theorem strideOf_defined {code : BitVec 3} (h : code.toNat ≤ 5) (width : Word) : strideOf code width =
    if code.toNat = 0 then width.toNat
    else if code.toNat = 1 then 5 * ((width.toNat + 3) / 4)
    else if code.toNat = 2 then 3 * ((width.toNat + 1) / 2)
    else 2 * width.toNat := by
  unfold strideOf
  split
  case h_7 => exact absurd h (by revert code; decide)
  all_goals simp [ceilDiv]

/-- The geometry of the defined subsamplings (10_state.md R32). -/
theorem geometryOf_defined {sub : BitVec 2} (h : sub.toNat ≤ 2) : geometryOf sub =
    if sub.toNat = 0 then ⟨8, 8, 3, 0⟩ else if sub.toNat = 1 then ⟨16, 8, 2, 1⟩ else ⟨16, 16, 2, 2⟩ := by
  revert sub
  unfold geometryOf
  decide

/-- EST in a geometry: the five sizes of 44_orchestrator.md R174. -/
theorem CfgRegs.est_of_geometry {cfg : CfgRegs} {g : Geometry} (h : geometryOf cfg.subsamp = g) :
    cfg.est = min (2 ^ 32 - 1) ((g.bh + 1) * cfg.stride + (g.bh + 2) * cfg.w * 2
      + g.bh * (ceilDiv cfg.w g.mw * g.mw) * g.bpp + cfg.w * 2 + cfg.w * 2) := by
  subst h
  rfl

/-- Settles O11: the stride by its format, EST by its geometry. -/
theorem estimateFormula : Obligations.EstimateFormula := by
  intro cfg
  have hstride (h : cfg.pixfmt.toNat ≤ 5) := strideOf_defined h cfg.width
  have hgeometry (h : cfg.subsamp.toNat ≤ 2) := CfgRegs.est_of_geometry (geometryOf_defined h)
  refine ⟨fun h => ?_, fun h => ?_, fun h => ?_, fun hlo hhi => ?_, fun h => ?_, fun h => ?_, fun h => ?_⟩
  iterate 3 exact (hstride (by omega)).trans (by simp [h, CfgRegs.w])
  · refine (hstride hhi).trans ?_
    rw [if_neg (by omega), if_neg (by omega), if_neg (by omega), CfgRegs.w]
  all_goals
    rw [hgeometry (by omega), h]
    simp only [ceilDiv, Nat.reduceEqDiff, if_true, if_false]
    omega

theorem ceilDiv_le_ceilDiv {a a' : Nat} (b : Nat) (h : a ≤ a') : ceilDiv a b ≤ ceilDiv a' b :=
  Nat.div_le_div_right (by omega)

/-- A wider row of a defined format has no smaller stride. -/
theorem CfgRegs.stride_le_of_w_le {cfg cfg' : CfgRegs} (hfmt : cfg.pixfmt.toNat ≤ 5)
    (heq : cfg'.pixfmt = cfg.pixfmt) (hw : cfg.w ≤ cfg'.w) : cfg.stride ≤ cfg'.stride := by
  unfold CfgRegs.stride CfgRegs.w at *
  rw [heq, strideOf_defined hfmt, strideOf_defined hfmt]
  split_ifs <;> omega

theorem CfgRegs.est_le_of_w_le {cfg cfg' : CfgRegs} (hfmt : cfg.pixfmt.toNat ≤ 5)
    (hpix : cfg'.pixfmt = cfg.pixfmt) (hsub : cfg'.subsamp = cfg.subsamp) (hw : cfg.w ≤ cfg'.w) :
    cfg.est ≤ cfg'.est := by
  have hstride := CfgRegs.stride_le_of_w_le hfmt hpix hw
  have hblocks := ceilDiv_le_ceilDiv (geometryOf cfg.subsamp).mw hw
  rw [CfgRegs.est_of_geometry rfl, CfgRegs.est_of_geometry rfl, hsub]
  gcongr

/-- Settles O12: EST does not decrease in W; for an equal W that holds both ways. -/
theorem estimateMonotone : Obligations.EstimateMonotone := by
  intro cfg cfg' hfmt _ hpix hsub
  refine ⟨CfgRegs.est_le_of_w_le hfmt hpix hsub, fun hw => ?_⟩
  exact Nat.le_antisymm (CfgRegs.est_le_of_w_le hfmt hpix hsub hw.le)
    (CfgRegs.est_le_of_w_le (hpix ▸ hfmt) hpix.symm hsub.symm hw.ge)

/-! ## O35: pre-flight -/

/-- A chain of checks: the first that fails decides. -/
theorem elim_ite_some {α β : Type} (c : Prop) [Decidable c] (e : α) (rest : Option α) (pass : β)
    (fail : α → β) :
    (if c then some e else rest).elim pass fail = if c then fail e else rest.elim pass fail := by
  split <;> rfl

/-- What pre-flight comes to once every check has passed. -/
def State.preflightPassed (s : State) : Result :=
  if s.mode = .buffer ∧ s.cfg.rangesDisjoint = false then .fault .rangesOverlap
  else if s.mode = .buffer ∧ s.rangesMapped = false then .fault .rangeNotMapped
  else .next { s.writeEst with skipLeft := s.cfg.skipLines, fsm := .skip }

theorem execStepPreflight_eq_elim (s : State) : execStepPreflight s =
    (configError s.mode s.cfg).elim
      ((resourceError s.cfg).elim s.preflightPassed fun e => .next (s.writeEst.raiseErr e))
      fun e => .next (s.raiseErr e) := by
  unfold execStepPreflight
  cases configError s.mode s.cfg with
  | some e => rfl
  | none => cases resourceError s.cfg <;> rfl

theorem bufferArgError_eq (m : Mode) (cfg : CfgRegs) : bufferArgError m cfg =
    if m = .buffer ∧ cfg.outSizeAddr = 0#32 then some .nullOutSize
    else if m = .buffer ∧ cfg.inAddr = 0#32 then some .nullInput
    else if m = .buffer ∧ cfg.outAddr = 0#32 then some .nullOutput
    else if m = .buffer ∧ cfg.outCap = 0#32 then some .zeroCapacity
    else none := by
  unfold bufferArgError
  cases m <;> simp

theorem configError_eq_elim (m : Mode) (cfg : CfgRegs) : configError m cfg =
    (bufferArgError m cfg).elim
      (if cfg.codesValid = false then some .invalidArguments
      else if m = .buffer ∧ cfg.rangesOk = false then some .invalidArguments
      else if cfg.w = 0 ∨ cfg.h = 0 then some .invalidDimensions
      else if cfg.strideValid = false then some .invalidStride
      else none) some := by
  unfold configError
  cases bufferArgError m cfg <;> rfl

theorem CfgRegs.codesValid_eq_false_iff (cfg : CfgRegs) : cfg.codesValid = false ↔
    5 < cfg.pixfmt.toNat ∨ 2 < cfg.subsamp.toNat ∨ 100 < cfg.q.toNat := by
  rw [CfgRegs.codesValid, decide_eq_false_iff_not]
  omega

theorem CfgRegs.rangesOk_eq_false_iff (cfg : CfgRegs) : cfg.rangesOk = false ↔
    2 ^ 32 < cfg.inAddr.toNat + cfg.inLen.toNat ∨ 2 ^ 32 < cfg.outAddr.toNat + cfg.outCap.toNat
      ∨ 2 ^ 32 < cfg.outSizeAddr.toNat + 4 := by
  rw [CfgRegs.rangesOk, decide_eq_false_iff_not]
  omega

theorem CfgRegs.strideValid_eq_false_iff (cfg : CfgRegs) : cfg.strideValid = false ↔
    cfg.stride < 1 ∨ 2 ^ 31 - 1 < cfg.stride := by
  rw [CfgRegs.strideValid, decide_eq_false_iff_not]
  omega

/-- Ranges each of whose addresses answers are mapped (70_reset_and_hazards.md R253, duty H2). -/
theorem rangesAccessible.mapped {s : State} (h : rangesAccessible s) (hm : s.mode = .buffer) :
    s.rangesMapped = true := by
  obtain ⟨hread, hwrite⟩ := h hm
  simp only [State.rangesMapped, Bool.and_eq_true]
  exact ⟨⟨rangeAnswers_of_answersAt fun a hlo hhi => hread a (decide_eq_true ⟨hlo, hhi⟩),
    rangeAnswers_of_answersAt fun a hlo hhi => hwrite a (.inl (decide_eq_true ⟨hlo, hhi⟩))⟩,
    rangeAnswers_of_answersAt fun a hlo hhi => hwrite a (.inr (decide_eq_true ⟨hlo, hhi⟩))⟩

/-- A launch that keeps duty H2 and passes every check goes on to SKIP. -/
theorem State.preflightPassed_of_duty {s : State}
    (h : s.mode = .buffer → s.cfg.rangesDisjoint = true ∧ s.rangesMapped = true) :
    s.preflightPassed = .next { s.writeEst with skipLeft := s.cfg.skipLines, fsm := .skip } := by
  unfold State.preflightPassed
  rw [if_neg, if_neg]
  · rintro ⟨hm, hmap⟩
    simp [h hm] at hmap
  · rintro ⟨hm, hdis⟩
    simp [h hm] at hdis

/-- Settles O35: the chain of checks, each condition in the rule's words. -/
theorem preflightChecks : Obligations.PreflightChecks := by
  intro s fail answers s1
  refine ⟨s.preflightPassed, fun hduty => State.preflightPassed_of_duty fun hm => ?_, ?_⟩
  · obtain ⟨hdis, hanswers⟩ := hduty hm
    exact ⟨hdis, rangesAccessible.mapped (fun _ => hanswers) hm⟩
  · have hexec : exec .stepPreflight s = execStepPreflight s := rfl
    rw [hexec, execStepPreflight_eq_elim, configError_eq_elim, bufferArgError_eq, resourceError]
    simp only [elim_ite_some, Option.elim_none, CfgRegs.codesValid_eq_false_iff,
      CfgRegs.rangesOk_eq_false_iff, CfgRegs.strideValid_eq_false_iff]
    rfl

end Sys2Proof.Machine
end

section
/-! The steps that ask another agent: what each leaves once its request or its engine call is answered, and
that it is answered where the agents keep their duties (44_orchestrator.md R178-R191;
70_reset_and_hazards.md R253). -/

namespace Sys2Proof.Machine

/-! ## The steps, given the answer -/

theorem execStepSkip_answered {s s1 : State} {b : List Byte} (h0 : s.skipLeft ≠ 0#32)
    (h : s.streamRead s.cfg.stride = .done (b, s1)) : execStepSkip s = .next
      (if b.length < s.cfg.stride then s1.raiseErr .skipEndOfInput
      else { s1 with skipLeft := s1.skipLeft - 1#32 }) := by
  rw [execStepSkip, if_neg h0, h]
  simp only [Io.bind]
  split_ifs <;> rfl

theorem execStepRead_answered {s s1 : State} {r : Nat} {b : List Byte} (hr : s.rlist[s.ri]? = some r)
    (h : s.streamRead s.cfg.stride = .done (b, s1)) : execStepRead s = .next (s1.storeRow r b) := by
  simp only [execStepRead, State.currentRow, hr, h]
  rfl

/-- An engine call whose writes are answered. -/
theorem State.engineCall_answered {s s1 : State} {a : EngineAnswer} {rest : List EngineAnswer}
    {event : Bool → Event} (heng : s.engine = a :: rest)
    (h : State.outWrites a.writes { s with engine := rest, events := s.events ++ [event a.ok] } = .done s1) :
    s.engineCall event = .done (a.ok, s1) := by
  simp only [State.engineCall, heng, State.log, h]
  rfl

/-- An answer that keeps duty H5 (70_reset_and_hazards.md R253). -/
theorem State.outputWithFailure_eq_false {s : State} {a : EngineAnswer} {rest : List EngineAnswer}
    (heng : s.engine = a :: rest) (h : a.ok = false → a.writes = []) : s.outputWithFailure = false := by
  simp only [State.outputWithFailure, heng]
  cases hok : a.ok with
  | true => rfl
  | false => rw [h hok]; rfl

theorem execStepBegin_answered {s s1 : State} {ok : Bool} (hduty : s.outputWithFailure = false)
    (h : s.engineCall (beginEvent s.cfg) = .done (ok, s1)) : execStepBegin s = .next
      (if ok then { s1 with n := 0, engineOpen := true, fsm := .await } else s1.raiseErr .engineInit) := by
  rw [execStepBegin, hduty, h]
  cases ok <;> rfl

theorem execStepEmit_answered {s s1 : State} {ok : Bool}
    (h : s.engineCall (fun _ => .engineAddBlock s.block s.cfg.pitch) = .done (ok, s1)) :
    execStepEmit s = .next s1.blockSent := by
  rw [execStepEmit, h]
  rfl

theorem execStepFinish_of_stream {s s1 : State} {ok : Bool}
    (h : s.engineCall (fun _ => .engineEnd) = .done (ok, s1)) (hm : s1.mode = .stream) :
    execStepFinish s = .next s1.complete := by
  rw [execStepFinish, h]
  simp only [Io.bind, hm, Io.outcome]

theorem execStepFinish_of_buffer {s s1 t : State} {ok : Bool}
    (h : s.engineCall (fun _ => .engineEnd) = .done (ok, s1)) (hm : s1.mode = .buffer)
    (hr : s1.bufferResult = .done t) : execStepFinish s = .next t := by
  rw [execStepFinish, h]
  simp only [Io.bind, hm, hr, Io.outcome]

/-! ## O37: SKIP -/

theorem toNat_sub_one_add_one {v : Word} (h : v ≠ 0#32) : (v - 1#32).toNat + 1 = v.toNat := by
  bv_omega

/-- Settles O37: a request leaves the count of lines and the running command alone. -/
theorem skipStep : Obligations.SkipStep := by
  intro s
  refine ⟨fun h0 => if_pos h0, fun h0 b s1 hread => ?_⟩
  have hexec : exec .stepSkip s = _ := execStepSkip_answered h0 hread
  rw [hexec]
  obtain ⟨src, pos, ev, rfl, _⟩ := State.streamRead_done hread
  refine ⟨fun hshort => ?_, fun hfull => ⟨_, toNat_sub_one_add_one h0, ?_⟩⟩
  · rw [if_pos hshort]
    rfl
  · rw [if_neg hfull.not_lt]

/-! ## O38: BEGIN -/

/-- The LAYOUT code of a defined subsampling is its code (10_state.md R32). -/
theorem CfgRegs.layout_eq {cfg : CfgRegs} (h : cfg.subsamp.toNat ≤ 2) : cfg.layout = cfg.subsamp.toNat := by
  unfold CfgRegs.layout CfgRegs.geometry
  generalize cfg.subsamp = sub at h
  revert sub
  unfold geometryOf
  decide

/-- Settles O38: the call's answer decides, its writes leave the running command alone. -/
theorem beginStep : Obligations.BeginStep := by
  intro s s1 a rest heng hduty hwrites
  have hexec : exec .stepBegin s = _ := execStepBegin_answered
    (State.outputWithFailure_eq_false heng hduty) (State.engineCall_answered heng hwrites)
  rw [hexec]
  obtain ⟨mem, sink, ev, pos, ovf, rfl⟩ := State.outWrites_done _ hwrites
  refine ⟨CfgRegs.layout_eq, fun hok => ?_, fun hfail => ?_⟩
  · rw [hok]
    rfl
  · rw [hfail]
    rfl

/-! ## O40: READ -/

/-- Settles O40: the row is stored zero-filled, a request leaves the raw rows and the read list alone. -/
theorem readStep : Obligations.ReadStep := by
  intro s s1 r b hr hread
  refine ⟨_, execStepRead_answered hr hread, ?_, fun q => ?_⟩
  all_goals obtain ⟨src, pos, ev, rfl, _⟩ := State.streamRead_done hread
  · rfl
  · exact Table.get_put ..

/-! ## O43: EMIT -/

/-- The block cut from a strip that has its BH rows (44_orchestrator.md R187). -/
theorem State.block_eq_map {s : State} (h : s.strip.length = s.cfg.bh) : s.block =
    s.strip.map fun row => (row.drop (s.c * (s.cfg.mw * s.cfg.bpp))).take (s.cfg.mw * s.cfg.bpp) := by
  refine List.ext_getElem (by simp [State.block, h]) fun i hi _ => ?_
  have hstrip : i < s.strip.length := by simpa [State.block, h] using hi
  simp [State.block, State.blockRow, State.stripRow, List.getElem?_eq_getElem hstrip]

/-- Block columns below NBC end within the row. -/
theorem CfgRegs.block_end_le_pitch {cfg : CfgRegs} {c : Nat} (h : c < cfg.nbc) :
    c * (cfg.mw * cfg.bpp) + cfg.mw * cfg.bpp ≤ cfg.pitch :=
  calc c * (cfg.mw * cfg.bpp) + cfg.mw * cfg.bpp = (c + 1) * cfg.mw * cfg.bpp := by ring
    _ ≤ cfg.wpad * cfg.bpp := Nat.mul_le_mul_right _ (Nat.mul_le_of_le_div _ _ _ h)

/-- Settles O43: the block is the model's own, and the call's writes leave the counters alone. -/
theorem emitStep : Obligations.EmitStep := by
  intro s s1 a rest block heng hstrip hpitch hc hblock hwrites
  rw [← State.block_eq_map hstrip] at hblock
  subst hblock
  have hexec : exec .stepEmit s = .next s1.blockSent :=
    execStepEmit_answered (State.engineCall_answered heng hwrites)
  rw [hexec]
  obtain ⟨mem, sink, ev, pos, ovf, rfl⟩ := State.outWrites_done _ hwrites
  refine ⟨fun row hrow => ?_, fun hmore => ?_, fun hlast => ?_⟩
  · rw [State.block_eq_map hstrip] at hrow
    obtain ⟨full, hfull, rfl⟩ := List.mem_map.1 hrow
    have hend := CfgRegs.block_end_le_pitch hc
    rw [List.length_take, List.length_drop, hpitch full hfull]
    omega
  · exact congrArg Host.Outcome.next (if_neg hmore)
  · exact congrArg Host.Outcome.next (if_pos hlast)

/-! ## O44: FINISH -/

theorem State.bufferResult_of_ovf {s : State} (h : s.ovf = true) :
    s.bufferResult = .done (s.raiseErr .outputOverflow) :=
  if_pos h

/-- The bytes of a word, by number (20_memory.md R54). -/
theorem leBytes_getElem (v : Word) {i : Nat} (h : i < (leBytes v).length) :
    (leBytes v)[i] = v.extractLsb' (8 * i) 8 := by
  have hi : i < 4 := h
  interval_cases i <;> rfl

/-- Settles O44: the result of each mode; the OUT_SIZE word by the laws of `storeBytes`. -/
theorem finishStep : Obligations.FinishStep := by
  intro s s1 a rest heng hwrites
  have hcall := State.engineCall_answered (event := fun _ => .engineEnd) heng hwrites
  have hkept := State.engineCall_portsKept rfl hcall
  have hmode := hkept.mode_eq
  refine ⟨fun hm => execStepFinish_of_stream hcall (hmode.trans hm), fun hm hovf => ?_,
    fun hm hovf hword => ?_⟩
  · have hexec : exec .stepFinish s = _ :=
      execStepFinish_of_buffer hcall (hmode.trans hm) (State.bufferResult_of_ovf hovf)
    rw [hexec]
    obtain ⟨mem, sink, ev, pos, ovf, rfl⟩ := State.outWrites_done _ hwrites
    rfl
  · obtain ⟨t, ht⟩ := State.bufferResult_answers (s := s1)
      (by simpa only [State.writable, hkept.regions_eq, hkept.cfg_eq] using hword)
    refine ⟨t, execStepFinish_of_buffer hcall (hmode.trans hm) ht, ?_⟩
    rw [← hkept.cfg_eq]
    obtain ⟨hfull, _⟩ | ⟨_, m, hstore, rfl⟩ := State.bufferResult_done ht
    · simp [hovf] at hfull
    · refine ⟨rfl, fun i hi => ?_, fun addr haddr => ?_⟩
      · exact (storeBytes_byteAt_stored _ _ _ _ _ _ i hstore hi).trans (leBytes_getElem ..)
      · have hbyte := storeBytes_byteAt_other _ _ _ _ _ _ addr hstore haddr
        exact ⟨hbyte, State.readByte_congr rfl hbyte⟩

/-! ## O45: the answers come where the duties are kept -/

/-- A request is answered by a source within duty H3, or from an input range that is mapped. -/
theorem State.streamRead_completes {s : State} {n : Nat}
    (hsource : s.mode = .stream → ∃ (b : List Byte) (more : List (List Byte)),
      s.source = b :: more ∧ b.length ≤ n)
    (hacc : rangesAccessible s) : ∃ b t, s.streamRead n = .done (b, t) := by
  cases hm : s.mode with
  | stream =>
    obtain ⟨b, more, hs, hb⟩ := hsource hm
    exact ⟨b, _, State.streamRead_of_stream hm hs hb⟩
  | buffer =>
    obtain ⟨hread, _⟩ := hacc hm
    by_cases hk : min n (s.cfg.inLen.toNat - s.inPos.toNat) = 0
    · exact ⟨_, _, State.streamRead_of_used_up hm hk⟩
    · have hbytes := State.readBytes_answers s (min n (s.cfg.inLen.toNat - s.inPos.toNat))
        (s.cfg.inAddr.toNat + s.inPos.toNat) fun i hi => hread _ (decide_eq_true (by omega))
      simp only [State.streamRead, hm, State.streamReadBuffer, if_neg hk, hbytes]
      exact ⟨_, _, rfl⟩

/-- Output writes of buffer mode complete where the output range is mapped. -/
theorem State.outWrites_completes_of_buffer (ws : List (List Byte)) {s : State} (hm : s.mode = .buffer)
    (hacc : rangesAccessible s) : ∃ t, State.outWrites ws s = .done t := by
  induction ws generalizing s with
  | nil => exact ⟨s, rfl⟩
  | cons b bs ih =>
    obtain ⟨_, hwrite⟩ := hacc hm
    obtain ⟨u, hu⟩ := State.outWriteBuffer_answers (b := b) (s := s) fun i hi =>
      hwrite _ (.inl (decide_eq_true (by omega)))
    have hkept := State.outWriteBuffer_portsKept hm hu
    obtain ⟨t, ht⟩ := ih (hkept.mode_eq.trans hm) (hkept.keeps_accessible hacc)
    refine ⟨t, ?_⟩
    simp only [State.outWrites, State.outWrite, hm, hu]
    exact ht

/-- Output writes are answered by a sink within duty H4, or stored in an output range that is mapped. -/
theorem State.outWrites_completes {ws : List (List Byte)} {s : State}
    (hsink : s.mode = .stream → ∃ ks more : List Nat, s.sink = ks ++ more
      ∧ List.Forall₂ (fun (b : List Byte) (k : Nat) => k ≤ b.length) ws ks)
    (hacc : rangesAccessible s) : ∃ t, State.outWrites ws s = .done t := by
  cases hm : s.mode with
  | stream =>
    obtain ⟨ks, more, hs, hle⟩ := hsink hm
    exact ⟨_, streamOutputForwarded ws ks more s hm hs hle⟩
  | buffer => exact State.outWrites_completes_of_buffer ws hm hacc

/-- An engine call completes with the engine's oldest answer. -/
theorem State.engineCall_completes {s : State} {a : EngineAnswer} {rest : List EngineAnswer}
    (heng : s.engine = a :: rest)
    (hsink : s.mode = .stream → ∃ ks more : List Nat, s.sink = ks ++ more
      ∧ List.Forall₂ (fun (b : List Byte) (k : Nat) => k ≤ b.length) a.writes ks)
    (hacc : rangesAccessible s) (event : Bool → Event) :
    ∃ mem sink ev pos ovf, s.engineCall event = .done (a.ok, { s with
      mem := mem, sink := sink, engine := rest, events := ev, outPos := pos, ovf := ovf }) := by
  obtain ⟨t, ht⟩ := State.outWrites_completes
    (s := { s with engine := rest, events := s.events ++ [event a.ok] }) hsink hacc
  have hcall := State.engineCall_answered heng ht
  obtain ⟨mem, sink, ev, pos, ovf, rfl⟩ := State.outWrites_done _ ht
  exact ⟨mem, sink, ev, pos, ovf, hcall⟩

theorem State.blockSent_c (s : State) : s.blockSent.c = s.c + 1 := by
  unfold State.blockSent
  split <;> rfl

theorem State.blockSent_engine (s : State) : s.blockSent.engine = s.engine := by
  unfold State.blockSent
  split <;> rfl

/-- An answered SKIP goes to BEGIN, fails with error 5, or counts a line. -/
theorem execStepSkip_completes {s : State}
    (hread : ∃ b t, s.streamRead s.cfg.stride = .done (b, t)) : ∃ t, execStepSkip s = .next t
      ∧ (s.skipLeft = 0#32 → t.fsm = .begin)
      ∧ (s.skipLeft ≠ 0#32 → (t.fsm = .error ∧ t.errCode = .skipEndOfInput)
          ∨ (t.fsm = s.fsm ∧ t.skipLeft.toNat + 1 = s.skipLeft.toNat)) := by
  by_cases h0 : s.skipLeft = 0#32
  · exact ⟨_, if_pos h0, fun _ => rfl, fun h => absurd h0 h⟩
  · obtain ⟨b, u, hu⟩ := hread
    refine ⟨_, execStepSkip_answered h0 hu, fun h => absurd h h0, fun _ => ?_⟩
    obtain ⟨src, pos, ev, rfl, _⟩ := State.streamRead_done hu
    split_ifs
    · exact .inl ⟨rfl, rfl⟩
    · exact .inr ⟨rfl, toNat_sub_one_add_one h0⟩

/-- An answered FINISH ends the encode, in buffer mode with its result. -/
theorem execStepFinish_completes {s s1 : State} {ok : Bool}
    (hcall : s.engineCall (fun _ => .engineEnd) = .done (ok, s1)) (hacc : rangesAccessible s) :
    ∃ t, execStepFinish s = .next t ∧ ((t.fsm = .done ∧ t.done = true)
      ∨ (s.mode = .buffer ∧ t.fsm = .error ∧ t.errCode = .outputOverflow)) := by
  have hkept := State.engineCall_portsKept rfl hcall
  have hmode := hkept.mode_eq
  cases hm : s.mode with
  | stream => exact ⟨_, execStepFinish_of_stream hcall (hmode.trans hm), .inl ⟨rfl, rfl⟩⟩
  | buffer =>
    obtain ⟨_, hwrite⟩ := hkept.keeps_accessible hacc (hmode.trans hm)
    obtain ⟨t, ht⟩ := State.bufferResult_answers (s := s1) fun i hi =>
      hwrite _ (.inr (decide_eq_true (by omega)))
    refine ⟨t, execStepFinish_of_buffer hcall (hmode.trans hm) ht, ?_⟩
    obtain ⟨_, rfl⟩ | ⟨_, m, _, rfl⟩ := State.bufferResult_done ht
    · exact .inr ⟨rfl, rfl, rfl⟩
    · exact .inl ⟨rfl, rfl⟩

/-- Settles O45: the request and the engine call complete, and each step with its answer. -/
theorem answeredStepsComplete : Obligations.AnsweredStepsComplete := by
  intro s a rest heng hduty hstream hbuffer
  have hacc : rangesAccessible s := fun hm => (hbuffer hm).2
  have hread := State.streamRead_completes (fun hm => (hstream hm).1) hacc
  have hcall := State.engineCall_completes heng (fun hm => (hstream hm).2) hacc
  refine ⟨execStepSkip_completes hread, ?_, fun hri => ?_, ?_, ?_⟩
  · obtain ⟨mem, sink, ev, pos, ovf, hbegin⟩ := hcall (beginEvent s.cfg)
    refine ⟨_, execStepBegin_answered (State.outputWithFailure_eq_false heng hduty) hbegin,
      fun hok => ?_, fun hfail => ?_⟩
    · rw [hok]; rfl
    · rw [hfail]; exact ⟨rfl, rfl⟩
  · obtain ⟨b, u, hu⟩ := hread
    refine ⟨_, execStepRead_answered (List.getElem?_eq_getElem hri) hu, ?_⟩
    obtain ⟨src, pos, ev, rfl, _⟩ := State.streamRead_done hu
    rfl
  · obtain ⟨mem, sink, ev, pos, ovf, hemit⟩ := hcall fun _ => .engineAddBlock s.block s.cfg.pitch
    exact ⟨_, execStepEmit_answered hemit, State.blockSent_c _, State.blockSent_engine _⟩
  · obtain ⟨mem, sink, ev, pos, ovf, hend⟩ := hcall fun _ => .engineEnd
    exact execStepFinish_completes hend hacc

end Sys2Proof.Machine
end

section
/-! The block-row steps of the core's own: AWAIT, UNPACK and DEMOSAIC (44_orchestrator.md R181-R185). -/

namespace Sys2Proof.Machine

/-! ## O39: AWAIT -/

theorem pairwise_rowsFrom (a b : Nat) : (rowsFrom a b).Pairwise (· < ·) :=
  List.pairwise_map.2 (List.pairwise_lt_range.imp fun h => Nat.add_lt_add_left h a)

/-- The read list rises: the rows of the block row, then the first of the next (44_orchestrator.md R181). -/
theorem State.pairwise_readList (s : State) : s.readList.Pairwise (· < ·) := by
  refine List.pairwise_append.2 ⟨pairwise_rowsFrom _ _, ?_, fun r hr r' hr' => ?_⟩
  · split <;> simp
  · obtain ⟨_, hlast⟩ := (mem_rowsFrom ..).1 hr
    split at hr'
    · rwa [List.mem_singleton.1 hr']
    · cases hr'

/-- Settles O39: the read list by its members, the restored rows by `restoredWindow`. -/
theorem awaitStep : Obligations.AwaitStep := by
  intro s
  refine ⟨fun hn => if_pos hn, fun hn => ⟨s.opened, if_neg hn, rfl, fun r => ?_, s.pairwise_readList,
    fun _ => State.restoredWindow_look, fun _ => State.restoredWindow_carry⟩⟩
  rw [← s.firstRow_eq]
  exact s.mem_readList r

/-! ## O41: UNPACK -/

/-- The unpacker that FORMAT selects computes the row that STEP_UNPACK unpacks (30_encoding.md R79). -/
theorem exec_decodeUnpack {s : State} (h : s.cfg.pixfmt.toNat ≤ 5) (b : List Byte) :
    exec (decodeUnpack s.cfg.format b) s = .next (s.setUnpacked (unpackRow s.cfg s.stale b)) := by
  have hcode : s.cfg.pixfmt = 0#3 ∨ s.cfg.pixfmt = 1#3 ∨ s.cfg.pixfmt = 2#3 ∨ s.cfg.pixfmt = 3#3
      ∨ s.cfg.pixfmt = 4#3 ∨ s.cfg.pixfmt = 5#3 := by bv_omega
  have hfield : pixfmtField s.cfg.format = s.cfg.pixfmt := rfl
  obtain h | h | h | h | h | h := hcode <;>
    simp only [decodeUnpack, unpackRow, hfield, h] <;> rfl

/-- The black-level operation that FORMAT and BL select, in either form, gives the corrected row
(41_black_level.md R120-R122). -/
theorem exec_decodeBlackLevel (s : State) (twoLane : Bool) (u : List Sample) :
    exec (decodeBlackLevel s.cfg.format s.cfg.bl twoLane u) s
      = .next (s.setCorrected (blcRow s.cfg u)) := by
  unfold decodeBlackLevel blcRow CfgRegs.blEn
  split_ifs
  · rfl
  · exact exec_blcSub2_eq_blcSub u s
  · rfl

/-- Settles O41: the window row by row, the two units run alone giving the same corrected row. -/
theorem unpackStep : Obligations.UnpackStep := by
  intro s hfmt
  refine ⟨s.unpackedRows, rfl, rfl, fun r hr => ?_, fun r b twoLane i j t1 t2 hr hb hi h1 hj h2 => ?_⟩
  · exact (s.unpackInto_get r).trans (if_neg hr)
  · have hrow : s.rawRow r = b := by simp only [State.rawRow, hb]
    cases hi
    rw [exec_decodeUnpack hfmt] at h1
    cases h1
    cases hj
    cases (exec_decodeBlackLevel (s.setUnpacked (unpackRow s.cfg s.stale b)) twoLane _).symm.trans h2
    refine (s.unpackInto_get r).trans ((if_pos hr).trans ?_)
    rw [hrow]
    rfl

/-! ## O42: DEMOSAIC -/

theorem State.outRow_of_reserved {s : State} (h : s.cfg.subsamp.toNat = 3) (y : Nat) (above : List Byte) :
    s.outRow y above = (List.range s.cfg.pitch).map (Config.reservedOut y) := by
  unfold State.outRow
  split
  case h_4 => rfl
  all_goals simp_all

/-- Only an odd row of 4:2:0 takes anything from the row above it (43_color_convert.md R157, R158). -/
theorem State.outRow_congr_above {s : State} {y : Nat} (h : s.cfg.subsamp.toNat = 2 → y % 2 = 0)
    (above above' : List Byte) : s.outRow y above = s.outRow y above' := by
  obtain h0 | h1 | h2 | h3 : s.cfg.subsamp.toNat = 0 ∨ s.cfg.subsamp.toNat = 1
    ∨ s.cfg.subsamp.toNat = 2 ∨ s.cfg.subsamp.toNat = 3 := by omega
  · rw [State.outRow_of_444 h0, State.outRow_of_444 h0]
  · rw [State.outRow_of_422 (.inl h1), State.outRow_of_422 (.inl h1)]
  · rw [State.outRow_of_422 (.inr ⟨h2, h h2⟩), State.outRow_of_422 (.inr ⟨h2, h h2⟩)]
  · rw [State.outRow_of_reserved h3, State.outRow_of_reserved h3]

/-- In 4:2:0 a block row begins at an even row (10_state.md R32). -/
theorem CfgRegs.y0_even {cfg : CfgRegs} (h : cfg.subsamp.toNat = 2) (n : Nat) : cfg.y0 n % 2 = 0 := by
  have hsub : cfg.subsamp = 2#2 := BitVec.eq_of_toNat_eq h
  simp only [CfgRegs.y0, CfgRegs.bh, CfgRegs.geometry, hsub, geometryOf]
  omega

/-- Each strip row is made from the one above it (44_orchestrator.md R184). -/
theorem State.outRows_succ (s : State) (k : Nat) : s.outRows (k + 1) =
    s.outRows k ++ [s.outRow (s.cfg.y0 s.n + k) (((s.outRows k).getLast?).getD (s.stripRow 0))] := by
  rw [State.outRows]
  cases (s.outRows k).getLast? <;> rfl

theorem State.outRows_getElem?_zero (s : State) {k : Nat} (hk : 0 < k) (above : List Byte) :
    (s.outRows k)[0]? = some (s.outRow (s.cfg.y0 s.n) above) := by
  induction k, hk using Nat.le_induction with
  | base => exact congrArg some (State.outRow_congr_above (CfgRegs.y0_even · s.n) _ _)
  | succ k hk ih => rw [s.outRows_succ, List.getElem?_append_left (by rwa [s.outRows_length]), ih]

theorem State.outRows_getElem?_succ {s : State} {k i : Nat} {above : List Byte} (hi : i + 1 < k)
    (h : (s.outRows k)[i]? = some above) :
    (s.outRows k)[i + 1]? = some (s.outRow (s.cfg.y0 s.n + i + 1) above) := by
  induction k with
  | zero => omega
  | succ k ih =>
    have hlen := s.outRows_length k
    rw [s.outRows_succ, List.getElem?_append_left (by omega)] at h
    rw [s.outRows_succ]
    obtain hlt | rfl : i + 1 < k ∨ i + 1 = k := by omega
    · rw [List.getElem?_append_left (by omega), ih hlt h]
    · have hlast : (s.outRows (i + 1)).getLast? = some above := by
        rw [List.getLast?_eq_getElem?, hlen]
        exact h
      rw [hlast, List.getElem?_append_right hlen.le, hlen, Nat.sub_self]
      rfl

/-- The real rows of the strip. -/
theorem State.newStrip_getElem?_of_lt {s : State} {i : Nat} (h : i < s.cfg.y1 s.n - s.cfg.y0 s.n) :
    s.newStrip[i]? = (s.outRows (s.cfg.y1 s.n - s.cfg.y0 s.n))[i]? :=
  List.getElem?_append_left (by rwa [s.outRows_length])

/-- The padding rows of the strip are the last real row. -/
theorem State.newStrip_getElem?_of_padding {s : State} {i : Nat} (hrows : s.cfg.y0 s.n < s.cfg.y1 s.n)
    (hlo : s.cfg.y1 s.n - s.cfg.y0 s.n ≤ i) (hhi : i < s.cfg.bh) :
    s.newStrip[i]? = s.newStrip[s.cfg.y1 s.n - s.cfg.y0 s.n - 1]? := by
  rw [State.newStrip_getElem?_of_lt (i := s.cfg.y1 s.n - s.cfg.y0 s.n - 1) (by omega)]
  have hlen := s.outRows_length (s.cfg.y1 s.n - s.cfg.y0 s.n)
  simp only [State.newStrip]
  generalize s.outRows (s.cfg.y1 s.n - s.cfg.y0 s.n) = rows at hlen ⊢
  rw [← hlen, ← List.getLast?_eq_getElem?]
  cases hlast : rows.getLast? with
  | none => simp [List.getLast?_eq_none_iff.1 hlast] at hlen; omega
  | some last =>
    rw [List.getElem?_append_right (by omega), List.getElem?_replicate, if_pos (by omega)]

/-- A written window row is read as it stands. -/
theorem State.winRow_eq {s : State} {r : Nat} {row : List Sample} (h : Table.get r s.win = some row)
    (hlen : row.length = s.cfg.w) : s.winRow r = row := by
  refine List.ext_getElem (by rw [s.length_winRow, hlen]) fun x _ hx => ?_
  simp only [State.winRow, State.winSample, h, List.getElem_map, List.getElem_range,
    List.getElem?_eq_getElem hx]

/-- Settles O42: the strip by its real and its padding rows, the saved rows by the window. -/
theorem demosaicStep : Obligations.DemosaicStep := by
  intro s hrows
  have hy1 : s.cfg.y1 s.n = min (s.cfg.y0 s.n + s.cfg.bh) s.cfg.h := rfl
  obtain ⟨hlen, _⟩ := s.newStrip_shape (by omega) (by omega)
  refine ⟨s.convertedRows, rfl, rfl, hlen, fun above => ?_, fun i above hi habove => ?_,
    fun i hlo hhi => ?_, fun row hrow hw => ?_, fun row hnext hrow hw => ?_, fun hlast => ?_⟩
  · exact (State.newStrip_getElem?_of_lt (by omega)).trans
      (s.outRows_getElem?_zero (by omega) above)
  · refine (State.newStrip_getElem?_of_lt (by omega)).trans ?_
    exact State.outRows_getElem?_succ (by omega)
      ((State.newStrip_getElem?_of_lt (by omega)).symm.trans habove)
  · exact State.newStrip_getElem?_of_padding hrows (by omega) hhi
  · exact congrArg some (State.winRow_eq hrow hw)
  · exact (if_pos hnext).trans (congrArg some (State.winRow_eq hrow hw))
  · exact if_neg hlast.not_gt

end Sys2Proof.Machine
end

section
/-! The error record: what an error entry writes, and that nothing else writes it (60_exceptions.md R222;
10_state.md R34). -/

namespace Sys2Proof.Machine

/-! ## O48: the error record -/

/-- The error record (10_state.md R34). -/
def State.errorRecord (s : State) : ErrCode × EncOp × Fsm := (s.errCode, s.errOp, s.errState)

/-- What an error entry copies into the record, and what it has to leave as it is (60_exceptions.md R222). -/
def State.entryView (s : State) : EncOp × Fsm × Bool × Word × Word × CfgRegs :=
  (s.op, s.fsm, s.done, s.outSize, s.progress, s.cfg)

/-- What one instruction can do to the error record: nothing, or an error entry as its last act, whatever
the requests and the engine call before it have changed. -/
inductive RecordMove (s : State) : State → Prop
  | kept {t : State} (h : t.errorRecord = s.errorRecord) : RecordMove s t
  | raised {s1 : State} {e : ErrCode} (he : e ≠ .none) (hview : s1.entryView = s.entryView) :
      RecordMove s (s1.raiseErr e)

/-! ### The host and the reserved codes -/

/-- No host access and no command writes the record, ESTIMATE or a rejected one included. -/
theorem HostMove.recordMove {s t : State} (h : HostMove s t) : RecordMove s t :=
  .kept (by cases h <;> rfl)

theorem reservedCode_recordMove (s : State) : RecordMove s (reservedCode s) := by
  obtain h | ⟨_, ⟨e, he, h⟩ | h⟩ := reservedCode_cases s <;> rw [h]
  · exact .kept rfl
  · exact .raised (preflightCode_of_bufferArgError he).1 rfl
  · exact .raised nofun rfl

/-! ### The orchestrator's steps -/

theorem execStepPreflight_recordMove {s t : State} (h : execStepPreflight s = .next t) :
    RecordMove s t := by
  obtain ⟨e, he, rfl⟩ | ⟨e, _, he, rfl⟩ | ⟨_, _, _, rfl⟩ := execStepPreflight_next h
  · exact .raised (preflightCode_of_configError he).1 rfl
  · exact .raised (preflightCode_of_resourceError (m := s.mode) he).1 rfl
  · exact .kept rfl

theorem execStepSkip_recordMove {s t : State} (h : execStepSkip s = .next t) : RecordMove s t := by
  obtain ⟨_, rfl⟩ | ⟨_, rfl | ⟨b, s1, hread, ht⟩⟩ := execStepSkip_next h
  · exact .kept rfl
  · exact .kept rfl
  · obtain ⟨src, pos, ev, rfl, _⟩ := State.streamRead_done hread
    obtain ⟨_, rfl⟩ | ⟨_, rfl⟩ := ht
    · exact .raised nofun rfl
    · exact .kept rfl

theorem execStepBegin_recordMove {s t : State} (h : execStepBegin s = .next t) : RecordMove s t := by
  obtain rfl | ⟨ok, s1, hcall, ht⟩ := execStepBegin_next h
  · exact .kept rfl
  · obtain ⟨mem, sink, eng, ev, pos, ovf, rfl⟩ := State.engineCall_frame hcall
    obtain ⟨_, rfl⟩ | ⟨_, rfl⟩ := ht
    · exact .kept rfl
    · exact .raised nofun rfl

theorem execStepAwait_recordMove {s t : State} (h : execStepAwait s = .next t) : RecordMove s t := by
  unfold execStepAwait at h
  split at h <;> cases h <;> exact .kept rfl

theorem execStepRead_recordMove {s t : State} (h : execStepRead s = .next t) : RecordMove s t := by
  obtain ⟨_, rfl⟩ | rfl | ⟨r, b, s1, _, hread, rfl⟩ := execStepRead_next h
  · exact .kept rfl
  · exact .kept rfl
  · obtain ⟨src, pos, ev, rfl, _⟩ := State.streamRead_done hread
    exact .kept rfl

theorem State.blockSent_errorRecord (s : State) : s.blockSent.errorRecord = s.errorRecord := by
  unfold State.blockSent
  split <;> rfl

theorem execStepEmit_recordMove {s t : State} (h : execStepEmit s = .next t) : RecordMove s t := by
  obtain rfl | ⟨ok, s1, hcall, rfl⟩ := execStepEmit_next h
  · exact .kept rfl
  · obtain ⟨mem, sink, eng, ev, pos, ovf, rfl⟩ := State.engineCall_frame hcall
    exact .kept (State.blockSent_errorRecord _)

theorem execStepFinish_recordMove {s t : State} (h : execStepFinish s = .next t) : RecordMove s t := by
  obtain rfl | ⟨ok, s1, hcall, ht⟩ := execStepFinish_next h
  · exact .kept rfl
  · obtain ⟨mem, sink, eng, ev, pos, ovf, rfl⟩ := State.engineCall_frame hcall
    obtain ⟨_, rfl⟩ | ⟨_, hresult⟩ := ht
    · exact .kept rfl
    · obtain ⟨_, rfl⟩ | ⟨_, m, _, rfl⟩ := State.bufferResult_done hresult
      · exact .raised nofun rfl
      · exact .kept rfl

/-! ### Every instruction -/

theorem exec_recordMove {i : Instr} {s t : State} (h : exec i s = .next t) : RecordMove s t := by
  cases i with
  | nop => exact (presentCommand_move (data := 0#32) h).recordMove
  | encodeStream => exact (presentCommand_move (data := 1#32) h).recordMove
  | encodeBuffer => exact (presentCommand_move (data := 2#32) h).recordMove
  | estimate => exact (presentCommand_move (data := 3#32) h).recordMove
  | cmdReserved => cases h; exact HostMove.rejected.recordMove
  | hostRead => exact (execHostRead_move h).recordMove
  | hostWrite => exact (execHostWrite_move h).recordMove
  | pixfmtReserved | subsampReserved => cases h; exact reservedCode_recordMove s
  | stepPreflight => exact execStepPreflight_recordMove h
  | stepSkip => exact execStepSkip_recordMove h
  | stepBegin => exact execStepBegin_recordMove h
  | stepAwait => exact execStepAwait_recordMove h
  | stepRead => exact execStepRead_recordMove h
  | stepEmit => exact execStepEmit_recordMove h
  | stepFinish => exact execStepFinish_recordMove h
  | stepUnpack | stepDemosaic | wait => cases h; exact .kept rfl
  | unpackRaw8 | unpackRaw10p | unpackRaw12p | unpackRaw10 | unpackRaw12 | unpackRaw16
  | blcBypass | blcSub | blcSub2 | cfaColor | dmR | dmB | dmGRrow | dmGBrow | wbNorm
  | cscPixel | pairChroma | ref | csc444 | csc422 | csc420Even | csc420Odd | toneLut =>
    cases h
    exact .kept rfl

/-- Settles O48: an instruction keeps the record, or ends in `raiseErr` from a state that still has the
command, the state code and the results it started with. -/
theorem onlyErrorEntryWritesRecord : Obligations.OnlyErrorEntryWritesRecord := by
  intro i s t h
  cases exec_recordMove h with
  | kept hrecord =>
    simp only [State.errorRecord, Prod.mk.injEq] at hrecord
    exact .inl hrecord
  | raised he hview =>
    simp only [State.entryView, Prod.mk.injEq] at hview
    obtain ⟨hop, hfsm, hdone, hsize, hprogress, hcfg⟩ := hview
    exact .inr ⟨he, hop, hfsm, rfl, rfl, hdone, hsize, hprogress, hcfg, List.getLast?_concat⟩

end Sys2Proof.Machine
end

section
/-! Reset asserted by the platform (70_reset_and_hazards.md R250): the core takes its reset values, the bus
agents go on. -/

namespace Sys2Proof.Machine

/-! ## O7: reset in any state -/

/-- A reset turn runs no instruction: it asserts reset on the state with the turn taken. -/
theorem step_reset {s : State} (h : s.nextTurn = .reset) : step s = .next s.popTurn.assertReset := by
  simp only [step, h, presentedBy, environmentTurn]

theorem State.abandonsBuffer_iff (s : State) :
    s.abandonsBuffer = true ↔ s.busy = true ∧ s.mode = .buffer := by
  simp only [State.abandonsBuffer, Bool.and_eq_true, decide_eq_true_eq]

/-- Where reset leaves the byte it leaves the read too: the platform's map goes on. -/
theorem State.bus_assertReset {s : State} {a : Nat}
    (h : ¬ (s.busy = true ∧ s.mode = .buffer ∧ s.cfg.inOutput a = true)) :
    s.assertReset.byteAt a = s.byteAt a ∧ s.assertReset.readByte a = s.readByte a := by
  have hbyte : s.assertReset.byteAt a = s.byteAt a :=
    s.byteAt_assertReset a (by rwa [s.abandonsBuffer_iff, and_assoc])
  exact ⟨hbyte, State.readByte_congr s.assertReset_regions hbyte⟩

/-- Settles O7: the next state is `assertReset`, whose laws give the core's fields; taking the turn off the
list changes nothing that bus memory is read from. -/
theorem platformReset : Obligations.PlatformReset := by
  intro s rest hturns
  have hstep : step s = .next s.popTurn.assertReset :=
    step_reset (by simp only [State.nextTurn, hturns])
  have hrest : s.popTurn.assertReset.turns = rest := by simp [hturns]
  exact ⟨_, hstep, rfl, rfl, rfl, rfl, rfl, rfl, rfl, rfl, rfl, rfl, rfl, rfl, rfl, rfl, rfl, rfl, rfl, rfl,
    rfl, rfl, rfl, rfl, rfl, rfl, hrest, fun _ h => State.bus_assertReset (s := s.popTurn) h⟩

end Sys2Proof.Machine
end

section
/-! The canonical form of bus memory as an invariant of the step. The core stores only where it calls the
engine and at the end of a buffer-mode encode; besides it only a bus agent's write and reset change what is
listed. -/

namespace Sys2Proof.Machine

/-! ## What the canonical form depends on -/

/-- The canonical form is a matter of the listed bytes and of the ranges left unspecified by a reset. -/
theorem memoryCanonical_congr {s t : State} (hmem : t.mem = s.mem) (hrenewed : t.renewed = s.renewed)
    (hs : memoryCanonical s) : memoryCanonical t := by
  have hunlisted : t.unlistedByte = s.unlistedByte := by
    funext a
    simp only [State.unlistedByte, hrenewed]
  rwa [memoryCanonical, hmem, hunlisted]

/-- Storing bytes, whatever else but the unspecified ranges the operation writes. -/
theorem memoryCanonical_of_storeBytes {s t : State} {writable : Nat → Bool} {base : Nat}
    {bytes : List Byte} (hstore : storeBytes writable s.unlistedByte base s.mem bytes = .ok t.mem)
    (hrenewed : t.renewed = s.renewed) (hs : memoryCanonical s) : memoryCanonical t :=
  memoryCanonical_congr (s := { s with mem := t.mem }) rfl hrenewed
    (storeBytes_wf writable s.unlistedByte bytes base s.mem t.mem hstore hs)

/-! ## The operations that store -/

theorem State.outWrite_memoryCanonical {b : List Byte} {s t : State} (h : s.outWrite b = .done t)
    (hs : memoryCanonical s) : memoryCanonical t := by
  unfold State.outWrite at h
  split at h
  · obtain ⟨_, _, _, _, rfl⟩ := State.outWritePort_done h
    exact hs
  · obtain ⟨_, _, _, _, hstore, _, rfl⟩ := State.outWriteBuffer_done h
    exact memoryCanonical_of_storeBytes hstore rfl hs

theorem State.outWrites_memoryCanonical (ws : List (List Byte)) {s t : State}
    (h : State.outWrites ws s = .done t) (hs : memoryCanonical s) : memoryCanonical t := by
  induction ws generalizing s with
  | nil => cases h; exact hs
  | cons b bs ih =>
    obtain ⟨u, hfirst, hrest⟩ := Io.bind_eq_done.1 h
    exact ih hrest (State.outWrite_memoryCanonical hfirst hs)

theorem State.engineCall_memoryCanonical {event : Bool → Event} {s t : State} {ok : Bool}
    (h : s.engineCall event = .done (ok, t)) (hs : memoryCanonical s) : memoryCanonical t := by
  obtain ⟨a, rest, _, _, hwrites⟩ := State.engineCall_done h
  exact State.outWrites_memoryCanonical a.writes hwrites hs

theorem State.bufferResult_memoryCanonical {s t : State} (h : s.bufferResult = .done t)
    (hs : memoryCanonical s) : memoryCanonical t := by
  obtain ⟨_, rfl⟩ | ⟨_, m, hstore, rfl⟩ := State.bufferResult_done h
  · exact hs
  · exact memoryCanonical_of_storeBytes hstore rfl hs

/-! ## The steps of the core -/

theorem execStepBegin_memoryCanonical {s t : State} (h : execStepBegin s = .next t)
    (hs : memoryCanonical s) : memoryCanonical t := by
  obtain rfl | ⟨ok, u, hcall, ht⟩ := execStepBegin_next h
  · exact hs
  · have hu := State.engineCall_memoryCanonical hcall hs
    obtain ⟨_, rfl⟩ | ⟨_, rfl⟩ := ht <;> exact hu

theorem execStepEmit_memoryCanonical {s t : State} (h : execStepEmit s = .next t)
    (hs : memoryCanonical s) : memoryCanonical t := by
  obtain rfl | ⟨ok, u, hcall, rfl⟩ := execStepEmit_next h
  · exact hs
  · obtain ⟨_, _, _, hrenewed, _, _, hmem, _⟩ := State.busView_eq_iff.1 u.blockSent_busView
    exact memoryCanonical_congr hmem hrenewed (State.engineCall_memoryCanonical hcall hs)

theorem execStepFinish_memoryCanonical {s t : State} (h : execStepFinish s = .next t)
    (hs : memoryCanonical s) : memoryCanonical t := by
  obtain rfl | ⟨ok, u, hcall, ht⟩ := execStepFinish_next h
  · exact hs
  · have hu := State.engineCall_memoryCanonical hcall hs
    obtain ⟨_, rfl⟩ | ⟨_, hresult⟩ := ht
    · exact hu
    · exact State.bufferResult_memoryCanonical hresult hu

/-- In a state that calls no engine the core leaves bus memory alone. -/
theorem CoreMove.bus_eq {s t : State} (h : CoreMove s t) (hbegin : s.fsm ≠ .begin)
    (hemit : s.fsm ≠ .emitting) (hfinish : s.fsm ≠ .finish) :
    t.mem = s.mem ∧ t.renewed = s.renewed := by
  cases h with
  | begun hf | beginFails hf => exact absurd hf hbegin
  | blockSent hf => exact absurd hf hemit
  | overflowed hf | completed hf => exact absurd hf hfinish
  | _ => exact ⟨rfl, rfl⟩

/-- Every step of the core keeps the canonical form. -/
theorem exec_instr_memoryCanonical {s t : State} (h : exec s.fsm.instr s = .next t)
    (hs : memoryCanonical s) : memoryCanonical t := by
  by_cases hbegin : s.fsm = .begin
  · rw [hbegin] at h
    exact execStepBegin_memoryCanonical h hs
  by_cases hemit : s.fsm = .emitting
  · rw [hemit] at h
    exact execStepEmit_memoryCanonical h hs
  by_cases hfinish : s.fsm = .finish
  · rw [hfinish] at h
    exact execStepFinish_memoryCanonical h hs
  obtain ⟨hmem, hrenewed⟩ := (exec_instr_move h).bus_eq hbegin hemit hfinish
  exact memoryCanonical_congr hmem hrenewed hs

/-! ## The other turns -/

/-- No host access and no command touches bus memory. -/
theorem HostMove.memoryCanonical {s t : State} (h : HostMove s t) (hs : memoryCanonical s) :
    memoryCanonical t := by
  cases h <;> exact hs

theorem reservedCode_memoryCanonical {s : State} (hs : memoryCanonical s) :
    memoryCanonical (reservedCode s) := by
  obtain h | ⟨_, ⟨_, _, h⟩ | h⟩ := reservedCode_cases s <;> rw [h] <;> exact hs

/-- Every turn but the core's, whose moves leave the stored bytes open, keeps the canonical form. -/
theorem TurnMove.memoryCanonical {s t : State} {turn : Turn} (h : TurnMove s turn t)
    (hturn : turn ≠ .core) (hs : memoryCanonical s) : memoryCanonical t := by
  cases h with
  | core => exact absurd rfl hturn
  | host h | command h => exact h.memoryCanonical hs
  | datapath | pixel | busRead => exact hs
  | reservedCode => exact reservedCode_memoryCanonical hs
  | reset => exact s.assertReset_wf hs
  | busWrite => exact Memory.store_wf _ _ _ _ hs

/-! ## O52: the canonical form of bus memory -/

/-- Settles O52: the core's turn by the instruction of its state, every other turn by its move. -/
theorem stepKeepsMemoryCanonical : Obligations.StepKeepsMemoryCanonical := by
  intro s t hs hstep
  have hpop : memoryCanonical s.popTurn := hs
  by_cases hturn : s.nextTurn = .core
  · exact exec_instr_memoryCanonical (s := s.popTurn) (step_core hturn ▸ hstep) hpop
  · exact (step_move hstep).memoryCanonical hturn hpop

end Sys2Proof.Machine
end
